-- ==== Sys2Proof/Word.lean ====
section
/-! DEFINITION. The words the engine moves: 32-bit command and register words, bytes of the output
stream (R8, R80, R50). -/

namespace Sys2Proof

/-- A command word or a register value: 32 bits, bit 0 least significant (R8, R64, R80). -/
abbrev Word := BitVec 32

/-- A symbol or one byte of the output stream (R81, R50). -/
abbrev Byte := BitVec 8

/-- The register read port's word address (R27, R61). -/
abbrev Addr := BitVec 16

end Sys2Proof
end

