-- ==== Sys2Proof/Syntax.lean ====
section
/-! DEFINITION. The eight commands (R83), one constructor per row of the opcode table. -/

namespace Sys2Proof

/-- A decoded command (R83). The only operand is the symbol of FREQ_INC and PACK (R81). -/
inductive Instr where
  /-- NOP (R170). -/
  | nop
  /-- CLEAR (R172). -/
  | clear
  /-- FREQ_INC sym (R100). -/
  | freqInc (sym : Byte)
  /-- BUILD_TREE (R115). -/
  | buildTree
  /-- BUILD_CODES (R130). -/
  | buildCodes
  /-- EMIT_HEADER (R141). -/
  | emitHeader
  /-- PACK sym (R152). -/
  | pack (sym : Byte)
  /-- FINISH (R158). -/
  | finish
deriving DecidableEq, Repr

end Sys2Proof
end

