-- ==== Sys2Proof/WellFormed.lean ====
section
/-! DEFINITION. Which command words are well formed (R80 to R82, R85). A value of `Instr` is well
formed by its type: the operand is an 8-bit symbol and only FREQ_INC and PACK carry one. What can be
ill formed is a word, in the three ways R85 names. -/

namespace Sys2Proof

namespace CommandWord

/-- Field `op`, bits [31:24] (R80). -/
def op (w : Word) : BitVec 8 := w.extractLsb' 24 8

/-- Field `rsv`, bits [23:8] (R80). -/
def rsv (w : Word) : BitVec 16 := w.extractLsb' 8 16

/-- Field `sym`, bits [7:0] (R80). -/
def sym (w : Word) : Byte := w.extractLsb' 0 8

/-- R82: the reserved field is 0. -/
def reservedClear (w : Word) : Bool := rsv w == 0#16

/-- R83, R85: the opcode is one of 0x00 to 0x07. -/
def opcodeKnown (w : Word) : Bool := decide ((op w).toNat < 8)

/-- R81: FREQ_INC (0x02) and PACK (0x06) take a symbol, and every other opcode needs `sym` = 0. -/
def operandAllowed (w : Word) : Bool := op w == 0x02#8 || op w == 0x06#8 || sym w == 0#8

/-- A word that is one of the eight commands (R85). -/
def wellFormed (w : Word) : Bool := reservedClear w && opcodeKnown w && operandAllowed w

end CommandWord

/-- An instruction is well formed by its type (see this file's header): the check names every
constructor so that a new one must be judged. -/
def Instr.wellFormed : Instr → Bool
  | .nop => true
  | .clear => true
  | .freqInc sym => decide (sym.toNat < 256)
  | .buildTree => true
  | .buildCodes => true
  | .emitHeader => true
  | .pack sym => decide (sym.toNat < 256)
  | .finish => true

end Sys2Proof
end

