-- ==== Sys2Proof/Decode.lean ====
section
/-! DEFINITION. The decoder (R84), total on every 32-bit word and rejecting by name, and after it the
encoder, written from the same format and opcode map (R80, R83). -/

namespace Sys2Proof

/-- Why a word is illegal: the three kinds of R85. -/
inductive Illegal where
  /-- A bit of [23:8] is set (R82). -/
  | reservedField
  /-- The opcode is 0x08 to 0xFF (R83). -/
  | unknownOpcode
  /-- A non-zero `sym` on an opcode without an operand (R81). -/
  | operandNotZero
deriving DecidableEq, Repr

/-- What a word decodes to (R84). -/
inductive Decoded where
  | cmd (i : Instr)
  | illegal (why : Illegal)
deriving DecidableEq, Repr

/-- The rows of R84 for an opcode without an operand. -/
def decodeBare (i : Instr) (sym : Byte) : Decoded :=
  if sym = 0#8 then .cmd i else .illegal .operandNotZero

/-- The decode procedure of R84. -/
def decode (w : Word) : Decoded :=
  if CommandWord.rsv w ≠ 0#16 then .illegal .reservedField
  else
    match (CommandWord.op w).toNat with
    | 0x00 => decodeBare .nop (CommandWord.sym w)
    | 0x01 => decodeBare .clear (CommandWord.sym w)
    | 0x02 => .cmd (.freqInc (CommandWord.sym w))
    | 0x03 => decodeBare .buildTree (CommandWord.sym w)
    | 0x04 => decodeBare .buildCodes (CommandWord.sym w)
    | 0x05 => decodeBare .emitHeader (CommandWord.sym w)
    | 0x06 => .cmd (.pack (CommandWord.sym w))
    | 0x07 => decodeBare .finish (CommandWord.sym w)
    | _ => .illegal .unknownOpcode

/-- The opcode of a command (R83). -/
def opcode : Instr → BitVec 8
  | .nop => 0x00#8
  | .clear => 0x01#8
  | .freqInc _ => 0x02#8
  | .buildTree => 0x03#8
  | .buildCodes => 0x04#8
  | .emitHeader => 0x05#8
  | .pack _ => 0x06#8
  | .finish => 0x07#8

/-- The `sym` field of a command: its symbol, or 0 where it has none (R81). -/
def operand : Instr → Byte
  | .freqInc sym => sym
  | .pack sym => sym
  | .nop => 0#8
  | .clear => 0#8
  | .buildTree => 0#8
  | .buildCodes => 0#8
  | .emitHeader => 0#8
  | .finish => 0#8

/-- The word of a command: `op`, then `rsv` = 0, then `sym` (R80). -/
def encode (i : Instr) : Word := opcode i ++ (0#16 ++ operand i)

/-- The command word whose bits are `w`, of which the table gives `nbits`; bits above are 0. A
command word is one unit and has no byte order (R80). -/
def tableWord (nbits w : Nat) : Word := BitVec.ofNat 32 (w % 2 ^ nbits)

/-- The instruction this decoder reads from a row's bits. -/
def decodeTableWord (nbits w : Nat) : Option Instr :=
  match decode (tableWord nbits w) with
  | .cmd i => some i
  | .illegal _ => none

end Sys2Proof
end

