-- ==== Sys2Proof/Config.lean ====
section
/-! DEFINITION. What a build of the engine fixes (R6, R7), the character codes (R10), and the free
values: constants without a body, of which no proof can see the value. -/

namespace Sys2Proof

/-- When FINISH emits the trailing partial byte (R7). -/
inductive FlushPolicy where
  /-- PENDING: when SUB_INDEX is not 0 (R7). -/
  | pending
  /-- NONZERO: when the partial byte's value is not 0 (R7). -/
  | nonzero
deriving DecidableEq, Repr

/-- The OUT_DEPTH of a build. R6: OPEN, at least 1. So what is held is the entries beyond the first one,
and no build without an entry can be written down. -/
structure OutDepth where
  beyondFirst : Nat
deriving DecidableEq, Repr

/-- How many entries OUT has (R6). -/
def OutDepth.entries (d : OutDepth) : Nat := d.beyondFirst + 1

/-- The parameters that differ from build to build (R6). They never change at run time (R7). -/
structure Build where
  /-- FLUSH_POLICY (R7, log entry 1). -/
  flushPolicy : FlushPolicy
  /-- OUT_DEPTH (R6). `none` is the unbounded OUT that R50 gives a model, `some d` a FIFO of
  `d.entries` entries (log entry 2). -/
  outDepth : Option OutDepth
deriving DecidableEq, Repr

namespace Config

/-- ID_VALUE (R6, R30). -/
def idValue : Word := 0x48554646#32

/-- COUNT_W (R6). -/
def countW : Nat := 32

/-- CODE_MAX (R6). -/
def codeMax : Nat := 255

/-- BUF_BYTES (R6, R150). -/
def bufBytes : Nat := 34

/-- MAX_NODES (R6). -/
def maxNodes : Nat := 511

/-- '(' (R10). -/
def charOpen : Byte := 0x28#8

/-- ')' (R10). -/
def charClose : Byte := 0x29#8

/-- ' ' (R10). -/
def charSpace : Byte := 0x20#8

/-- LF (R10, R146). -/
def charLF : Byte := 0x0A#8

/-- The digit '0' (R10). -/
def charZero : Nat := 0x30

/-- FREE VALUE (log entry 5). What a register read returns while BUSY = 1, or before the host has
seen BUSY = 0 since its last command (R27, R210): "a free 32-bit value". The argument is the step's
draw. -/
opaque freeRead : Nat → Word

/-- The registers whose rules write an exact sum into a stated width (R8). -/
inductive Sized where
  | freq | nsym | totalCount | weight | code | codeLen | hdrLen | packedBits | outCount
deriving DecidableEq, Repr

/-- FREE VALUE (log entry 6). What register `r` of `w` bits holds when the exact result `n` does not
fit in it: R8 says that a result must fit, and no rule says what is written when it does not. -/
opaque unfit (r : Sized) (draw w n : Nat) : BitVec w

end Config

end Sys2Proof
end

