-- ==== Sys2Proof/Machine/State.lean ====
section
/-! DEFINITION. The state of the machine as plain data: every row of R22, the ports of R23, the build
parameters of R6, the reasons a step can stop, and the state right after reset (R200). -/

namespace Sys2Proof.Machine

/-- The phases of R12 and R32; the codes 5 and 6 never occur, so they have no constructor. -/
inductive Phase where
  | count | tree | codes | pack | done | error
deriving DecidableEq, Repr

/-- The error codes of R181; 0x07 to 0xFF are never raised, so they have no constructor. -/
inductive ErrCode where
  | none | illegalCommand | sequenceError | emptyInput | countOverflow | noCode | lengthMismatch
deriving DecidableEq, Repr

/-- The index of an entry of the node store, 0 to 510 (R26). -/
abbrev NodeIx := Fin 511

/-- One entry of the node store (R26). -/
structure Node where
  valid : Bool
  internal : Bool
  sym : Byte
  weight : BitVec 32
  left : BitVec 9
  right : BitVec 9
deriving DecidableEq, Repr

/-- What a command still writes after its last OutPush: the lines of its pseudocode below the pushes
(R141, R152, R158). -/
inductive Closing where
  /-- EMIT_HEADER: HDR_LEN, OUT_COUNT and PHASE, for a tree text of `treeLen` bytes (R141). -/
  | header (treeLen : Nat)
  /-- PACK: `reset()`, LAST_FILLED, PACKED_BITS and OUT_COUNT, for `filled` finalized bytes and a
  code of `len` bits (R152, R153). -/
  | pack (filled len : Nat)
  /-- FINISH: OUT_COUNT and PHASE, with `flushed` bytes pushed (R158). -/
  | finish (flushed : Nat)
deriving DecidableEq, Repr

/-- A command that is accepted and not finished: it waits for room in OUT (R54, R198, R211). -/
structure InFlight where
  /-- The bytes it has still to push, in order. -/
  rest : List Byte
  /-- What it writes once they are pushed. -/
  closing : Closing
deriving DecidableEq, Repr

/-- The engine's state: the rows of R22. BUSY is `inflight` (R54). -/
structure Engine where
  phase : Phase
  inflight : Option InFlight
  single : Bool
  errCode : ErrCode
  errCmd : Word
  freq : Vector (BitVec 32) 256
  nsym : BitVec 9
  totalCount : BitVec 32
  nodes : Vector Node 511
  nnodes : BitVec 10
  root : BitVec 9
  q : List NodeIx
  codeLen : Vector (BitVec 8) 256
  code : Vector (BitVec 255) 256
  totalBits : BitVec 64
  padding : BitVec 3
  hdrLen : BitVec 11
  buf : Vector Byte 34
  subIndex : BitVec 3
  lastFilled : BitVec 6
  packedBits : BitVec 64
  outCount : BitVec 64
  out : List Byte
deriving DecidableEq, Repr

/-- One move of the machine: the engine's turn, or one action of the host on one of the four ports of
R23 (log entry 3). -/
inductive Event where
  /-- The engine's turn. -/
  | engine
  /-- The host offers a word at the command port (R24). -/
  | offer (w : Word)
  /-- The host reads the register at word address `a` (R27). -/
  | read (a : Addr)
  /-- The host is ready for a byte at the output port (R50). -/
  | take
  /-- `rst_n` goes low (R200). -/
  | resetLow
  /-- `rst_n` is released (R200). -/
  | resetHigh
deriving DecidableEq, Repr

/-- The ports and the host's side of them (R23, R24, R27, R50). -/
structure HostSide where
  /-- The moves still to come, the next one first (log entry 3). -/
  events : List Event
  /-- Words offered at the command port and not yet accepted, oldest first (R24, R212). -/
  port : List Word
  /-- Bytes the host has taken from OUT, oldest first (R50). -/
  taken : List Byte
  /-- Registers the host has read, with the values returned, oldest first (R27). -/
  reads : List (Addr × Word)
  /-- Whether the host has seen BUSY = 0 since its last command (R210, log entry 5). -/
  sawIdle : Bool
  /-- Whether `rst_n` is low (R200). -/
  inReset : Bool
deriving DecidableEq, Repr

/-- The machine: the build, the engine, the host's side, and the counter that names a step's free
values (log entry 5). -/
structure State where
  build : Build
  eng : Engine
  host : HostSide
  draw : Nat
deriving DecidableEq, Repr

/-- Why the machine stops. Each happens only in states that no run reaches, and each is safe: the
model stops where the spec gives no next state. -/
inductive Fault where
  /-- Raised by BUILD_TREE when the queue is empty where the rules take its head: I8 calls it stuck
  (log entry 8). Safe. -/
  | emptyQueue
  /-- Raised by BUILD_CODES and EMIT_HEADER when ROOT, LEFT or RIGHT is 511: the node store has no
  such entry (R26, log entry 9). Safe. -/
  | noSuchNode
  /-- Raised by BUILD_CODES and EMIT_HEADER when the node table holds a cycle, so that the walk of
  R130 or R140 never ends (log entry 9). Safe. -/
  | endlessWalk
deriving DecidableEq, Repr

/-- Why an instruction is refused. -/
inductive Refusal where
  /-- Raised by `exec` for an instruction without a meaning; no arm of this model raises it. Safe. -/
  | notModelled (mnemonic : String)
deriving DecidableEq, Repr

/-- A node entry with VALID = 0: all its fields are 0 (R26). -/
def Node.empty : Node :=
  { valid := false, internal := false, sym := 0#8, weight := 0#32, left := 0#9, right := 0#9 }

/-- The engine's state after reset and after CLEAR (R22, R200, R202). -/
def Engine.reset : Engine :=
  { phase := .count
    inflight := none
    single := false
    errCode := .none
    errCmd := 0#32
    freq := Vector.replicate 256 0#32
    nsym := 0#9
    totalCount := 0#32
    nodes := Vector.replicate 511 Node.empty
    nnodes := 0#10
    root := 0#9
    q := []
    codeLen := Vector.replicate 256 0#8
    code := Vector.replicate 256 0#255
    totalBits := 0#64
    padding := 0#3
    hdrLen := 0#11
    buf := Vector.replicate 34 0#8
    subIndex := 0#3
    lastFilled := 0#6
    packedBits := 0#64
    outCount := 0#64
    out := [] }

/-- The host's side at the launch of R209: nothing offered, taken or read (log entries 3, 4, 5, 11). -/
def HostSide.reset : HostSide :=
  { events := [], port := [], taken := [], reads := [], sawIdle := true, inReset := false }

/-- The default build: FLUSH_POLICY is PENDING (R6, R7), and OUT is the unbounded sequence that R50
gives a model (log entries 1 and 2). -/
def Build.default : Build := { flushPolicy := .pending, outDepth := none }

/-- The machine right after reset (R200, R209). -/
def State.reset : State :=
  { build := Build.default, eng := Engine.reset, host := HostSide.reset, draw := 0 }

end Sys2Proof.Machine
end

