-- ==== Sys2Proof/Machine/Operands.lean ====
section
/-! DEFINITION. Operand assembly (R81): the symbol field, zero-extended, indexes the 256-entry tables
(R25, R48, R49). -/

namespace Sys2Proof.Machine

/-- The symbols 0 to 255 in ascending order: `for s in 0 .. 255` of R11. -/
def symbols : List Byte := (List.range 256).map (BitVec.ofNat 8)

/-- Entry `s` of a table of 256 entries: `T[zext(s)]` (R11, R81). -/
def symAt {α : Type} (t : Vector α 256) (s : Byte) : α := t[s.toNat]'s.isLt

/-- `T[zext(s)] <- v` (R11, R81). -/
def setSym {α : Type} (t : Vector α 256) (s : Byte) (v : α) : Vector α 256 := t.set s.toNat v s.isLt

/-- FREQ[s], the count of a symbol, 0 when it is absent (R25). -/
def Engine.freqOf (e : Engine) (s : Byte) : BitVec 32 := symAt e.freq s

/-- CODE_LEN[s], 0 when the symbol has no code (R48). -/
def Engine.codeLenOf (e : Engine) (s : Byte) : BitVec 8 := symAt e.codeLen s

/-- CODE[s], the code as a right-aligned bit pattern (R49). -/
def Engine.codeOf (e : Engine) (s : Byte) : BitVec 255 := symAt e.code s

/-- Entry `i` of the node store, none for the index 511 that has no entry (R26). -/
def nodeAt (nodes : Vector Node 511) (i : BitVec 9) : Option Node := nodes[i.toNat]?

end Sys2Proof.Machine
end

