-- ==== Sys2Proof/Machine/Flags.lean ====
section
/-! DEFINITION. The status flags and the STATUS word (R32, R56): BUSY and SINGLE are stored, ERR,
PENDING and OUT_AVAIL are computed. -/

namespace Sys2Proof.Machine

/-- The code of a phase in STATUS[2:0] (R32). -/
def Phase.toBits : Phase → BitVec 3
  | .count => 0#3
  | .tree => 1#3
  | .codes => 2#3
  | .pack => 3#3
  | .done => 4#3
  | .error => 7#3

/-- The error code in ERROR[7:0] (R181). -/
def ErrCode.toBits : ErrCode → BitVec 8
  | .none => 0x00#8
  | .illegalCommand => 0x01#8
  | .sequenceError => 0x02#8
  | .emptyInput => 0x03#8
  | .countOverflow => 0x04#8
  | .noCode => 0x05#8
  | .lengthMismatch => 0x06#8

/-- BUSY: an accepted command has not finished (R32, R54). -/
def Engine.busy (e : Engine) : Bool := e.inflight.isSome

/-- ERR: PHASE is ERROR (R32). -/
def Engine.err (e : Engine) : Bool := e.phase == .error

/-- PENDING: SUB_INDEX is not 0 (R32). -/
def Engine.pending (e : Engine) : Bool := e.subIndex != 0#3

/-- OUT_AVAIL: OUT holds at least one byte (R32). -/
def Engine.outAvail (e : Engine) : Bool := !e.out.isEmpty

/-- The STATUS register (R32). -/
def statusWord (e : Engine) : Word :=
  0#24 ++ BitVec.ofBool e.outAvail ++ BitVec.ofBool e.pending ++ BitVec.ofBool e.single
    ++ BitVec.ofBool e.err ++ BitVec.ofBool e.busy ++ e.phase.toBits

end Sys2Proof.Machine
end

