-- ==== Sys2Proof/Machine/Ops.lean ====
section
/-! DEFINITION. The shared operations: writing an exact result into a stated width (R8), taking an
error and leaving the error phase (R185, R188), the phase check (R88), the queue (R110 to R113), and
OutPush with its wait (R50, R198). -/

namespace Sys2Proof.Machine

/-! ### State updates -/

/-- Replace the engine's state. -/
def State.withEng (s : State) (e : Engine) : State := { s with eng := e }

/-- Replace the host's side. -/
def State.withHost (s : State) (h : HostSide) : State := { s with host := h }

/-- Move on to the next draw, so that each step's free values are its own (log entry 5). -/
def State.nextDraw (s : State) : State := { s with draw := s.draw + 1 }

/-! ### Widths -/

/-- Write the exact result `n` into `w` bits (R8). It is `n` where `n` fits; where it does not, the
spec gives no value and the register holds a free value (log entry 6). -/
def narrow (r : Config.Sized) (draw w n : Nat) : BitVec w :=
  if n < 2 ^ w then BitVec.ofNat w n else Config.unfit r draw w n

/-- `n[7:0]` (R8). -/
def low8 (n : Nat) : Byte := BitVec.ofNat 8 n

/-! ### Errors -/

/-- Error entry (R185): the code and the whole command word are recorded, the phase becomes ERROR, and
nothing else changes. -/
def raiseError (code : ErrCode) (word : Word) (s : State) : State :=
  s.withEng { s.eng with errCode := code, errCmd := word, phase := .error }

/-- The exit from the error phase (R188), which is also the start of a fresh run (R172, R200): every
state element of R22 takes its reset value. -/
def clearEngine (s : State) : State := s.withEng Engine.reset

/-- The phase check of R88 for a command that is legal in the one phase `need`: ignored in ERROR
(R187), SEQUENCE_ERROR in any other phase (R184). -/
def inPhase (need : Phase) (i : Instr) (s : State) (body : Host.Outcome State Fault Refusal) :
    Host.Outcome State Fault Refusal :=
  if s.eng.phase = .error then .next s
  else if s.eng.phase = need then body
  else .next (raiseError .sequenceError (encode i) s)

/-- What an illegal word does (R85, R184, R187). -/
def illegalWord (w : Word) (s : State) : Host.Outcome State Fault Refusal :=
  if s.eng.phase = .error then .next s else .next (raiseError .illegalCommand w s)

/-! ### The priority queue -/

/-- WEIGHT of node `x`. -/
def weightOf (nodes : Vector Node 511) (x : NodeIx) : Nat := nodes[x].weight.toNat

/-- `Q.insert(x)` (R111): after every entry whose weight is at most its own, before the first entry
whose weight is strictly greater. -/
def qInsert (nodes : Vector Node 511) (x : NodeIx) : List NodeIx → List NodeIx
  | [] => [x]
  | y :: ys => if weightOf nodes x < weightOf nodes y then x :: y :: ys else y :: qInsert nodes x ys

/-- `Q.removeMin()` (R112): the head and the rest, or EMPTY. -/
def qRemoveMin : List NodeIx → Option (NodeIx × List NodeIx)
  | [] => none
  | x :: xs => some (x, xs)

/-- `Q.peekMin()` (R113): the head, or EMPTY. -/
def qPeekMin : List NodeIx → Option NodeIx
  | [] => none
  | x :: _ => some x

/-! ### The output stream -/

/-- `OutPush(b)`: append at the tail of OUT (R11, R50). -/
def outPush (b : Byte) (s : State) : State := s.withEng { s.eng with out := s.eng.out ++ [b] }

/-- OUT can take one more byte now (R50, R198). -/
def hasRoom (s : State) : Bool :=
  match s.build.outDepth with
  | none => true
  | some d => decide (s.eng.out.length < d.entries)

/-- `reset()` of the packer (R153): the partial byte BUF[filled] moves to position 0 of a zeroed
buffer. -/
def resetBuf (buf : Vector Byte 34) (filled : Nat) : Vector Byte 34 :=
  (Vector.replicate 34 0#8).set 0 (buf[filled]?.getD 0#8)

/-- A command's writes after its last OutPush, and BUSY back to 0 (R54, R141, R152, R158). -/
def closeCommand (draw : Nat) (c : Closing) (e : Engine) : Engine :=
  match c with
  | .header treeLen =>
    { e with
      inflight := none
      hdrLen := narrow .hdrLen draw 11 treeLen
      outCount := narrow .outCount draw 64 (e.outCount.toNat + (treeLen + 3))
      phase := .pack }
  | .pack filled len =>
    { e with
      inflight := none
      buf := resetBuf e.buf filled
      lastFilled := BitVec.ofNat 6 filled
      packedBits := narrow .packedBits draw 64 (e.packedBits.toNat + len)
      outCount := narrow .outCount draw 64 (e.outCount.toNat + filled) }
  | .finish flushed =>
    { e with
      inflight := none
      outCount := narrow .outCount draw 64 (e.outCount.toNat + flushed)
      phase := .done }

/-- Push the bytes in order, then close the command. Where OUT is full the command waits with BUSY = 1
until the host takes a byte (R198, R211); in an unbounded OUT it never waits (R50). -/
def pushAll : List Byte → Closing → State → State
  | [], c, s => s.withEng (closeCommand s.draw c s.eng)
  | b :: bs, c, s =>
    if hasRoom s then pushAll bs c (outPush b s)
    else s.withEng { s.eng with inflight := some { rest := b :: bs, closing := c } }

end Sys2Proof.Machine
end

