-- ==== Sys2Proof/Machine/Codes.lean ====
section
/-! DEFINITION. The code-table generator: BUILD_CODES (R130 to R137). -/

namespace Sys2Proof.Machine

/-- The two code tables (R48, R49). -/
structure CodeTable where
  len : Vector (BitVec 8) 256
  code : Vector (BitVec 255) 256
deriving DecidableEq, Repr

/-- Both tables cleared (R130). -/
def CodeTable.clear : CodeTable :=
  { len := Vector.replicate 256 0#8, code := Vector.replicate 256 0#255 }

/-- `CODE[s] <- path; CODE_LEN[s] <- len` (R130). -/
def CodeTable.assign (draw : Nat) (t : CodeTable) (s : Byte) (path len : Nat) : CodeTable :=
  { len := setSym t.len s (narrow .codeLen draw 8 len)
    code := setSym t.code s (narrow .code draw 255 path) }

/-- `Walk(i, path, len)` (R130): left appends 0, right appends 1; `path << 1` is twice the path (R8).
`depth` bounds the nodes of one path: there are 511 entries, so a longer path repeats one and never
ends (log entry 9). -/
def walk (draw : Nat) (nodes : Vector Node 511) :
    (depth : Nat) → BitVec 9 → (path len : Nat) → CodeTable → Except Fault CodeTable
  | 0, _, _, _, _ => .error .endlessWalk
  | depth + 1, i, path, len, t =>
    match nodeAt nodes i with
    | none => .error .noSuchNode
    | some n =>
      if n.internal then
        match walk draw nodes depth n.left (2 * path) (len + 1) t with
        | .error f => .error f
        | .ok t' => walk draw nodes depth n.right (2 * path + 1) (len + 1) t'
      else .ok (t.assign draw n.sym path len)

/-- The code table of a tree: the single symbol's code "0" (R131), or the walk from ROOT (R130). -/
def codeTable (draw : Nat) (e : Engine) : Except Fault CodeTable :=
  if e.single then
    match nodeAt e.nodes e.root with
    | none => .error .noSuchNode
    | some n => .ok (CodeTable.clear.assign draw n.sym 0 1)
  else walk draw e.nodes Config.maxNodes e.root 0 0 CodeTable.clear

/-- The sum over s of FREQ[s] * CODE_LEN[s] (R132). -/
def totalBitsOf (freq : Vector (BitVec 32) 256) (len : Vector (BitVec 8) 256) : Nat :=
  (symbols.map fun s => (symAt freq s).toNat * (symAt len s).toNat).sum

/-- `(8 - (n mod 8)) mod 8` (R133). -/
def paddingOf (n : Nat) : Nat := (8 - n % 8) % 8

/-- The writes of BUILD_CODES (R130, R132, R133). The sum is below 2^48 for any table contents, so it
fits TOTAL_BITS. -/
def writeCodes (t : CodeTable) (e : Engine) : Engine :=
  { e with
    codeLen := t.len
    code := t.code
    totalBits := BitVec.ofNat 64 (totalBitsOf e.freq t.len)
    padding := BitVec.ofNat 3 (paddingOf (totalBitsOf e.freq t.len))
    phase := .codes }

/-- BUILD_CODES (R130). -/
def execBuildCodes (s : State) : Host.Outcome State Fault Refusal :=
  inPhase .tree .buildCodes s <|
    match codeTable s.draw s.eng with
    | .error f => .fault f
    | .ok t => .next (s.withEng (writeCodes t s.eng))

end Sys2Proof.Machine
end

