-- ==== Sys2Proof/Machine/Control.lean ====
section
/-! DEFINITION. The control commands NOP and CLEAR (R170 to R173). -/

namespace Sys2Proof.Machine

/-- NOP: no state changes, in any phase (R170, R171). -/
def execNop (s : State) : Host.Outcome State Fault Refusal := .next s

/-- CLEAR: a fresh run, legal in every phase, ERROR included (R172, R173). -/
def execClear (s : State) : Host.Outcome State Fault Refusal := .next (clearEngine s)

end Sys2Proof.Machine
end

