-- ==== Sys2Proof/Machine/Frequency.lean ====
section
/-! DEFINITION. Frequency accumulation: FREQ_INC (R100 to R104). -/

namespace Sys2Proof.Machine

/-- The writes of FREQ_INC (R100): NSYM on a first occurrence, FREQ[sym], TOTAL_COUNT. -/
def countSymbol (draw : Nat) (sym : Byte) (e : Engine) : Engine :=
  { e with
    nsym := if e.freqOf sym = 0#32 then narrow .nsym draw 9 (e.nsym.toNat + 1) else e.nsym
    freq := setSym e.freq sym (narrow .freq draw 32 ((e.freqOf sym).toNat + 1))
    totalCount := narrow .totalCount draw 32 (e.totalCount.toNat + 1) }

/-- FREQ_INC (R100): COUNT_OVERFLOW when TOTAL_COUNT is 2^32 - 1 (R102). -/
def execFreqInc (sym : Byte) (s : State) : Host.Outcome State Fault Refusal :=
  inPhase .count (.freqInc sym) s <|
    if s.eng.totalCount.toNat = 2 ^ 32 - 1 then
      .next (raiseError .countOverflow (encode (.freqInc sym)) s)
    else .next (s.withEng (countSymbol s.draw sym s.eng))

end Sys2Proof.Machine
end

