-- ==== Sys2Proof/Machine/Packer.lean ====
section
/-! DEFINITION. The bit-packing engine: PACK and FINISH (R150 to R161). Shifts are exact on natural
numbers (R161). -/

namespace Sys2Proof.Machine

/-- `BUF[p] <- BUF[p] | n[7:0]` (R152). -/
def orBuf (buf : Vector Byte 34) (p n : Nat) : Vector Byte 34 :=
  buf.setIfInBounds p (buf[p]?.getD 0#8 ||| low8 n)

/-- The loop of step 4 (R152): whole bytes of the code while `rem >= 8`, with a bound on its passes.
It answers `rem`, `p` and BUF. -/
def packChunks (code : Nat) : (passes rem p : Nat) → Vector Byte 34 → Nat × Nat × Vector Byte 34
  | 0, rem, p, buf => (rem, p, buf)
  | passes + 1, rem, p, buf =>
    if 8 ≤ rem then
      packChunks code passes (rem - 8) (p + 1) (buf.setIfInBounds p (low8 (code >>> (rem - 8))))
    else (rem, p, buf)

/-- Steps 2 to 4 of PACK (R152): BUF with the code in it, and `p`, the count of finalized bytes. -/
def packBits (sub len code : Nat) (buf : Vector Byte 34) : Vector Byte 34 × Nat :=
  let rightLen := 8 - sub
  if len ≤ rightLen then
    (orBuf buf 0 (code <<< (rightLen - len)), if len = rightLen then 1 else 0)
  else
    let rem := len - rightLen
    let (rem', p, buf') := packChunks code rem rem 1 (orBuf buf 0 (code >>> rem))
    (orBuf buf' p (code <<< (8 - rem')), p)

/-- PACK (R152): NO_CODE for a symbol without a code (R151); else BUF and SUB_INDEX are written, the
finalized bytes go to OUT, and the closing writes follow. -/
def execPack (sym : Byte) (s : State) : Host.Outcome State Fault Refusal :=
  inPhase .pack (.pack sym) s <|
    let len := (s.eng.codeLenOf sym).toNat
    let code := (s.eng.codeOf sym).toNat
    if len = 0 then .next (raiseError .noCode (encode (.pack sym)) s)
    else
      let (buf, filled) := packBits s.eng.subIndex.toNat len code s.eng.buf
      let e := { s.eng with
        buf := buf, subIndex := BitVec.ofNat 3 ((s.eng.subIndex.toNat + len) % 8) }
      .next (pushAll (buf.toList.take filled) (.pack filled len) (s.withEng e))

/-- Whether FINISH flushes the trailing partial byte (R7, R158). -/
def flushes (policy : FlushPolicy) (e : Engine) : Bool :=
  match policy with
  | .pending => e.subIndex != 0#3
  | .nonzero => e.buf[0] != 0#8

/-- FINISH (R158): LENGTH_MISMATCH when PACKED_BITS and TOTAL_BITS differ; else the flush by policy,
then OUT_COUNT and PHASE. -/
def execFinish (s : State) : Host.Outcome State Fault Refusal :=
  inPhase .pack .finish s <|
    if s.eng.packedBits ≠ s.eng.totalBits then
      .next (raiseError .lengthMismatch (encode .finish) s)
    else if flushes s.build.flushPolicy s.eng then .next (pushAll [s.eng.buf[0]] (.finish 1) s)
    else .next (pushAll [] (.finish 0) s)

end Sys2Proof.Machine
end

