-- ==== Sys2Proof/Machine/Serializer.lean ====
section
/-! DEFINITION. The tree serializer and the header: EMIT_HEADER (R140 to R146). -/

namespace Sys2Proof.Machine

/-- `Ser(i)` (R140): a leaf is its symbol byte, unescaped (R143); an internal node is its two sides in
brackets with one space between. `depth` bounds the nodes of one path as in `walk` (log entry 9). -/
def serialize (nodes : Vector Node 511) : (depth : Nat) → BitVec 9 → Except Fault (List Byte)
  | 0, _ => .error .endlessWalk
  | depth + 1, i =>
    match nodeAt nodes i with
    | none => .error .noSuchNode
    | some n =>
      if n.internal then
        match serialize nodes depth n.left with
        | .error f => .error f
        | .ok l =>
          match serialize nodes depth n.right with
          | .error f => .error f
          | .ok r => .ok ([Config.charOpen] ++ l ++ [Config.charSpace] ++ r ++ [Config.charClose])
      else .ok [n.sym]

/-- Line 2 without its LF: the one-element list of a single leaf (R142), or Ser(ROOT) (R141). -/
def treeText (e : Engine) : Except Fault (List Byte) :=
  if e.single then
    match nodeAt e.nodes e.root with
    | none => .error .noSuchNode
    | some n => .ok [Config.charOpen, n.sym, Config.charClose]
  else serialize e.nodes Config.maxNodes e.root

/-- The bytes after the tree text: LF, one ASCII digit for PADDING, LF (R141, R146). -/
def headerTail (padding : BitVec 3) : List Byte :=
  [Config.charLF, BitVec.ofNat 8 (Config.charZero + padding.toNat), Config.charLF]

/-- EMIT_HEADER (R141): line 2 and line 3 go to OUT, then HDR_LEN, OUT_COUNT and PHASE. -/
def execEmitHeader (s : State) : Host.Outcome State Fault Refusal :=
  inPhase .codes .emitHeader s <|
    match treeText s.eng with
    | .error f => .fault f
    | .ok text => .next (pushAll (text ++ headerTail s.eng.padding) (.header text.length) s)

end Sys2Proof.Machine
end

