-- ==== Sys2Proof/Machine/Tree.lean ====
section
/-! DEFINITION. The tree builder: BUILD_TREE (R110 to R120). -/

namespace Sys2Proof.Machine

/-- The builder's working state: the node store, the queue and `k`, the next free entry (R115). -/
structure Forge where
  nodes : Vector Node 511
  q : List NodeIx
  k : Nat
deriving DecidableEq, Repr

/-- `NODE[k] <- n; Q.insert(k); k <- k + 1` (R115). No build makes more than 511 nodes, so the bound
never fails. -/
def Forge.add (f : Forge) (n : Node) : Forge :=
  if h : f.k < 511 then
    let nodes := f.nodes.set f.k n
    { nodes := nodes, q := qInsert nodes ⟨f.k, h⟩ f.q, k := f.k + 1 }
  else f

/-- The leaf of a symbol (R26, R115). -/
def leafNode (sym : Byte) (count : BitVec 32) : Node :=
  { valid := true, internal := false, sym := sym, weight := count, left := 0#9, right := 0#9 }

/-- The node that merges `a`, removed first, as LEFT and `b` as RIGHT (R115, R116). The 32-bit sum
never wraps in a run (R119). -/
def mergedNode (draw : Nat) (nodes : Vector Node 511) (a b : NodeIx) : Node :=
  { valid := true
    internal := true
    sym := 0#8
    weight := narrow .weight draw 32 (weightOf nodes a + weightOf nodes b)
    left := BitVec.ofNat 9 a.val
    right := BitVec.ofNat 9 b.val }

/-- The leaf of `s`, inserted exactly when FREQ[s] is not 0 (R114). -/
def Forge.addLeaf (freq : Vector (BitVec 32) 256) (f : Forge) (s : Byte) : Forge :=
  if symAt freq s = 0#32 then f else f.add (leafNode s (symAt freq s))

/-- The leaves in ascending symbol order, from an empty queue (R114, R115). -/
def plantLeaves (nodes : Vector Node 511) (freq : Vector (BitVec 32) 256) : Forge :=
  symbols.foldl (Forge.addLeaf freq) { nodes := nodes, q := [], k := 0 }

/-- The merge loop of R115, with a bound on its passes: each pass lowers |Q| by one (R120). -/
def mergeLoop (draw : Nat) : Nat → Forge → Forge
  | 0, f => f
  | passes + 1, f =>
    match qRemoveMin f.q with
    | none => f
    | some (a, q₁) =>
      match qRemoveMin q₁ with
      | none => f
      | some (b, q₂) =>
        mergeLoop draw passes ({ f with q := q₂ }.add (mergedNode draw f.nodes a b))

/-- The whole build: leaves, then merges until one entry remains (R115). -/
def forgeTree (draw : Nat) (nodes : Vector Node 511) (freq : Vector (BitVec 32) 256) : Forge :=
  let f := plantLeaves nodes freq
  mergeLoop draw f.q.length f

/-- The writes of BUILD_TREE once the forge stands with `x` at the head of its queue (R115, R117). -/
def plantTree (f : Forge) (x : NodeIx) (e : Engine) : Engine :=
  { e with
    nodes := f.nodes
    root := BitVec.ofNat 9 x.val
    q := []
    nnodes := BitVec.ofNat 10 f.k
    single := e.nsym == 1#9
    phase := .tree }

/-- BUILD_TREE (R115): EMPTY_INPUT when NSYM is 0 (R103). -/
def execBuildTree (s : State) : Host.Outcome State Fault Refusal :=
  inPhase .count .buildTree s <|
    if s.eng.nsym = 0#9 then .next (raiseError .emptyInput (encode .buildTree) s)
    else
      let f := forgeTree s.draw s.eng.nodes s.eng.freq
      match qPeekMin f.q with
      | none => .fault .emptyQueue
      | some x => .next (s.withEng (plantTree f x s.eng))

end Sys2Proof.Machine
end

