-- ==== Sys2Proof/Machine/Dispatch.lean ====
section
/-! DEFINITION. One arm per command. -/

namespace Sys2Proof.Machine

def exec (i : Instr) (s : State) : Host.Outcome State Fault Refusal :=
  match i with
  | .nop => Sys2Proof.Machine.execNop s
  | .clear => Sys2Proof.Machine.execClear s
  | .freqInc sym => Sys2Proof.Machine.execFreqInc sym s
  | .buildTree => Sys2Proof.Machine.execBuildTree s
  | .buildCodes => Sys2Proof.Machine.execBuildCodes s
  | .emitHeader => Sys2Proof.Machine.execEmitHeader s
  | .pack sym => Sys2Proof.Machine.execPack sym s
  | .finish => Sys2Proof.Machine.execFinish s

end Sys2Proof.Machine
end

