-- ==== Sys2Proof/Machine/Registers.lean ====
section
/-! DEFINITION. The register read port's address map (R27, R28) and the registers field by field (R30
to R51). Every register is read-only (R29) and a read changes no state (R27). -/

namespace Sys2Proof.Machine

/-- The address of STATUS (R28). -/
def statusAddr : Addr := 0x0002#16

/-- FLUSH_POLICY in PARAM[8] (R31). -/
def policyBit : FlushPolicy → BitVec 1
  | .pending => 0#1
  | .nonzero => 1#1

/-- PARAM: CODE_MAX, BUF_BYTES, reserved, FLUSH_POLICY, COUNT_W (R31). -/
def paramWord (b : Build) : Word :=
  BitVec.ofNat 8 Config.codeMax ++ BitVec.ofNat 8 Config.bufBytes ++ 0#7 ++ policyBit b.flushPolicy
    ++ BitVec.ofNat 8 Config.countW

/-- A value in the low bits of a register; the bits above it read 0 (R27). -/
def lowBits {w : Nat} (v : BitVec w) : Word := v.setWidth 32

/-- Word `k` of a value wider than 32 bits: word 0 is the least significant (R64). -/
def wordOf {w : Nat} (v : BitVec w) (k : Nat) : Word := v.extractLsb' (32 * k) 32

/-- NODE_INFO: VALID [31], INTERNAL [30], SYM [25:18], RIGHT [17:9], LEFT [8:0] (R51). -/
def nodeInfo (n : Node) : Word :=
  BitVec.ofBool n.valid ++ BitVec.ofBool n.internal ++ 0#4 ++ n.sym ++ n.right ++ n.left

/-- NODE_WEIGHT and NODE_INFO of entry `i` at the even and the odd address (R51). -/
def nodeWord (e : Engine) (k : Nat) : Word :=
  match e.nodes[k / 2]? with
  | none => 0#32
  | some n => if k % 2 = 0 then n.weight else nodeInfo n

/-- The named registers, 0x0000 to 0x0013; every other address of the range reads 0 (R28). -/
def namedRegister (b : Build) (e : Engine) (a : Nat) : Word :=
  match a with
  | 0x00 => Config.idValue
  | 0x01 => paramWord b
  | 0x02 => statusWord e
  | 0x03 => lowBits e.errCode.toBits
  | 0x04 => e.errCmd
  | 0x05 => lowBits e.nsym
  | 0x06 => e.totalCount
  | 0x07 => lowBits e.nnodes
  | 0x08 => lowBits e.root
  | 0x09 => wordOf e.totalBits 0
  | 0x0A => wordOf e.totalBits 1
  | 0x0B => lowBits e.padding
  | 0x0C => lowBits e.hdrLen
  | 0x0D => lowBits e.subIndex
  | 0x0E => lowBits (e.buf[0])
  | 0x0F => lowBits e.lastFilled
  | 0x10 => wordOf e.packedBits 0
  | 0x11 => wordOf e.packedBits 1
  | 0x12 => wordOf e.outCount 0
  | 0x13 => wordOf e.outCount 1
  | _ => 0#32

/-- `RegRead(a)` while BUSY = 0: the register map of R28. -/
def regRead (b : Build) (e : Engine) (a : Addr) : Word :=
  let n := a.toNat
  if n < 0x0100 then namedRegister b e n
  else if n < 0x0200 then e.freqOf (BitVec.ofNat 8 (n - 0x0100))
  else if n < 0x0300 then lowBits (e.codeLenOf (BitVec.ofNat 8 (n - 0x0200)))
  else if n < 0x0800 then 0#32
  else if n < 0x1000 then wordOf (e.codeOf (BitVec.ofNat 8 ((n - 0x0800) / 8))) ((n - 0x0800) % 8)
  else if n < 0x13FE then nodeWord e (n - 0x1000)
  else 0#32

/-- What the read port returns to the host: STATUS is always exact (R32); any other address is exact
once the host has seen BUSY = 0 since its last command, and a free value before (R27, R210, log entry
5). DESIGN CHOICE: that holds of the addresses the map does not name too. R27 and R68 say that such an
address reads 0, and R27 also that a read is defined only while BUSY = 0; the model takes the wider of
the two, a free value before BUSY = 0 is seen and 0 from then on (log entry 5). Safe. -/
def portRead (s : State) (a : Addr) : Word :=
  if a = statusAddr then statusWord s.eng
  else if s.host.sawIdle && !s.eng.busy then regRead s.build s.eng a
  else Config.freeRead s.draw

end Sys2Proof.Machine
end

