-- ==== Sys2Proof/Machine/Ports.lean ====
section
/-! DEFINITION. The moves of the two agents over the four ports of R23: the engine accepts and
executes a command, or goes on with one that waits (R24, R198); the host offers a word, reads a
register, takes a byte, or drives `rst_n` (R24, R27, R50, R200). -/

namespace Sys2Proof.Machine

/-- Execute one accepted command word: the decoded command (R84), or the illegal word (R85). -/
def execWord (w : Word) (s : State) : Host.Outcome State Fault Refusal :=
  match decode w with
  | .cmd i => exec i s
  | .illegal _ => illegalWord w s

/-- `cmd_ready`: no command is in flight and `rst_n` is released (R24, R200, R201). -/
def cmdReady (s : State) : Bool := !s.host.inReset && !s.eng.busy

/-- `out_valid`: OUT holds a byte (R23, R50). -/
def outValid (s : State) : Bool := s.eng.outAvail

/-- The engine takes the oldest offered word from the port (R24). The host has a new last command, and
has not seen BUSY = 0 since it (R210). -/
def acceptWord (rest : List Word) (s : State) : State :=
  s.withHost { s.host with port := rest, sawIdle := false }

/-- The waiting command goes on pushing where OUT has room (R198). -/
def resume (f : InFlight) (s : State) : State := pushAll f.rest f.closing s

/-- The engine's turn. In reset it does nothing and accepts nothing (R200); with a command in flight it
goes on with that one (R24, R211); else it accepts and executes the oldest offered word (R24), or
idles (R197). -/
def engineTurn (s : State) : Host.Outcome State Fault Refusal :=
  if s.host.inReset then .next s
  else
    match s.eng.inflight with
    | some f => .next (resume f s)
    | none =>
      match s.host.port with
      | [] => .next s
      | w :: rest => execWord w (acceptWord rest s)

/-- The host offers a command word: it waits at the port (R24, R212). -/
def offerWord (w : Word) (s : State) : State :=
  s.withHost { s.host with port := s.host.port ++ [w] }

/-- The host reads a register (R27); a STATUS read that shows BUSY = 0 tells it so (R71, R210). -/
def readRegister (a : Addr) (s : State) : State :=
  s.withHost { s.host with
    reads := s.host.reads ++ [(a, portRead s a)]
    sawIdle := s.host.sawIdle || (a == statusAddr && !s.eng.busy) }

/-- The host takes the head byte of OUT; with OUT empty no transfer happens (R50, R67, log entry 10). -/
def takeByte (s : State) : State :=
  match s.eng.out with
  | [] => s
  | b :: rest =>
    (s.withEng { s.eng with out := rest }).withHost { s.host with taken := s.host.taken ++ [b] }

/-- `rst_n` goes low: every state element takes its reset value, and a command that was executing is
abandoned (R200). -/
def resetLow (s : State) : State :=
  (clearEngine s).withHost { s.host with inReset := true, sawIdle := true }

/-- `rst_n` is released: the state elements are at their reset values (R200, R201). -/
def resetHigh (s : State) : State :=
  (if s.host.inReset then clearEngine s else s).withHost { s.host with inReset := false }

/-- One move. -/
def move (ev : Event) (s : State) : Host.Outcome State Fault Refusal :=
  match ev with
  | .engine => engineTurn s
  | .offer w => .next (offerWord w s)
  | .read a => .next (readRegister a s)
  | .take => .next (takeByte s)
  | .resetLow => .next (resetLow s)
  | .resetHigh => .next (resetHigh s)

/-- The next move of the schedule; a host with nothing left to do leaves the move to the engine (log
entry 3). -/
def nextMove (s : State) : Host.Outcome State Fault Refusal :=
  match s.host.events with
  | [] => engineTurn s
  | ev :: rest => move ev (s.withHost { s.host with events := rest })

/-- Put a command word where the engine takes its next one: at the head of the command port, with the
engine's turn next, no command in flight and `rst_n` released (log entry 4). -/
def placeWord (w : Word) (s : State) : State :=
  (s.withEng { s.eng with inflight := none }).withHost { s.host with
    port := w :: s.host.port, events := .engine :: s.host.events, inReset := false }

end Sys2Proof.Machine
end

