-- ==== Sys2Proof/Machine/Assembler.lean ====
section
/-! DEFINITION. The text forms of the spec: the assembler's line form (R89, log entry 12) and the
pseudo-commands (R90). They make command words and do not touch the machine. -/

namespace Sys2Proof.Machine

/-- Why a line does not assemble (log entry 12). -/
inductive AsmError where
  | unknownMnemonic | operandMissing | operandUnexpected | badOperand | trailingText
deriving DecidableEq, Repr

/-- What a mnemonic names: a command without an operand, or one that takes a symbol (R83, R89). -/
inductive Mnemonic where
  | bare (i : Instr)
  | freqInc
  | pack
deriving DecidableEq, Repr

/-- The mnemonics of R83, in upper case (R89). -/
def mnemonicOf (name : List Char) : Option Mnemonic :=
  if name = "NOP".toList then some (.bare .nop)
  else if name = "CLEAR".toList then some (.bare .clear)
  else if name = "FREQ_INC".toList then some .freqInc
  else if name = "BUILD_TREE".toList then some (.bare .buildTree)
  else if name = "BUILD_CODES".toList then some (.bare .buildCodes)
  else if name = "EMIT_HEADER".toList then some (.bare .emitHeader)
  else if name = "PACK".toList then some .pack
  else if name = "FINISH".toList then some (.bare .finish)
  else none

/-- A space or a tab. -/
def isBlank (c : Char) : Bool := c.toNat == 0x20 || c.toNat == 0x09

/-- The rest of a line ends it: nothing more, or a comment from `;` (R89). -/
def endsLine (cs : List Char) : Bool :=
  match cs.dropWhile isBlank with
  | [] => true
  | c :: _ => c.toNat == 0x3B

/-- A letter of a mnemonic. -/
def isNameChar (c : Char) : Bool := (0x41 ≤ c.toNat && c.toNat ≤ 0x5A) || c.toNat == 0x5F

/-- The value of a digit in base 16, in either case. -/
def hexDigit (c : Char) : Option Nat :=
  let n := c.toNat
  if 0x30 ≤ n && n ≤ 0x39 then some (n - 0x30)
  else if 0x41 ≤ n && n ≤ 0x46 then some (n - 0x41 + 10)
  else if 0x61 ≤ n && n ≤ 0x66 then some (n - 0x61 + 10)
  else none

/-- The value of the digits `cs` in a base, most significant first, from `acc`. -/
def digitsValue (base : Nat) : (acc : Nat) → List Char → Option Nat
  | acc, [] => some acc
  | acc, c :: cs =>
    match hexDigit c with
    | none => none
    | some d => if d < base then digitsValue base (base * acc + d) cs else none

/-- A number: decimal digits, or `0x` and hexadecimal digits (R89). -/
def numberValue (cs : List Char) : Option Nat :=
  match cs with
  | [] => none
  | c :: d :: e :: rest =>
    if c.toNat = 0x30 && d.toNat = 0x78 then digitsValue 16 0 (e :: rest) else digitsValue 10 0 cs
  | _ => digitsValue 10 0 cs

/-- A character that may stand in a number. -/
def isNumberChar (c : Char) : Bool := (hexDigit c).isSome || c.toNat == 0x78

/-- The symbol at the head of `cs` and the text after it: a quoted character, which means its ASCII
code, or a number up to 255 (R89). -/
def symbolOperand (cs : List Char) : Option (Byte × List Char) :=
  match cs with
  | [] => none
  | c :: rest =>
    if c.toNat = 0x27 then
      match rest with
      | x :: close :: rest' =>
        if close.toNat = 0x27 && x.toNat < 128 then some (BitVec.ofNat 8 x.toNat, rest') else none
      | _ => none
    else
      match numberValue (cs.takeWhile isNumberChar) with
      | none => none
      | some n =>
        if n < 256 then some (BitVec.ofNat 8 n, cs.dropWhile isNumberChar) else none

/-- The operand part of a line for a mnemonic. -/
def assembleOperand (m : Mnemonic) (cs : List Char) : Except AsmError Instr :=
  match m with
  | .bare i => if endsLine cs then .ok i else .error .operandUnexpected
  | .freqInc => withSymbol .freqInc
  | .pack => withSymbol .pack
where
  /-- One symbol, then the end of the line. -/
  withSymbol (make : Byte → Instr) : Except AsmError Instr :=
    if endsLine cs then .error .operandMissing
    else
      match symbolOperand (cs.dropWhile isBlank) with
      | none => .error .badOperand
      | some (sym, rest) => if endsLine rest then .ok (make sym) else .error .trailingText

/-- One line of assembler text: a command, or nothing on an empty or comment line (R89). -/
def parseLine (cs : List Char) : Except AsmError (Option Instr) :=
  let body := cs.dropWhile isBlank
  if endsLine body then .ok none
  else
    match mnemonicOf (body.takeWhile isNameChar) with
    | none => .error .unknownMnemonic
    | some m =>
      match assembleOperand m (body.dropWhile isNameChar) with
      | .error e => .error e
      | .ok i => .ok (some i)

/-- The words of assembler text given line by line: `(op << 24) | sym` for each command (R89). -/
def assemble : List (List Char) → Except AsmError (List Word)
  | [] => .ok []
  | line :: rest =>
    match parseLine line with
    | .error e => .error e
    | .ok none => assemble rest
    | .ok (some i) =>
      match assemble rest with
      | .error e => .error e
      | .ok ws => .ok (encode i :: ws)

/-- `COUNT_STRING S` (R90). -/
def countString (str : List Byte) : List Instr := str.map .freqInc

/-- `PACK_STRING S` (R90). -/
def packString (str : List Byte) : List Instr := str.map .pack

/-- `COMPRESS S` (R90), the run protocol of R204. -/
def compress (str : List Byte) : List Instr :=
  [.clear] ++ countString str ++ [.buildTree, .buildCodes, .emitHeader] ++ packString str ++ [.finish]

end Sys2Proof.Machine
end

