-- ==== Sys2Proof/Safety.lean ====
section
/-! DEFINITION. The terms in which claims about the machine are stated: legality (R88), the invariants
between commands (R57), trees, codes and serializations as the rules describe them, room in OUT, and
the end of a run (R208). -/

namespace Sys2Proof.Machine

/-! ### Legality and errors -/

/-- The cells of the table of R88 that say "ok", ERROR's column included. -/
def legalIn : Instr → Phase → Bool
  | .nop, .error => false
  | .nop, _ => true
  | .clear, _ => true
  | .freqInc _, .count => true
  | .buildTree, .count => true
  | .buildCodes, .tree => true
  | .emitHeader, .codes => true
  | .pack _, .pack => true
  | .finish, .pack => true
  | .freqInc _, _ => false
  | .buildTree, _ => false
  | .buildCodes, _ => false
  | .emitHeader, _ => false
  | .pack _, _ => false
  | .finish, _ => false

/-- The table of R182: which errors a command can raise. -/
def errorsOf : Instr → List ErrCode
  | .nop => []
  | .clear => []
  | .freqInc _ => [.sequenceError, .countOverflow]
  | .buildTree => [.sequenceError, .emptyInput]
  | .buildCodes => [.sequenceError]
  | .emitHeader => [.sequenceError]
  | .pack _ => [.sequenceError, .noCode]
  | .finish => [.sequenceError, .lengthMismatch]

/-! ### Counting -/

/-- The sum of FREQ[s] over all symbols. -/
def countSum (freq : Vector (BitVec 32) 256) : Nat := (symbols.map fun s => (symAt freq s).toNat).sum

/-- The symbols that are present, in ascending order (R25, R114). -/
def presentSymbols (freq : Vector (BitVec 32) 256) : List Byte :=
  symbols.filter fun s => symAt freq s != 0#32

/-- R57, item 1. -/
structure Counted (e : Engine) : Prop where
  total : e.totalCount.toNat = countSum e.freq
  nsym : e.nsym.toNat = (presentSymbols e.freq).length

/-! ### Trees -/

/-- A node store whose entries are all empty (R26). -/
def emptyNodes : Vector Node 511 := Vector.replicate 511 Node.empty

/-- The children of entry `i`, LEFT then RIGHT; none for a leaf. -/
def linksAt (nodes : Vector Node 511) (i : Nat) : List Nat :=
  match nodes[i]? with
  | none => []
  | some n => if n.internal then [n.left.toNat, n.right.toNat] else []

/-- The child links of the internal nodes among the first `k` entries. -/
def childLinks (nodes : Vector Node 511) (k : Nat) : List Nat := (List.range k).flatMap (linksAt nodes)

/-- `PathTo nodes i bits j`: from node `i` the bits lead to node `j`, 0 (false) to LEFT and 1 (true)
to RIGHT (R130). -/
inductive PathTo (nodes : Vector Node 511) : BitVec 9 → List Bool → BitVec 9 → Prop where
  | here (i : BitVec 9) : PathTo nodes i [] i
  | left {i j : BitVec 9} {n : Node} {bits : List Bool} :
      nodeAt nodes i = some n → n.internal = true → PathTo nodes n.left bits j →
      PathTo nodes i (false :: bits) j
  | right {i j : BitVec 9} {n : Node} {bits : List Bool} :
      nodeAt nodes i = some n → n.internal = true → PathTo nodes n.right bits j →
      PathTo nodes i (true :: bits) j

/-- `SerText nodes i text`: `text` is Ser(i) by the grammar of R140. -/
inductive SerText (nodes : Vector Node 511) : BitVec 9 → List Byte → Prop where
  | leaf {i : BitVec 9} {n : Node} :
      nodeAt nodes i = some n → n.internal = false → SerText nodes i [n.sym]
  | node {i : BitVec 9} {n : Node} {l r : List Byte} :
      nodeAt nodes i = some n → n.internal = true → SerText nodes n.left l →
      SerText nodes n.right r → SerText nodes i ([0x28#8] ++ l ++ [0x20#8] ++ r ++ [0x29#8])

/-- The engine's tree is the one BUILD_TREE makes of FREQ, which is read-only since (R104, R115). -/
def BuiltFrom (e : Engine) : Prop :=
  ∃ (draw : Nat) (x : NodeIx),
    qPeekMin (forgeTree draw emptyNodes e.freq).q = some x ∧
    e.nodes = (forgeTree draw emptyNodes e.freq).nodes ∧
    e.root = BitVec.ofNat 9 x.val ∧
    e.nnodes = BitVec.ofNat 10 (forgeTree draw emptyNodes e.freq).k ∧
    e.single = (e.nsym == 1#9) ∧ e.nsym ≠ 0#9

/-! ### Codes and bits -/

/-- The `len` low bits of `v`, most significant first: the code `c1 .. cL` with `val(c) = v` (R9). -/
def codeBits (len v : Nat) : List Bool := (List.range len).map fun i => v.testBit (len - 1 - i)

/-- The bits of a byte of OUT in payload order (R62). -/
def byteBits (b : Byte) : List Bool := codeBits 8 b.toNat

/-- The code of a symbol as a bit string (R9, R49). -/
def codeString (e : Engine) (s : Byte) : List Bool :=
  codeBits (e.codeLenOf s).toNat (e.codeOf s).toNat

/-- The pending bits: the top SUB_INDEX bits of BUF[0] (R43, R155). -/
def pendingBits (e : Engine) : List Bool := (byteBits e.buf[0]).take e.subIndex.toNat

/-- The engine's code tables, TOTAL_BITS and PADDING are the ones BUILD_CODES makes of its tree (R130
to R133). -/
def CodedFrom (e : Engine) : Prop :=
  ∃ (draw : Nat) (t : CodeTable),
    codeTable draw e = .ok t ∧ e.codeLen = t.len ∧ e.code = t.code ∧
    e.totalBits = BitVec.ofNat 64 (totalBitsOf e.freq t.len) ∧
    e.padding = BitVec.ofNat 3 (paddingOf (totalBitsOf e.freq t.len))

/-! ### The packer -/

/-- Bits [7 - SUB_INDEX : 0] of a partial byte are 0 (R57 item 4, R155). -/
def FreeBitsClear (b : Byte) (sub : BitVec 3) : Prop := b.toNat % 2 ^ (8 - sub.toNat) = 0

/-- BUF[1..33] = 0. -/
def TailClear (buf : Vector Byte 34) : Prop := ∀ i, 1 ≤ i → i < 34 → buf[i]?.getD 0#8 = 0#8

/-- R57, item 4. -/
def BufBetween (e : Engine) : Prop := TailClear e.buf ∧ FreeBitsClear e.buf[0] e.subIndex

/-- What holds of BUF and PHASE while a command waits on a full OUT, for what it still has to write. -/
def WaitsWell (e : Engine) (f : InFlight) : Prop :=
  match f.closing with
  | .header _ => e.phase = .codes ∧ BufBetween e
  | .pack filled _ => e.phase = .pack ∧ FreeBitsClear (e.buf[filled]?.getD 0#8) e.subIndex
  | .finish _ => e.phase = .pack ∧ BufBetween e

/-! ### Room in OUT -/

/-- OUT can take `n` bytes without a wait (R50, R198). -/
def RoomFor (s : State) (n : Nat) : Prop :=
  ∀ d, s.build.outDepth = some d → s.eng.out.length + n ≤ d.entries

/-! ### Invariants -/

/-- What a phase says of the tree and the code tables. An error leaves the tree as it stood (R186). -/
def TablesIn (e : Engine) : Phase → Prop
  | .count => e.nodes = emptyNodes
  | .tree => BuiltFrom e
  | .codes => BuiltFrom e ∧ CodedFrom e
  | .pack => BuiltFrom e ∧ CodedFrom e
  | .done => BuiltFrom e ∧ CodedFrom e
  | .error => e.nodes = emptyNodes ∨ BuiltFrom e

/-- The invariant that every step keeps: R57 in a form that a step carries on, with the bound of R136,
the waits of R198, the error record of R185, the depth of OUT of R50, and the reset state while `rst_n`
is low (R200). -/
structure Inv (s : State) : Prop where
  counted : Counted s.eng
  tables : TablesIn s.eng s.eng.phase
  totalBound : s.eng.totalBits.toNat ≤ s.eng.totalCount.toNat * 255
  queueEmpty : s.eng.q = []
  errorRecorded : s.eng.phase = .error ↔ s.eng.errCode ≠ .none
  noErrorNoWord : s.eng.errCode = .none → s.eng.errCmd = 0#32
  idleBuf : s.eng.inflight = none → BufBetween s.eng
  waits : ∀ f, s.eng.inflight = some f → WaitsWell s.eng f
  busyUnseen : s.eng.inflight ≠ none → s.host.sawIdle = false
  outFits : ∀ d, s.build.outDepth = some d → s.eng.out.length ≤ d.entries
  resetHolds : s.host.inReset = true → s.eng = Engine.reset

/-- R57 as the spec states it, item by item, for a state between two commands. -/
structure Between (e : Engine) : Prop where
  /-- Item 1. -/
  counts : e.totalCount.toNat = countSum e.freq ∧ e.nsym.toNat = (presentSymbols e.freq).length
  /-- Item 2: NNODES, the valid entries, the leaves in ascending SYM order, the root's weight. -/
  tree : e.phase = .tree ∨ e.phase = .codes ∨ e.phase = .pack ∨ e.phase = .done →
    e.nnodes.toNat = 2 * e.nsym.toNat - 1 ∧
    (∀ (i : Nat) (h : i < 511), (e.nodes[i].valid = true ↔ i < e.nnodes.toNat)) ∧
    (∀ (i : Nat) (h : i < 511), i < e.nnodes.toNat →
      (e.nodes[i].internal = false ↔ i < e.nsym.toNat)) ∧
    (∀ (i : Nat) (h : i < 511), i < e.nsym.toNat →
      (presentSymbols e.freq)[i]? = some e.nodes[i].sym) ∧
    (∃ n, nodeAt e.nodes e.root = some n ∧ n.weight = e.totalCount)
  /-- Item 3. -/
  codes : e.phase = .codes ∨ e.phase = .pack ∨ e.phase = .done →
    (∀ s, e.codeLenOf s ≠ 0#8 ↔ e.freqOf s ≠ 0#32) ∧
    e.totalBits.toNat = totalBitsOf e.freq e.codeLen ∧
    (e.totalBits.toNat + e.padding.toNat) % 8 = 0
  /-- Item 4. -/
  buffer : TailClear e.buf ∧ FreeBitsClear e.buf[0] e.subIndex
  /-- Item 5. -/
  errors : (e.err = true ↔ e.phase = .error) ∧ (e.err = true → e.errCode.toBits ≠ 0#8)

/-- The payload count of a run in phase PACK: the header's bytes and one byte for each 8 packed bits
are pushed, and the rest are pending (R145, R157). -/
structure PayloadCount (e : Engine) : Prop where
  pushed : e.outCount.toNat = e.hdrLen.toNat + 3 + e.packedBits.toNat / 8
  pending : e.subIndex.toNat = e.packedBits.toNat % 8

/-! ### The end of a run -/

/-- R208: a run ends well. -/
def RunEndsWell (s : State) : Prop :=
  s.eng.busy = false ∧ s.eng.phase = .done ∧ s.eng.outAvail = false ∧ s.eng.errCode = .none

/-- R208: a run ends badly. -/
def RunEndsBadly (s : State) : Prop := s.eng.phase = .error

/-- The bytes of the container that come from the engine: those taken since the run's CLEAR or reset
(R208), which are the last OUT_COUNT - |OUT| of the bytes taken (log entry 14). -/
def runBytes (s : State) : List Byte :=
  s.host.taken.drop (s.host.taken.length - (s.eng.outCount.toNat - s.eng.out.length))

end Sys2Proof.Machine
end

