-- ==== Sys2Proof/Certificates/Slice0/Obligations.lean ====
section
/-! DEFINITION. The statements about the machine, from the spec's numbered rules. -/

open Sys2Proof Sys2Proof.Machine

/-! ### Decoding -/

/-- R83, R84: each of the eight commands has exactly the word of its row, and every other word is
illegal: decoding and encoding agree in both directions. -/
def Obligations.DecodeAndEncodeAgree : Prop :=
  ∀ (w : Word) (i : Instr), decode w = .cmd i ↔ w = encode i

/-- R85: the three kinds of illegal word, and what executing one does. -/
def Obligations.IllegalWordsRaise : Prop :=
  ∀ w : Word,
    ((∃ why, decode w = .illegal why) ↔
      (8 ≤ (w.extractLsb' 24 8).toNat ∨ w.extractLsb' 8 16 ≠ 0#16 ∨
        (w.extractLsb' 0 8 ≠ 0#8 ∧ w.extractLsb' 24 8 ≠ 0x02#8 ∧ w.extractLsb' 24 8 ≠ 0x06#8))) ∧
    ((∃ why, decode w = .illegal why) → ∀ s : State,
      (s.eng.phase ≠ .error → execWord w s = .next { s with eng := { s.eng with
        errCode := .illegalCommand, errCmd := w, phase := .error } }) ∧
      (s.eng.phase = .error → execWord w s = .next s))

/-- R91: the encoding examples. -/
def Obligations.EncodingExamples : Prop :=
  decode 0x00000000#32 = .cmd .nop ∧ decode 0x01000000#32 = .cmd .clear ∧
  decode 0x02000061#32 = .cmd (.freqInc 0x61#8) ∧ decode 0x02000000#32 = .cmd (.freqInc 0x00#8) ∧
  decode 0x03000000#32 = .cmd .buildTree ∧ decode 0x04000000#32 = .cmd .buildCodes ∧
  decode 0x05000000#32 = .cmd .emitHeader ∧ decode 0x0600007A#32 = .cmd (.pack 0x7A#8) ∧
  decode 0x07000000#32 = .cmd .finish ∧
  (∀ w ∈ [0x08000000#32, 0x02000161#32, 0x07000001#32], ∀ i, decode w ≠ .cmd i)

/-- R82: a word with a reserved bit set is no command, whatever its opcode. -/
def Obligations.ReservedBitsAreIllegal : Prop :=
  ∀ w : Word, (∃ k, 8 ≤ k ∧ k < 24 ∧ w.getLsbD k = true) → ∀ i, decode w ≠ .cmd i

/-- R81: the operand of FREQ_INC and PACK is the word's low byte, used as is; every other command's
low byte is 0. -/
def Obligations.OperandIsLowByte : Prop :=
  ∀ (w : Word) (i : Instr), decode w = .cmd i →
    (∀ sym, i = .freqInc sym ∨ i = .pack sym → sym.toNat = w.toNat % 256) ∧
    ((∀ sym, i ≠ .freqInc sym ∧ i ≠ .pack sym) → w.toNat % 256 = 0)

/-! ### Phases and errors -/

/-- R88: the table of phase legality: ignored, SEQUENCE_ERROR with no other effect, or the command's
own rule; an illegal word is ILLEGAL_COMMAND outside ERROR. -/
def Obligations.PhaseLegalityTable : Prop :=
  ∀ (i : Instr) (s : State),
    (s.eng.phase = .error → i ≠ .clear → exec i s = .next s) ∧
    (s.eng.phase ≠ .error → legalIn i s.eng.phase = false →
      exec i s = .next { s with eng := { s.eng with
        errCode := .sequenceError, errCmd := encode i, phase := .error } }) ∧
    (s.eng.phase ≠ .error → s.eng.errCode ≠ .sequenceError → legalIn i s.eng.phase = true →
      ∀ t, exec i s = .next t → t.eng.errCode ≠ .sequenceError) ∧
    (∀ w why, decode w = .illegal why → s.eng.phase ≠ .error →
      ∃ t, execWord w s = .next t ∧ t.eng.errCode = .illegalCommand)

/-- R184: one error per word, the first that applies: ERROR ignores, then ILLEGAL_COMMAND, then
SEQUENCE_ERROR, then the command's own check. -/
def Obligations.ErrorPriority : Prop :=
  ∀ (w : Word) (s : State),
    (s.eng.phase = .error → w ≠ 0x01000000#32 → execWord w s = .next s) ∧
    (s.eng.phase ≠ .error → ∀ why, decode w = .illegal why →
      execWord w s = .next (raiseError .illegalCommand w s)) ∧
    (s.eng.phase ≠ .error → ∀ i, decode w = .cmd i → legalIn i s.eng.phase = false →
      execWord w s = .next (raiseError .sequenceError w s)) ∧
    (s.eng.phase ≠ .error → ∀ i, decode w = .cmd i → legalIn i s.eng.phase = true →
      ∀ t, execWord w s = .next t → t.eng.phase = .error →
        ∃ c ∈ errorsOf i, c ≠ .sequenceError ∧ t = raiseError c w s)

/-- R185: error entry writes ERR_CODE, ERR_CMD and PHASE, and nothing else. -/
def Obligations.ErrorEntryWrites : Prop :=
  ∀ (c : ErrCode) (w : Word) (s : State),
    raiseError c w s = { s with eng := { s.eng with errCode := c, errCmd := w, phase := .error } }

/-- R182, R186: a command that raises an error raises one of its own list and leaves every state
element as it was except ERR_CODE, ERR_CMD and PHASE. -/
def Obligations.ErrorsArePrecise : Prop :=
  ∀ (i : Instr) (s t : State), s.eng.phase ≠ .error → exec i s = .next t → t.eng.phase = .error →
    ∃ c ∈ errorsOf i, t = { s with eng := { s.eng with
      errCode := c, errCmd := encode i, phase := .error } }

/-- R187: in ERROR every word but CLEAR is ignored, illegal words too. -/
def Obligations.ErrorPhaseIgnoresWords : Prop :=
  ∀ (w : Word) (s : State), s.eng.phase = .error → w ≠ 0x01000000#32 → execWord w s = .next s

/-- R188: only CLEAR or a hardware reset leaves ERROR, and both start a fresh run in COUNT. Whose move
it is, the schedule says, which is the model's form (log entry 3). -/
def Obligations.OnlyClearOrResetLeavesError : Prop :=
  ∀ s t : State, Inv s → s.eng.phase = .error → step s = .next t → t.eng.phase ≠ .error →
    t.eng = Engine.reset ∧ t.eng.phase = .count ∧
    (s.host.events.head? = some .resetLow ∨
      ((s.host.events.head? = some .engine ∨ s.host.events = []) ∧ cmdReady s = true ∧
        s.host.port.head? = some 0x01000000#32))

/-! ### NOP and CLEAR -/

/-- R170: NOP changes nothing, in any phase. -/
def Obligations.NopChangesNothing : Prop := ∀ s : State, exec .nop s = .next s

/-- R172, R202: CLEAR gives every state element its reset value, in every phase, and leaves the build
and the host's side. -/
def Obligations.ClearStartsFreshRun : Prop :=
  ∀ s : State, ∃ t, exec .clear s = .next t ∧ t.eng = State.reset.eng ∧
    t.eng.phase = .count ∧ t.eng.errCode = .none ∧ t.eng.errCmd = 0#32 ∧ t.eng.out = [] ∧
    t.build = s.build ∧ t.host = s.host ∧ t.draw = s.draw

/-! ### FREQ_INC -/

/-- R100: FREQ_INC in COUNT adds one to FREQ[sym] and TOTAL_COUNT, and to NSYM on the first
occurrence; at TOTAL_COUNT = 2^32 - 1 it raises COUNT_OVERFLOW; in another phase SEQUENCE_ERROR. -/
def Obligations.FreqIncCounts : Prop :=
  ∀ (sym : Byte) (s : State),
    (s.eng.phase = .count → Counted s.eng → s.eng.totalCount.toNat < 2 ^ 32 - 1 →
      ∃ t, exec (.freqInc sym) s = .next t ∧
        (∀ x, (t.eng.freqOf x).toNat = (s.eng.freqOf x).toNat + if x = sym then 1 else 0) ∧
        t.eng.totalCount.toNat = s.eng.totalCount.toNat + 1 ∧
        t.eng.nsym.toNat = s.eng.nsym.toNat + (if s.eng.freqOf sym = 0#32 then 1 else 0) ∧
        t.eng.phase = .count ∧ t.eng.out = s.eng.out ∧ Counted t.eng) ∧
    (s.eng.phase = .count → s.eng.totalCount.toNat = 2 ^ 32 - 1 →
      exec (.freqInc sym) s = .next { s with eng := { s.eng with
        errCode := .countOverflow, errCmd := encode (.freqInc sym), phase := .error } }) ∧
    (s.eng.phase ≠ .count → s.eng.phase ≠ .error →
      exec (.freqInc sym) s = .next { s with eng := { s.eng with
        errCode := .sequenceError, errCmd := encode (.freqInc sym), phase := .error } })

/-! ### The queue and BUILD_TREE -/

/-- R111: a node lands before the first entry whose weight is strictly greater, or at the end. -/
def Obligations.QueueInsertPlaces : Prop :=
  ∀ (nodes : Vector Node 511) (x : NodeIx) (q : List NodeIx),
    ∃ j, j ≤ q.length ∧ qInsert nodes x q = q.take j ++ [x] ++ q.drop j ∧
      (∀ y ∈ q.take j, weightOf nodes y ≤ weightOf nodes x) ∧
      (∀ y, q[j]? = some y → weightOf nodes x < weightOf nodes y)

/-- R110: the queue stays ordered by non-decreasing weight, and its head is a least entry. -/
def Obligations.QueueStaysOrdered : Prop :=
  ∀ (nodes : Vector Node 511) (x : NodeIx) (q : List NodeIx),
    q.Pairwise (fun a b => weightOf nodes a ≤ weightOf nodes b) →
    (qInsert nodes x q).Pairwise (fun a b => weightOf nodes a ≤ weightOf nodes b) ∧
    ∀ y rest, qRemoveMin (qInsert nodes x q) = some (y, rest) →
      qPeekMin (qInsert nodes x q) = some y ∧ weightOf nodes y ≤ weightOf nodes x ∧
      ∀ z ∈ q, weightOf nodes y ≤ weightOf nodes z

/-- R116: one merge makes the node removed first the LEFT child and the node removed second the RIGHT
child of a new node with the sum of their weights. -/
def Obligations.MergeTakesFirstAsLeft : Prop :=
  ∀ (draw passes : Nat) (f : Forge) (a b : NodeIx) (rest : List NodeIx) (hk : f.k < 511),
    f.q = a :: b :: rest → weightOf f.nodes a + weightOf f.nodes b < 2 ^ 32 →
    ∃ nodes : Vector Node 511,
      mergeLoop draw (passes + 1) f = mergeLoop draw passes
        { nodes := nodes, q := qInsert nodes ⟨f.k, hk⟩ rest, k := f.k + 1 } ∧
      (∀ (i : Nat) (h : i < 511), i ≠ f.k → nodes[i] = f.nodes[i]) ∧
      nodes[f.k].valid = true ∧ nodes[f.k].internal = true ∧ nodes[f.k].sym = 0#8 ∧
      nodes[f.k].left.toNat = a.val ∧ nodes[f.k].right.toNat = b.val ∧
      nodes[f.k].weight.toNat = weightOf f.nodes a + weightOf f.nodes b

/-- R120: the merge loop ends with one entry, after as many merges as there are present symbols but
one. -/
def Obligations.MergeLoopLeavesOne : Prop :=
  ∀ (draw : Nat) (freq : Vector (BitVec 32) 256), presentSymbols freq ≠ [] →
    countSum freq < 2 ^ 32 →
    (forgeTree draw emptyNodes freq).q.length = 1 ∧
    (forgeTree draw emptyNodes freq).k =
      (presentSymbols freq).length + ((presentSymbols freq).length - 1)

/-- R103: with nothing counted, BUILD_TREE raises EMPTY_INPUT and emits nothing. -/
def Obligations.EmptyInputIsRefused : Prop :=
  ∀ s : State, s.eng.phase = .count → s.eng.nsym = 0#9 →
    exec .buildTree s = .next { s with eng := { s.eng with
      errCode := .emptyInput, errCmd := 0x03000000#32, phase := .error } }

/-- R118: BUILD_TREE with at least one symbol counted completes, with leaves first in ascending symbol
order, internal nodes after them over earlier nodes, every node but ROOT the child of exactly one,
and the root's weight TOTAL_COUNT. -/
def Obligations.BuildTreeGuarantees : Prop :=
  ∀ s : State, Inv s → s.eng.phase = .count → s.eng.nsym ≠ 0#9 →
    ∃ t, exec .buildTree s = .next t ∧ t.eng.phase = .tree ∧
      t.eng.nnodes.toNat = 2 * s.eng.nsym.toNat - 1 ∧
      t.eng.root.toNat = (if s.eng.nsym = 1#9 then 0 else 2 * s.eng.nsym.toNat - 2) ∧
      (∀ (i : Nat) (h : i < 511), i < s.eng.nsym.toNat →
        t.eng.nodes[i].internal = false ∧
        (presentSymbols s.eng.freq)[i]? = some t.eng.nodes[i].sym ∧
        t.eng.nodes[i].weight = s.eng.freqOf t.eng.nodes[i].sym) ∧
      (∀ (i : Nat) (h : i < 511), s.eng.nsym.toNat ≤ i → i < 2 * s.eng.nsym.toNat - 1 →
        t.eng.nodes[i].internal = true ∧
        ∃ a b, nodeAt t.eng.nodes t.eng.nodes[i].left = some a ∧
          nodeAt t.eng.nodes t.eng.nodes[i].right = some b ∧
          t.eng.nodes[i].left.toNat < i ∧ t.eng.nodes[i].right.toNat < i ∧
          t.eng.nodes[i].weight.toNat = a.weight.toNat + b.weight.toNat) ∧
      (∀ (i : Nat) (h : i < 511),
        (t.eng.nodes[i].valid = true ↔ i < 2 * s.eng.nsym.toNat - 1)) ∧
      (∀ j, j < 2 * s.eng.nsym.toNat - 1 →
        (childLinks t.eng.nodes (2 * s.eng.nsym.toNat - 1)).count j =
          if j = t.eng.root.toNat then 0 else 1) ∧
      (∃ n, nodeAt t.eng.nodes t.eng.root = some n ∧ n.weight = s.eng.totalCount)

/-- R117: with one symbol no merge happens: NODE[0] is the only valid node, and SINGLE is 1. -/
def Obligations.SingleSymbolTree : Prop :=
  ∀ s : State, Inv s → s.eng.phase = .count → s.eng.nsym = 1#9 →
    ∃ t, exec .buildTree s = .next t ∧ t.eng.root = 0#9 ∧ t.eng.nnodes = 1#10 ∧
      t.eng.single = true ∧ t.eng.errCode = .none ∧ t.eng.nodes[0].valid = true ∧
      t.eng.nodes[0].internal = false ∧ s.eng.freqOf t.eng.nodes[0].sym = s.eng.totalCount ∧
      ∀ (i : Nat) (h : i < 511), i ≠ 0 → t.eng.nodes[i] = Node.empty

/-- R119: no weight overflows: in every phase, every node's weight is at most TOTAL_COUNT. -/
def Obligations.WeightsNeverOverflow : Prop :=
  ∀ s : State, Inv s → ∀ (i : Nat) (h : i < 511),
    s.eng.nodes[i].weight.toNat ≤ s.eng.totalCount.toNat

/-! ### BUILD_CODES -/

/-- R130: BUILD_CODES completes, and for a tree with an internal root each present symbol's code is the
path from ROOT to its leaf, 0 to LEFT and 1 to RIGHT; absent symbols have no code. -/
def Obligations.CodesAreTreePaths : Prop :=
  ∀ s : State, Inv s → s.eng.phase = .tree →
    ∃ t, exec .buildCodes s = .next t ∧ t.eng.phase = .codes ∧ t.eng.out = s.eng.out ∧
      (∀ x, s.eng.freqOf x = 0#32 → t.eng.codeLenOf x = 0#8 ∧ t.eng.codeOf x = 0#255) ∧
      (s.eng.single = false → ∀ x, s.eng.freqOf x ≠ 0#32 →
        ∃ j n, PathTo s.eng.nodes s.eng.root (codeString t.eng x) j ∧
          nodeAt s.eng.nodes j = some n ∧ n.internal = false ∧ n.sym = x)

/-- R131: when SINGLE is 1, the one present symbol gets the code "0". -/
def Obligations.SingleSymbolCode : Prop :=
  ∀ s : State, Inv s → s.eng.phase = .tree → s.eng.single = true →
    ∃ t, exec .buildCodes s = .next t ∧
      ∀ x, s.eng.freqOf x ≠ 0#32 →
        codeString t.eng x = [false] ∧ t.eng.codeLenOf x = 1#8 ∧ t.eng.codeOf x = 0#255

/-- R135: after BUILD_CODES, in CODES, PACK and DONE, every present symbol has exactly one code, no bit
is set at or above its length, and no code is a prefix of another. -/
def Obligations.CodeTableGuarantees : Prop :=
  ∀ s : State, Inv s → s.eng.phase = .codes ∨ s.eng.phase = .pack ∨ s.eng.phase = .done →
    (∀ x, 1 ≤ (s.eng.codeLenOf x).toNat ↔ s.eng.freqOf x ≠ 0#32) ∧
    (∀ x, s.eng.freqOf x = 0#32 → s.eng.codeLenOf x = 0#8 ∧ s.eng.codeOf x = 0#255) ∧
    (∀ x, (s.eng.codeOf x).toNat < 2 ^ (s.eng.codeLenOf x).toNat) ∧
    (∀ x y, s.eng.freqOf x ≠ 0#32 → s.eng.freqOf y ≠ 0#32 → x ≠ y →
      ¬ (codeString s.eng x).IsPrefix (codeString s.eng y))

/-- R134: in CODES, PACK and DONE a code has at most n - 1 bits, and 1 bit where n is 1. -/
def Obligations.CodeLengthBound : Prop :=
  ∀ s : State, Inv s → s.eng.phase = .codes ∨ s.eng.phase = .pack ∨ s.eng.phase = .done →
    ∀ x, s.eng.freqOf x ≠ 0#32 →
    (2 ≤ s.eng.nsym.toNat → (s.eng.codeLenOf x).toNat ≤ s.eng.nsym.toNat - 1) ∧
    (s.eng.nsym = 1#9 → s.eng.codeLenOf x = 1#8)

/-- R137: in CODES, PACK and DONE, a symbol with strictly higher frequency never has a strictly longer
code than a symbol with strictly lower frequency. -/
def Obligations.FrequentSymbolsHaveNoLongerCodes : Prop :=
  ∀ s : State, Inv s → s.eng.phase = .codes ∨ s.eng.phase = .pack ∨ s.eng.phase = .done →
    ∀ x y,
    s.eng.freqOf y ≠ 0#32 → (s.eng.freqOf y).toNat < (s.eng.freqOf x).toNat →
    (s.eng.codeLenOf x).toNat ≤ (s.eng.codeLenOf y).toNat

/-- R132, R133: TOTAL_BITS is the sum of FREQ times CODE_LEN, and PADDING rounds it up to a byte. -/
def Obligations.TotalBitsAndPadding : Prop :=
  ∀ s t : State, s.eng.phase = .tree → exec .buildCodes s = .next t →
    t.eng.totalBits.toNat =
      (symbols.map fun x => (s.eng.freqOf x).toNat * (t.eng.codeLenOf x).toNat).sum ∧
    t.eng.padding.toNat = (8 - t.eng.totalBits.toNat % 8) % 8 ∧
    (t.eng.totalBits.toNat + t.eng.padding.toNat) % 8 = 0 ∧
    (t.eng.padding = 0#3 ↔ t.eng.totalBits.toNat % 8 = 0)

/-- R136: in every phase, TOTAL_BITS is at most 255 times TOTAL_COUNT and below 2^40, so that
TOTAL_BITS_HI[31:8] reads 0. -/
def Obligations.TotalBitsBelowTwoPow40 : Prop :=
  ∀ s : State, Inv s →
    s.eng.totalBits.toNat ≤ s.eng.totalCount.toNat * 255 ∧ s.eng.totalBits.toNat < 2 ^ 40 ∧
    (regRead s.build s.eng 0x000A#16).extractLsb' 8 24 = 0#24

/-! ### EMIT_HEADER -/

/-- R141, R142, R146: with room in OUT for the bytes of both lines, 4n for n of 2 or more and 6 for n = 1
(R145), EMIT_HEADER completes: it pushes the serialized tree, LF, one
ASCII digit for PADDING and LF, and writes HDR_LEN, OUT_COUNT and PHASE. -/
def Obligations.EmitHeaderPushesLines : Prop :=
  ∀ s : State, Inv s → s.eng.phase = .codes →
    RoomFor s (if s.eng.nsym = 1#9 then 6 else 4 * s.eng.nsym.toNat) →
    s.eng.outCount.toNat + 1024 < 2 ^ 64 →
    ∃ t text digit, exec .emitHeader s = .next t ∧
      (s.eng.single = false → SerText s.eng.nodes s.eng.root text) ∧
      (s.eng.single = true → ∃ x, s.eng.freqOf x ≠ 0#32 ∧ text = [0x28#8, x, 0x29#8]) ∧
      digit.toNat = 0x30 + s.eng.padding.toNat ∧ digit.toNat ≤ 0x37 ∧
      t.eng.out = s.eng.out ++ text ++ [0x0A#8, digit, 0x0A#8] ∧
      t.eng.hdrLen.toNat = text.length ∧
      t.eng.outCount.toNat = s.eng.outCount.toNat + text.length + 3 ∧
      t.eng.phase = .pack ∧ t.eng.inflight = none

/-- R145: in CODES, PACK and DONE, line 2 has 4n - 3 bytes for n of 2 or more and 3 for n = 1; for n of
2 or more it begins with '(' and ends with ')'. -/
def Obligations.SerializedLength : Prop :=
  ∀ s : State, Inv s → s.eng.phase = .codes ∨ s.eng.phase = .pack ∨ s.eng.phase = .done →
    ∃ text, treeText s.eng = .ok text ∧
    (2 ≤ s.eng.nsym.toNat → text.length = 4 * s.eng.nsym.toNat - 3 ∧
      text.head? = some 0x28#8 ∧ text.getLast? = some 0x29#8) ∧
    (s.eng.nsym = 1#9 → text.length = 3) ∧ 3 ≤ text.length ∧ text.length ≤ 1021

/-- R198, R50, R211: EMIT_HEADER, PACK and FINISH push their own bytes, whatever the room in OUT, in one
way: with room for all the bytes, they go out in order and the command makes its closing writes and
ends; without, OUT is filled, the rest is kept, and the command waits with BUSY = 1, its closing writes
still to come, which is the model's reading of the pseudocode's order (log entry 13). The bytes are those
of R141 and R142, of R152 and R155, and of R158. -/
def Obligations.PushWaitsOnFullOut : Prop :=
  (∀ (bytes : List Byte) (c : Closing) (s : State),
    (RoomFor s bytes.length →
      pushAll bytes c s = { s with
        eng := closeCommand s.draw c { s.eng with out := s.eng.out ++ bytes } } ∧
      (pushAll bytes c s).eng.busy = false ∧
      (pushAll bytes c s).eng.out = s.eng.out ++ bytes) ∧
    (∀ d, s.build.outDepth = some d → s.eng.out.length ≤ d.entries → ¬ RoomFor s bytes.length →
      pushAll bytes c s = { s with eng := { s.eng with
        out := s.eng.out ++ bytes.take (d.entries - s.eng.out.length)
        inflight := some { rest := bytes.drop (d.entries - s.eng.out.length), closing := c } } } ∧
      (pushAll bytes c s).eng.busy = true ∧ (pushAll bytes c s).eng.out.length = d.entries)) ∧
  (∀ s : State, Inv s → s.eng.phase = .codes →
    ∃ text, (s.eng.single = false → SerText s.eng.nodes s.eng.root text) ∧
      (s.eng.single = true → ∃ x, s.eng.freqOf x ≠ 0#32 ∧ text = [0x28#8, x, 0x29#8]) ∧
      exec .emitHeader s = .next (pushAll
        (text ++ [0x0A#8, BitVec.ofNat 8 (0x30 + s.eng.padding.toNat), 0x0A#8])
        (.header text.length) s)) ∧
  (∀ (sym : Byte) (s : State) (len bits filled : Nat), s.eng.phase = .pack →
    len = (s.eng.codeLenOf sym).toNat → len ≠ 0 → (s.eng.codeOf sym).toNat < 2 ^ len →
    bits = s.eng.subIndex.toNat + len → filled = bits / 8 → BufBetween s.eng →
    ∃ buf : Vector Byte 34,
      exec (.pack sym) s = .next (pushAll (buf.toList.take filled) (.pack filled len)
        { s with eng := { s.eng with buf := buf, subIndex := BitVec.ofNat 3 (bits % 8) } }) ∧
      (buf.toList.take filled).length = filled ∧
      (buf.toList.take filled).flatMap byteBits ++
        (byteBits (buf[filled]?.getD 0#8)).take (bits % 8) =
          pendingBits s.eng ++ codeString s.eng sym ∧
      FreeBitsClear (buf[filled]?.getD 0#8) (BitVec.ofNat 3 (bits % 8))) ∧
  (∀ s : State, s.eng.phase = .pack → s.eng.packedBits = s.eng.totalBits →
    ∃ flush, (s.build.flushPolicy = .pending → (flush = true ↔ s.eng.subIndex ≠ 0#3)) ∧
      (s.build.flushPolicy = .nonzero → (flush = true ↔ s.eng.buf[0] ≠ 0#8)) ∧
      exec .finish s = .next (pushAll (if flush then [s.eng.buf[0]] else [])
        (.finish (if flush then 1 else 0)) s))

/-- R198, R24: a waiting command goes on at the engine's turn and no new word is accepted meanwhile;
once OUT has room for the rest, the rest goes out in order and the command ends with BUSY = 0, its
closing writes made then (log entry 13), those of R141, R152 and R158. R6: OUT has at least one entry, so
with OUT drained, or with room for one byte, the next byte goes out: a host that drains OUT never leaves
the engine waiting. -/
def Obligations.WaitingCommandGoesOn : Prop :=
  ∀ (s : State) (f : InFlight), s.host.events.head? = some .engine ∨ s.host.events = [] →
    s.host.inReset = false → s.eng.inflight = some f →
    step s = .next (pushAll f.rest f.closing { s with
      host := { s.host with events := s.host.events.tail }, draw := s.draw + 1 }) ∧
    (∀ t, step s = .next t → t.host.port = s.host.port ∧ s.eng.out <+: t.eng.out) ∧
    (RoomFor s f.rest.length → ∃ t, step s = .next t ∧ t.eng.inflight = none ∧
      t.eng.out = s.eng.out ++ f.rest ∧
      t.eng = closeCommand (s.draw + 1) f.closing { s.eng with out := s.eng.out ++ f.rest } ∧
      (∀ n, f.closing = .header n → n < 2 ^ 11 → s.eng.outCount.toNat + n + 3 < 2 ^ 64 →
        t.eng.hdrLen.toNat = n ∧ t.eng.outCount.toNat = s.eng.outCount.toNat + n + 3 ∧
        t.eng.phase = .pack) ∧
      (∀ filled len, f.closing = .pack filled len → filled ≤ 32 →
        s.eng.packedBits.toNat + len < 2 ^ 64 → s.eng.outCount.toNat + filled < 2 ^ 64 →
        t.eng.lastFilled.toNat = filled ∧
        t.eng.packedBits.toNat = s.eng.packedBits.toNat + len ∧
        t.eng.outCount.toNat = s.eng.outCount.toNat + filled ∧
        t.eng.buf[0] = s.eng.buf[filled]?.getD 0#8 ∧ TailClear t.eng.buf ∧
        t.eng.phase = s.eng.phase) ∧
      (∀ n, f.closing = .finish n → s.eng.outCount.toNat + n < 2 ^ 64 →
        t.eng.outCount.toNat = s.eng.outCount.toNat + n ∧ t.eng.phase = .done)) ∧
    (∀ b bs, f.rest = b :: bs → s.eng.out = [] ∨ RoomFor s 1 →
      ∃ t, step s = .next t ∧ s.eng.out ++ [b] <+: t.eng.out)

/-! ### PACK -/

/-- R155: with room in OUT, PACK completes: the bits of the bytes it pushes and the new pending bits
are the old pending bits and the symbol's code, MSB first, and BUF holds nothing else. -/
def Obligations.PackAppendsCode : Prop :=
  ∀ (sym : Byte) (s : State), s.eng.phase = .pack → s.eng.codeLenOf sym ≠ 0#8 →
    (s.eng.codeOf sym).toNat < 2 ^ (s.eng.codeLenOf sym).toNat → BufBetween s.eng →
    RoomFor s ((s.eng.subIndex.toNat + (s.eng.codeLenOf sym).toNat) / 8) →
    ∃ t pushed, exec (.pack sym) s = .next t ∧ t.eng.out = s.eng.out ++ pushed ∧
      pushed.flatMap byteBits ++ pendingBits t.eng = pendingBits s.eng ++ codeString s.eng sym ∧
      BufBetween t.eng ∧ t.eng.phase = .pack ∧ t.eng.inflight = none

/-- R157, R154: the closed form of PACK: how many bytes are finalized, SUB_INDEX, LAST_FILLED,
PACKED_BITS and OUT_COUNT. -/
def Obligations.PackClosedForm : Prop :=
  ∀ (sym : Byte) (s : State), s.eng.phase = .pack → s.eng.codeLenOf sym ≠ 0#8 →
    BufBetween s.eng → RoomFor s ((s.eng.subIndex.toNat + (s.eng.codeLenOf sym).toNat) / 8) →
    s.eng.packedBits.toNat + 255 < 2 ^ 64 → s.eng.outCount.toNat + 32 < 2 ^ 64 →
    ∃ t, exec (.pack sym) s = .next t ∧
      t.eng.lastFilled.toNat = (s.eng.subIndex.toNat + (s.eng.codeLenOf sym).toNat) / 8 ∧
      t.eng.out.length = s.eng.out.length + t.eng.lastFilled.toNat ∧
      t.eng.subIndex.toNat = (s.eng.subIndex.toNat + (s.eng.codeLenOf sym).toNat) % 8 ∧
      t.eng.packedBits.toNat = s.eng.packedBits.toNat + (s.eng.codeLenOf sym).toNat ∧
      t.eng.outCount.toNat = s.eng.outCount.toNat + t.eng.lastFilled.toNat

/-- R151: a symbol without a code raises NO_CODE before any change. -/
def Obligations.PackWithoutCodeIsRefused : Prop :=
  ∀ (sym : Byte) (s : State), s.eng.phase = .pack → s.eng.codeLenOf sym = 0#8 →
    exec (.pack sym) s = .next { s with eng := { s.eng with
      errCode := .noCode, errCmd := encode (.pack sym), phase := .error } }

/-- R156: the largest index PACK writes is 32, so BUF[33] is never written. -/
def Obligations.PackStaysInBuffer : Prop :=
  ∀ (sub len code : Nat) (buf : Vector Byte 34), sub < 8 → len ≤ 255 →
    (packBits sub len code buf).2 = (sub + len) / 8 ∧ (packBits sub len code buf).2 ≤ 32 ∧
    (packBits sub len code buf).1[33] = buf[33]

/-! ### FINISH -/

/-- R158: FINISH needs phase PACK. It raises LENGTH_MISMATCH when PACKED_BITS and TOTAL_BITS differ;
else it flushes by FLUSH_POLICY, with room for the byte where there is one to flush, goes to DONE, and
leaves the packer's state. -/
def Obligations.FinishCloses : Prop :=
  ∀ s : State,
    (s.eng.phase ≠ .pack → s.eng.phase ≠ .error → exec .finish s = .next { s with eng := { s.eng with
      errCode := .sequenceError, errCmd := 0x07000000#32, phase := .error } }) ∧
    (s.eng.phase = .pack → s.eng.packedBits ≠ s.eng.totalBits →
      exec .finish s = .next { s with eng := { s.eng with
        errCode := .lengthMismatch, errCmd := 0x07000000#32, phase := .error } }) ∧
    (s.eng.phase = .pack → s.eng.packedBits = s.eng.totalBits →
      ((s.build.flushPolicy = .pending ∧ s.eng.subIndex ≠ 0#3) ∨
        (s.build.flushPolicy = .nonzero ∧ s.eng.buf[0] ≠ 0#8) →
        RoomFor s 1 ∧ s.eng.outCount.toNat + 1 < 2 ^ 64) →
      ∃ t flush, exec .finish s = .next t ∧
        (s.build.flushPolicy = .pending → (flush = true ↔ s.eng.subIndex ≠ 0#3)) ∧
        (s.build.flushPolicy = .nonzero → (flush = true ↔ s.eng.buf[0] ≠ 0#8)) ∧
        t.eng.out = s.eng.out ++ (if flush then [s.eng.buf[0]] else []) ∧
        t.eng.outCount.toNat = s.eng.outCount.toNat + (if flush then 1 else 0) ∧
        t.eng.phase = .done ∧ t.eng.buf = s.eng.buf ∧ t.eng.subIndex = s.eng.subIndex ∧
        t.eng.lastFilled = s.eng.lastFilled ∧ t.eng.packedBits = s.eng.packedBits)

/-- R159: under NONZERO, pending bits that are all 0 are lost: nothing is pushed although PADDING says
that a partial byte follows. Under PENDING the byte is pushed. -/
def Obligations.NonzeroPolicyLosesZeroByte : Prop :=
  ∀ s : State, Inv s → s.eng.phase = .pack → s.eng.packedBits = s.eng.totalBits →
    s.eng.subIndex.toNat = s.eng.packedBits.toNat % 8 → s.eng.subIndex ≠ 0#3 →
    s.eng.buf[0] = 0#8 → (s.build.flushPolicy = .pending → RoomFor s 1) → s.eng.padding ≠ 0#3 ∧
    ∃ t, exec .finish s = .next t ∧ t.eng.phase = .done ∧
      (s.build.flushPolicy = .nonzero → t.eng.out = s.eng.out) ∧
      (s.build.flushPolicy = .pending → t.eng.out = s.eng.out ++ [0#8])

/-- R160: the payload count. EMIT_HEADER in a run that has pushed and packed nothing starts it, PACK
keeps the count of pushed bytes in step with the packed bits, and FINISH under PENDING ends with
HDR_LEN + 3 + ceil(TOTAL_BITS / 8) bytes, the last one's low PADDING bits 0. -/
def Obligations.PayloadByteCount : Prop :=
  (∀ s : State, Inv s → s.eng.phase = .codes → RoomFor s (if s.eng.nsym = 1#9 then 6 else 4 * s.eng.nsym.toNat) →
    s.eng.outCount = 0#64 → s.eng.packedBits = 0#64 → s.eng.subIndex = 0#3 →
    ∃ t, exec .emitHeader s = .next t ∧ PayloadCount t.eng) ∧
  (∀ (sym : Byte) (s : State), s.eng.phase = .pack → s.eng.codeLenOf sym ≠ 0#8 →
    BufBetween s.eng → RoomFor s ((s.eng.subIndex.toNat + (s.eng.codeLenOf sym).toNat) / 8) →
    PayloadCount s.eng →
    s.eng.packedBits.toNat + 255 < 2 ^ 64 → s.eng.outCount.toNat + 32 < 2 ^ 64 →
    ∃ t, exec (.pack sym) s = .next t ∧ PayloadCount t.eng) ∧
  (∀ s : State, Inv s → s.eng.phase = .pack → s.eng.inflight = none →
    s.eng.packedBits = s.eng.totalBits →
    PayloadCount s.eng → (s.eng.subIndex ≠ 0#3 → RoomFor s 1) →
    s.eng.outCount.toNat + 1 < 2 ^ 64 → s.build.flushPolicy = .pending →
    ∃ t, exec .finish s = .next t ∧
      t.eng.outCount.toNat = s.eng.hdrLen.toNat + 3 + (s.eng.totalBits.toNat + 7) / 8 ∧
      (s.eng.subIndex ≠ 0#3 → ∃ b, t.eng.out.getLast? = some b ∧
        b.toNat % 2 ^ s.eng.padding.toNat = 0))

/-! ### Frames -/

/-- R100, R115, R130: what FREQ_INC, BUILD_TREE and BUILD_CODES leave unchanged. -/
def Obligations.TableCommandFrames : Prop :=
  (∀ (sym : Byte) (s t : State), exec (.freqInc sym) s = .next t →
    t = { s with eng := { s.eng with
      freq := t.eng.freq, nsym := t.eng.nsym, totalCount := t.eng.totalCount
      phase := t.eng.phase, errCode := t.eng.errCode, errCmd := t.eng.errCmd } } ∧
    ∀ x, x ≠ sym → t.eng.freqOf x = s.eng.freqOf x) ∧
  (∀ s t : State, exec .buildTree s = .next t →
    t = { s with eng := { s.eng with
      nodes := t.eng.nodes, nnodes := t.eng.nnodes, root := t.eng.root, q := t.eng.q
      single := t.eng.single, phase := t.eng.phase
      errCode := t.eng.errCode, errCmd := t.eng.errCmd } }) ∧
  (∀ s t : State, exec .buildCodes s = .next t →
    t = { s with eng := { s.eng with
      codeLen := t.eng.codeLen, code := t.eng.code, totalBits := t.eng.totalBits
      padding := t.eng.padding, phase := t.eng.phase
      errCode := t.eng.errCode, errCmd := t.eng.errCmd } })

/-- R141, R152, R158: what EMIT_HEADER, PACK and FINISH leave unchanged; OUT only grows at its tail. -/
def Obligations.PushingCommandFrames : Prop :=
  (∀ s t : State, exec .emitHeader s = .next t →
    t = { s with eng := { s.eng with
      out := t.eng.out, hdrLen := t.eng.hdrLen, outCount := t.eng.outCount
      phase := t.eng.phase, inflight := t.eng.inflight
      errCode := t.eng.errCode, errCmd := t.eng.errCmd } } ∧ s.eng.out <+: t.eng.out) ∧
  (∀ (sym : Byte) (s t : State), exec (.pack sym) s = .next t →
    t = { s with eng := { s.eng with
      out := t.eng.out, buf := t.eng.buf, subIndex := t.eng.subIndex
      lastFilled := t.eng.lastFilled, packedBits := t.eng.packedBits
      outCount := t.eng.outCount, phase := t.eng.phase, inflight := t.eng.inflight
      errCode := t.eng.errCode, errCmd := t.eng.errCmd } } ∧ s.eng.out <+: t.eng.out) ∧
  (∀ s t : State, exec .finish s = .next t →
    t = { s with eng := { s.eng with
      out := t.eng.out, outCount := t.eng.outCount
      phase := t.eng.phase, inflight := t.eng.inflight
      errCode := t.eng.errCode, errCmd := t.eng.errCmd } } ∧ s.eng.out <+: t.eng.out)

/-! ### The register read port -/

/-- R28: the windows of the register map, FREQ, CODE_LEN, CODE and NODE, and the named registers of
wide values. -/
def Obligations.RegisterWindows : Prop :=
  ∀ (b : Build) (e : Engine),
    (∀ s : Byte, regRead b e (BitVec.ofNat 16 (0x0100 + s.toNat)) = e.freqOf s) ∧
    (∀ s : Byte, regRead b e (BitVec.ofNat 16 (0x0200 + s.toNat)) =
      (e.codeLenOf s).setWidth 32) ∧
    (∀ (s : Byte) (k : Nat), k < 8 →
      (regRead b e (BitVec.ofNat 16 (0x0800 + 8 * s.toNat + k))).toNat =
        (e.codeOf s).toNat / 2 ^ (32 * k) % 2 ^ 32) ∧
    (∀ (i : Nat) (h : i < 511),
      regRead b e (BitVec.ofNat 16 (0x1000 + 2 * i)) = e.nodes[i].weight ∧
      regRead b e (BitVec.ofNat 16 (0x1000 + 2 * i + 1)) = nodeInfo e.nodes[i]) ∧
    (∀ n : Node, (nodeInfo n).extractLsb' 0 9 = n.left ∧ (nodeInfo n).extractLsb' 9 9 = n.right ∧
      (nodeInfo n).extractLsb' 18 8 = n.sym ∧ (nodeInfo n).extractLsb' 26 4 = 0#4 ∧
      (nodeInfo n).getLsbD 30 = n.internal ∧ (nodeInfo n).getLsbD 31 = n.valid)

/-- R33 to R46, R181: the named registers hold their fields in their low bits, and every bit above
reads 0; ERROR holds the code of R181; a 64-bit value is its low word, then its high word. -/
def Obligations.NamedRegisters : Prop :=
  ∀ (b : Build) (e : Engine),
    regRead b e 0x0003#16 =
      (match e.errCode with
       | .none => 0x00#32 | .illegalCommand => 0x01#32 | .sequenceError => 0x02#32
       | .emptyInput => 0x03#32 | .countOverflow => 0x04#32 | .noCode => 0x05#32
       | .lengthMismatch => 0x06#32) ∧ regRead b e 0x0004#16 = e.errCmd ∧
    (regRead b e 0x0005#16).toNat = e.nsym.toNat ∧ regRead b e 0x0006#16 = e.totalCount ∧
    (regRead b e 0x0007#16).toNat = e.nnodes.toNat ∧
    (regRead b e 0x0008#16).toNat = e.root.toNat ∧
    regRead b e 0x000A#16 ++ regRead b e 0x0009#16 = e.totalBits ∧
    (regRead b e 0x000B#16).toNat = e.padding.toNat ∧
    (regRead b e 0x000C#16).toNat = e.hdrLen.toNat ∧
    (regRead b e 0x000D#16).toNat = e.subIndex.toNat ∧
    (regRead b e 0x000E#16).toNat = e.buf[0].toNat ∧
    (regRead b e 0x000F#16).toNat = e.lastFilled.toNat ∧
    regRead b e 0x0011#16 ++ regRead b e 0x0010#16 = e.packedBits ∧
    regRead b e 0x0013#16 ++ regRead b e 0x0012#16 = e.outCount

/-- R27: an address that the map does not assign reads 0. -/
def Obligations.UnmappedAddressesReadZero : Prop :=
  ∀ (b : Build) (e : Engine) (a : Addr),
    (0x0014 ≤ a.toNat ∧ a.toNat < 0x0100) ∨ (0x0300 ≤ a.toNat ∧ a.toNat < 0x0800) ∨
      0x13FE ≤ a.toNat → regRead b e a = 0#32

/-- R32: the fields of STATUS. -/
def Obligations.StatusFields : Prop :=
  ∀ (b : Build) (e : Engine),
    (regRead b e 0x0002#16).extractLsb' 0 3 =
      (match e.phase with
       | .count => 0#3 | .tree => 1#3 | .codes => 2#3 | .pack => 3#3 | .done => 4#3
       | .error => 7#3) ∧
    ((regRead b e 0x0002#16).getLsbD 3 = true ↔ e.inflight ≠ none) ∧
    ((regRead b e 0x0002#16).getLsbD 4 = true ↔ e.phase = .error) ∧
    (regRead b e 0x0002#16).getLsbD 5 = e.single ∧
    ((regRead b e 0x0002#16).getLsbD 6 = true ↔ e.subIndex ≠ 0#3) ∧
    ((regRead b e 0x0002#16).getLsbD 7 = true ↔ e.out ≠ []) ∧
    (regRead b e 0x0002#16).extractLsb' 8 24 = 0#24

/-- R30, R31: the constants ID and PARAM. -/
def Obligations.IdAndParam : Prop :=
  ∀ (b : Build) (e : Engine), regRead b e 0x0000#16 = 0x48554646#32 ∧
    regRead b e 0x0001#16 =
      (match b.flushPolicy with
       | .pending => 0xFF220020#32
       | .nonzero => 0xFF220120#32)

/-- R27, R210: a read changes nothing of the engine and is recorded with its value, which is exact for
STATUS, exact for every register once BUSY = 0 was seen since the last command, and otherwise the
step's free value, at an address that the map does not name too. The record of reads, the free value
and its reach are the model's form of R210's draw (log entries 3 and 5). -/
def Obligations.ReadsReturnAndChangeNothing : Prop :=
  ∀ (s t : State) (a : Addr) (rest : List Event), s.host.events = .read a :: rest →
    step s = .next t →
    t.eng = s.eng ∧ t.build = s.build ∧ t.host.port = s.host.port ∧ t.host.taken = s.host.taken ∧
    t.host.inReset = s.host.inReset ∧
    ∃ v, t.host.reads = s.host.reads ++ [(a, v)] ∧
      (a = 0x0002#16 → v = regRead s.build s.eng a) ∧
      (s.host.sawIdle = true → s.eng.inflight = none → v = regRead s.build s.eng a) ∧
      (a ≠ 0x0002#16 → s.host.sawIdle = false → v = Config.freeRead (s.draw + 1)) ∧
      (t.host.sawIdle = true ↔
        s.host.sawIdle = true ∨ (a = 0x0002#16 ∧ s.eng.inflight = none))

/-! ### The step, the ports, reset -/

/-- R24: on the engine's turn, with `rst_n` high and no command in flight, the oldest offered word is
taken and executed at the state with the word gone from the port, the move gone from the schedule, a
new draw, and BUSY = 0 not seen since: a word that decodes to an instruction is exec of it, and an
illegal word raises ILLEGAL_COMMAND, or is ignored in ERROR (R85, R187). The word that withFetchWord
places is such a word, and the table's 32 bits are the word's. The schedule, the port's queue and the
draw are the model's form (log entries 3, 4 and 5). -/
def Obligations.StepRunsDecodedInstruction : Prop :=
  (∀ (s s' : State) (w : Word) (rest : List Word),
    s.host.events.head? = some .engine ∨ s.host.events = [] → s.host.inReset = false →
    s.eng.inflight = none → s.host.port = w :: rest →
    s' = { s with
      host := { s.host with port := rest, events := s.host.events.tail, sawIdle := false }
      draw := s.draw + 1 } →
    step s = execWord w s' ∧ (∀ i, decode w = .cmd i → step s = exec i s') ∧
    (∀ why, decode w = .illegal why → s.eng.phase ≠ .error →
      step s = .next { s' with eng := { s'.eng with
        errCode := .illegalCommand, errCmd := w, phase := .error } }) ∧
    (∀ why, decode w = .illegal why → s.eng.phase = .error → step s = .next s')) ∧
  (∀ (s : State) (nbits w : Nat) (i : Instr), decodeTableWord nbits w = some i →
    step (s.withFetchWord nbits w) = exec i { s with
      eng := { s.eng with inflight := none }
      host := { s.host with inReset := false, sawIdle := false }
      draw := s.draw + 1 }) ∧
  (∀ (w : Word) (i : Instr), decodeTableWord 32 w.toNat = some i ↔ decode w = .cmd i)

/-- R24, R212: the command port. A word leaves it only at its head and only when the engine accepts it,
which it does only with cmd_ready, high exactly while no command is in flight and `rst_n` is high; a
word joins only when the host offers it, exactly that word, at the tail. Each step takes the move at
the head of the schedule. The queue at the port, the schedule and the draw are the model's form of
R212's wait (log entries 3, 4 and 5), and that the offered words stay at the port while `rst_n` is low
is the model's choice (log entry 11). -/
def Obligations.PortKeepsOrder : Prop :=
  (∀ s t : State, step s = .next t →
    (t.host.port = s.host.port ∨
      (∃ w, s.host.events.head? = some (.offer w) ∧ t.host.port = s.host.port ++ [w]) ∨
      (∃ w, s.host.port = w :: t.host.port ∧ cmdReady s = true ∧ t.host.sawIdle = false)) ∧
    t.host.events = s.host.events.tail ∧ t.draw = s.draw + 1) ∧
  (∀ (s : State) (w : Word) (rest : List Event), s.host.events = .offer w :: rest →
    step s = .next { s with
      host := { s.host with events := rest, port := s.host.port ++ [w] }, draw := s.draw + 1 }) ∧
  (∀ s : State, cmdReady s = true ↔ s.host.inReset = false ∧ s.eng.inflight = none)

/-- R50, R67, R214: bytes leave OUT at its head and join it at its tail: what the host has taken
followed by what OUT holds only grows at the end, but for CLEAR and reset, which empty OUT. A take
moves the head byte and changes nothing else of the engine; a take with OUT empty is no transfer and
changes nothing (log entry 10); out_valid is high exactly while OUT holds a byte. The record of bytes
taken, the schedule and the draw are the model's (log entries 3 and 5). -/
def Obligations.OutKeepsOrder : Prop :=
  (∀ s t : State, step s = .next t →
    (s.host.taken ++ s.eng.out <+: t.host.taken ++ t.eng.out) ∨
    (t.eng = Engine.reset ∧ t.host.taken = s.host.taken)) ∧
  (∀ (s : State) (b : Byte) (out : List Byte) (rest : List Event),
    s.host.events = .take :: rest → s.eng.out = b :: out →
    step s = .next { s with
      eng := { s.eng with out := out }
      host := { s.host with events := rest, taken := s.host.taken ++ [b] }
      draw := s.draw + 1 }) ∧
  (∀ (s : State) (rest : List Event), s.host.events = .take :: rest → s.eng.out = [] →
    step s = .next { s with host := { s.host with events := rest }, draw := s.draw + 1 }) ∧
  (∀ s : State, outValid s = true ↔ s.eng.out ≠ [])

/-- R197: with no command and nothing from the host, the engine idles and all state survives. The draw
that moves on is the model's own counter (log entry 5), and so is the empty schedule (log entry 3). -/
def Obligations.EngineIdles : Prop :=
  ∀ s : State, s.host.events = [] → s.host.port = [] → s.eng.inflight = none →
    step s = .next { s with draw := s.draw + 1 }

/-- R200: the reset values, at State.reset and after rst_n goes low at any state, a waiting command
included; while it is low no word is accepted; on its release the values are there; and ID and PARAM
are constants. That the words offered meanwhile stay at the port is the model's choice (log entry 11),
and the schedule and the draw that move on are its own fields (log entries 3 and 5). -/
def Obligations.ResetGivesResetValues : Prop :=
  (State.reset.eng.phase = .count ∧ State.reset.eng.inflight = none ∧
    State.reset.eng.single = false ∧ State.reset.eng.errCode.toBits = 0#8 ∧
    State.reset.eng.errCmd = 0#32 ∧ State.reset.eng.nsym = 0#9 ∧
    State.reset.eng.totalCount = 0#32 ∧ State.reset.eng.nnodes = 0#10 ∧
    State.reset.eng.root = 0#9 ∧ State.reset.eng.q = [] ∧ State.reset.eng.totalBits = 0#64 ∧
    State.reset.eng.padding = 0#3 ∧ State.reset.eng.hdrLen = 0#11 ∧
    State.reset.eng.subIndex = 0#3 ∧ State.reset.eng.lastFilled = 0#6 ∧
    State.reset.eng.packedBits = 0#64 ∧ State.reset.eng.outCount = 0#64 ∧
    State.reset.eng.out = [] ∧
    (∀ x, State.reset.eng.freqOf x = 0#32 ∧ State.reset.eng.codeLenOf x = 0#8 ∧
      State.reset.eng.codeOf x = 0#255) ∧
    (∀ (i : Nat) (h : i < 511), State.reset.eng.nodes[i] = Node.empty) ∧
    (∀ (i : Nat) (h : i < 34), State.reset.eng.buf[i] = 0#8)) ∧
  (∀ (s t : State) (rest : List Event), s.host.events = .resetLow :: rest → step s = .next t →
    t.eng = State.reset.eng ∧ t.host.inReset = true) ∧
  (∀ (s : State) (rest : List Event), s.host.inReset = true → s.host.events = .engine :: rest →
    step s = .next { s with host := { s.host with events := rest }, draw := s.draw + 1 }) ∧
  (∀ (s t : State) (rest : List Event), s.host.inReset = true → s.host.events = .resetHigh :: rest →
    step s = .next t → t.eng = State.reset.eng ∧ t.host.inReset = false) ∧
  (∀ (b : Build) (e : Engine), regRead b e 0x0000#16 = regRead b State.reset.eng 0x0000#16 ∧
    regRead b e 0x0001#16 = regRead b State.reset.eng 0x0001#16)

/-! ### Invariants -/

/-- R57, R209: the invariant holds at reset. -/
def Obligations.ResetMeetsInvariant : Prop := Inv State.reset

/-- R57: every step keeps the invariant, from every state that meets it. What it says beyond R57 (the
bound of TOTAL_BITS, the tree in ERROR, the waits, the error record, the depth of OUT, the reset state)
comes from R136, R186, R198, R185, R50 and R200; PHASE and BUF in the middle of a wait are the model's
reading of the pseudocode's order (log entry 13), and that BUSY = 0 is not seen in a wait speaks of the
model's own field (log entry 5). -/
def Obligations.StepKeepsInvariant : Prop := ∀ s t : State, Inv s → step s = .next t → Inv t

/-- R57: between any two commands of a state that meets the invariant, the five items hold. -/
def Obligations.InvariantGivesBetween : Prop :=
  ∀ s : State, Inv s → s.eng.inflight = none → Between s.eng

/-- R7, R31: the build parameters never change at run time. -/
def Obligations.BuildNeverChanges : Prop := ∀ s t : State, step s = .next t → t.build = s.build

/-- No run stops: from every state that meets the invariant, a step gives a next state (R88 and R182
leave no other outcome than an effect, an error or nothing). -/
def Obligations.StepNeverStops : Prop := ∀ s : State, Inv s → ∃ t, step s = .next t

/-! ### Text forms -/

/-- R89: the assembler's examples, and comments and decimal numbers; the line form is read as in log
entry 12. -/
def Obligations.AssemblerExamples : Prop :=
  assemble ["FREQ_INC 'a'".toList, "PACK 0xFF".toList] = .ok [0x02000061#32, 0x060000FF#32] ∧
  assemble ["FREQ_INC 97 ; one".toList, "; none".toList, "FINISH".toList] =
    .ok [0x02000061#32, 0x07000000#32]

/-- R90: COUNT_STRING S is one FREQ_INC per byte, PACK_STRING S one PACK per byte, and COMPRESS S is
CLEAR, COUNT_STRING S, the three builds, PACK_STRING S, FINISH. -/
def Obligations.CompressExpands : Prop :=
  ∀ str : List Byte,
    countString str = str.map .freqInc ∧ packString str = str.map .pack ∧
    compress str = .clear :: (str.map .freqInc ++
      .buildTree :: .buildCodes :: .emitHeader :: (str.map .pack ++ [.finish])) ∧
    (compress str).length = 2 * str.length + 5
end

