-- ==== Sys2Proof/Laws/State.lean ====
section
/-! SUPPORT. One lemma per field per update of the state, true by rfl, so that no later proof unfolds a
record update. -/

namespace Sys2Proof.Machine

@[simp] theorem withEng_build (s : State) (e : Engine) : (s.withEng e).build = s.build := rfl
@[simp] theorem withEng_eng (s : State) (e : Engine) : (s.withEng e).eng = e := rfl
@[simp] theorem withEng_host (s : State) (e : Engine) : (s.withEng e).host = s.host := rfl
@[simp] theorem withEng_draw (s : State) (e : Engine) : (s.withEng e).draw = s.draw := rfl
@[simp] theorem withEng_withEng (s : State) (e e' : Engine) :
    (s.withEng e).withEng e' = s.withEng e' := rfl
@[simp] theorem withEng_self (s : State) : s.withEng s.eng = s := rfl

@[simp] theorem withHost_build (s : State) (h : HostSide) : (s.withHost h).build = s.build := rfl
@[simp] theorem withHost_eng (s : State) (h : HostSide) : (s.withHost h).eng = s.eng := rfl
@[simp] theorem withHost_host (s : State) (h : HostSide) : (s.withHost h).host = h := rfl
@[simp] theorem withHost_draw (s : State) (h : HostSide) : (s.withHost h).draw = s.draw := rfl
@[simp] theorem withHost_withEng (s : State) (h : HostSide) (e : Engine) :
    (s.withHost h).withEng e = (s.withEng e).withHost h := rfl

@[simp] theorem nextDraw_build (s : State) : s.nextDraw.build = s.build := rfl
@[simp] theorem nextDraw_eng (s : State) : s.nextDraw.eng = s.eng := rfl
@[simp] theorem nextDraw_host (s : State) : s.nextDraw.host = s.host := rfl
@[simp] theorem nextDraw_draw (s : State) : s.nextDraw.draw = s.draw + 1 := rfl

@[simp] theorem raiseError_build (c : ErrCode) (w : Word) (s : State) :
    (raiseError c w s).build = s.build := rfl
@[simp] theorem raiseError_host (c : ErrCode) (w : Word) (s : State) :
    (raiseError c w s).host = s.host := rfl
@[simp] theorem raiseError_draw (c : ErrCode) (w : Word) (s : State) :
    (raiseError c w s).draw = s.draw := rfl
@[simp] theorem raiseError_eng (c : ErrCode) (w : Word) (s : State) :
    (raiseError c w s).eng = { s.eng with errCode := c, errCmd := w, phase := .error } := rfl

@[simp] theorem clearEngine_build (s : State) : (clearEngine s).build = s.build := rfl
@[simp] theorem clearEngine_eng (s : State) : (clearEngine s).eng = Engine.reset := rfl
@[simp] theorem clearEngine_host (s : State) : (clearEngine s).host = s.host := rfl
@[simp] theorem clearEngine_draw (s : State) : (clearEngine s).draw = s.draw := rfl

@[simp] theorem outPush_build (b : Byte) (s : State) : (outPush b s).build = s.build := rfl
@[simp] theorem outPush_host (b : Byte) (s : State) : (outPush b s).host = s.host := rfl
@[simp] theorem outPush_draw (b : Byte) (s : State) : (outPush b s).draw = s.draw := rfl
@[simp] theorem outPush_eng (b : Byte) (s : State) :
    (outPush b s).eng = { s.eng with out := s.eng.out ++ [b] } := rfl

@[simp] theorem acceptWord_build (ws : List Word) (s : State) :
    (acceptWord ws s).build = s.build := rfl
@[simp] theorem acceptWord_eng (ws : List Word) (s : State) : (acceptWord ws s).eng = s.eng := rfl
@[simp] theorem acceptWord_draw (ws : List Word) (s : State) :
    (acceptWord ws s).draw = s.draw := rfl
@[simp] theorem acceptWord_host (ws : List Word) (s : State) :
    (acceptWord ws s).host = { s.host with port := ws, sawIdle := false } := rfl

@[simp] theorem reset_eng : State.reset.eng = Engine.reset := rfl
@[simp] theorem reset_host : State.reset.host = HostSide.reset := rfl
@[simp] theorem reset_build : State.reset.build = Build.default := rfl
@[simp] theorem reset_phase : Engine.reset.phase = .count := rfl
@[simp] theorem reset_inflight : Engine.reset.inflight = none := rfl
@[simp] theorem reset_out : Engine.reset.out = [] := rfl
@[simp] theorem reset_errCode : Engine.reset.errCode = .none := rfl

end Sys2Proof.Machine
end

