-- ==== Sys2Proof/Laws/Ops.lean ====
section
/-! SUPPORT. What each shared operation can do, said once. -/

namespace Sys2Proof.Machine

/-! ### Tables and widths -/

theorem symbols_length : symbols.length = 256 := by simp [symbols]

theorem mem_symbols (s : Byte) : s ∈ symbols := by
  simp only [symbols, List.mem_map, List.mem_range]
  exact ⟨s.toNat, s.isLt, by simp⟩

theorem symbols_nodup : symbols.Nodup := by
  refine List.Nodup.map_on ?_ List.nodup_range
  intro a ha b hb h
  rw [List.mem_range] at ha hb
  have := congrArg BitVec.toNat h
  simpa [BitVec.toNat_ofNat, Nat.mod_eq_of_lt ha, Nat.mod_eq_of_lt hb] using this

theorem symAt_setSym {α : Type} (t : Vector α 256) (s x : Byte) (v : α) :
    symAt (setSym t s v) x = if x = s then v else symAt t x := by
  unfold symAt setSym
  rw [Vector.getElem_set]
  by_cases h : x = s
  · simp [h]
  · have : s.toNat ≠ x.toNat := fun e => h (BitVec.eq_of_toNat_eq e.symm)
    simp [h, this]

@[simp] theorem symAt_replicate {α : Type} (v : α) (s : Byte) :
    symAt (Vector.replicate 256 v) s = v := by simp [symAt]

theorem narrow_of_lt {r : Config.Sized} {draw w n : Nat} (h : n < 2 ^ w) :
    narrow r draw w n = BitVec.ofNat w n := by simp [narrow, h]

theorem narrow_toNat {r : Config.Sized} {draw w n : Nat} (h : n < 2 ^ w) :
    (narrow r draw w n).toNat = n := by
  rw [narrow_of_lt h, BitVec.toNat_ofNat, Nat.mod_eq_of_lt h]

/-! ### The phase check -/

theorem inPhase_ok {need : Phase} {i : Instr} {s : State}
    {body : Host.Outcome State Fault Refusal} (h : s.eng.phase = need) (hn : need ≠ .error) :
    inPhase need i s body = body := by
  simp [inPhase, h, hn]

theorem inPhase_error {need : Phase} {i : Instr} {s : State}
    {body : Host.Outcome State Fault Refusal} (h : s.eng.phase = .error) :
    inPhase need i s body = .next s := by
  simp [inPhase, h]

theorem inPhase_sequence {need : Phase} {i : Instr} {s : State}
    {body : Host.Outcome State Fault Refusal} (h : s.eng.phase ≠ .error) (hn : s.eng.phase ≠ need) :
    inPhase need i s body = .next (raiseError .sequenceError (encode i) s) := by
  simp [inPhase, h, hn]

/-- Everything the phase check can answer. -/
theorem inPhase_next {need : Phase} {i : Instr} {s t : State}
    {body : Host.Outcome State Fault Refusal} (h : inPhase need i s body = .next t) :
    (s.eng.phase = .error ∧ t = s) ∨
    (s.eng.phase ≠ .error ∧ s.eng.phase ≠ need ∧ t = raiseError .sequenceError (encode i) s) ∨
    (s.eng.phase ≠ .error ∧ s.eng.phase = need ∧ body = .next t) := by
  unfold inPhase at h
  split at h
  · next he => exact .inl ⟨he, by simpa using h.symm⟩
  · next he =>
    split at h
    · next hn => exact .inr (.inr ⟨he, hn, h⟩)
    · next hn => exact .inr (.inl ⟨he, hn, by simpa using h.symm⟩)

/-! ### The queue -/

theorem qInsert_perm (nodes : Vector Node 511) (x : NodeIx) (q : List NodeIx) :
    (qInsert nodes x q).Perm (x :: q) := by
  induction q with
  | nil => exact .refl _
  | cons y ys ih =>
    unfold qInsert
    split
    · exact .refl _
    · exact (List.Perm.cons y ih).trans (.swap x y ys)

theorem qInsert_length (nodes : Vector Node 511) (x : NodeIx) (q : List NodeIx) :
    (qInsert nodes x q).length = q.length + 1 := (qInsert_perm nodes x q).length_eq

theorem qInsert_ne_nil (nodes : Vector Node 511) (x : NodeIx) (q : List NodeIx) :
    qInsert nodes x q ≠ [] := by
  intro h
  have := qInsert_length nodes x q
  simp [h] at this

/-! ### OutPush and its wait -/

theorem hasRoom_of_roomFor {s : State} {n : Nat} (h : RoomFor s (n + 1)) : hasRoom s = true := by
  unfold hasRoom
  split
  · rfl
  · next d hd =>
    have := h d hd
    simp; omega

theorem roomFor_outPush {s : State} {n : Nat} (b : Byte) (h : RoomFor s (n + 1)) :
    RoomFor (outPush b s) n := by
  intro d hd
  have := h d hd
  simp; omega

/-- With room for all the bytes, they are appended in order and the command closes. -/
theorem pushAll_room {bytes : List Byte} {c : Closing} {s : State}
    (h : RoomFor s bytes.length) :
    pushAll bytes c s =
      s.withEng (closeCommand s.draw c { s.eng with out := s.eng.out ++ bytes }) := by
  induction bytes generalizing s with
  | nil => simp [pushAll]
  | cons b bs ih =>
    rw [List.length_cons] at h
    rw [pushAll, if_pos (hasRoom_of_roomFor h), ih (roomFor_outPush b h)]
    simp [outPush]

/-- Everything pushing can do: all bytes go out and the command closes, or a first part goes out, OUT
is full, and the command waits with the rest. -/
theorem pushAll_cases (bytes : List Byte) (c : Closing) (s : State) :
    (pushAll bytes c s =
      s.withEng (closeCommand s.draw c { s.eng with out := s.eng.out ++ bytes })) ∨
    (∃ (done rest : List Byte) (d : OutDepth), bytes = done ++ rest ∧ rest ≠ [] ∧
      s.build.outDepth = some d ∧ d.entries ≤ (s.eng.out ++ done).length ∧
      (done = [] ∨ (s.eng.out ++ done).length = d.entries) ∧
      pushAll bytes c s = s.withEng { s.eng with
        out := s.eng.out ++ done, inflight := some { rest := rest, closing := c } }) := by
  induction bytes generalizing s with
  | nil => exact .inl (by simp [pushAll])
  | cons b bs ih =>
    by_cases hr : hasRoom s = true
    · rw [pushAll, if_pos hr]
      rcases ih (outPush b s) with h | ⟨done, rest, d, h1, h2, h3, h4, h5, h6⟩
      · exact .inl (by rw [h]; simp [outPush])
      · refine .inr ⟨b :: done, rest, d, by simp [h1], h2, h3, by simpa using h4, .inr ?_,
          by rw [h6]; simp [outPush]⟩
        rcases h5 with h5 | h5
        · subst h5
          simp only [outPush_build] at h3
          simp only [hasRoom, h3, decide_eq_true_eq] at hr
          simp at h4 ⊢
          omega
        · simpa using h5
    · rw [pushAll, if_neg hr]
      have hd : ∃ d, s.build.outDepth = some d ∧ d.entries ≤ s.eng.out.length := by
        unfold hasRoom at hr
        split at hr
        · simp at hr
        · next d hd => exact ⟨d, hd, by simpa using hr⟩
      obtain ⟨d, hd, hle⟩ := hd
      exact .inr ⟨[], b :: bs, d, rfl, by simp, hd, by simpa using hle, .inl rfl, by simp⟩

@[simp] theorem closeCommand_out (draw : Nat) (c : Closing) (e : Engine) :
    (closeCommand draw c e).out = e.out := by cases c <;> rfl
@[simp] theorem closeCommand_inflight (draw : Nat) (c : Closing) (e : Engine) :
    (closeCommand draw c e).inflight = none := by cases c <;> rfl

end Sys2Proof.Machine
end

