-- ==== Sys2Proof/Laws/Tree.lean ====
section
/-! SUPPORT. The tree builder against trees as data: what the node store and the queue hold at each
stage of BUILD_TREE (R110 to R120). -/

namespace Sys2Proof.Machine

/-- A Huffman tree as data. -/
inductive HTree where
  | leaf (s : Byte) (c : BitVec 32)
  | node (l r : HTree)

namespace HTree

/-- A leaf's count, or the sum of both sides. -/
def weight : HTree → Nat
  | .leaf _ c => c.toNat
  | .node l r => l.weight + r.weight

/-- The symbols of the leaves, left to right. -/
def leaves : HTree → List Byte
  | .leaf s _ => [s]
  | .node l r => l.leaves ++ r.leaves

/-- The nodes of the longest path. -/
def height : HTree → Nat
  | .leaf _ _ => 1
  | .node l r => max l.height r.height + 1

end HTree

/-- The node store holds the tree `t` at index `i`, children below their parent. -/
def Rep (nodes : Vector Node 511) : HTree → NodeIx → Prop
  | .leaf s c, i => nodes[i] = leafNode s c
  | .node l r, i => ∃ a b : NodeIx,
      nodes[i] = { valid := true, internal := true, sym := 0#8,
                   weight := BitVec.ofNat 32 (l.weight + r.weight),
                   left := BitVec.ofNat 9 a.val, right := BitVec.ofNat 9 b.val } ∧
      a < i ∧ b < i ∧ Rep nodes l a ∧ Rep nodes r b

theorem rep_set {nodes : Vector Node 511} {t : HTree} {i : NodeIx} {k : Nat} (hk : k < 511)
    (n : Node) (hi : i.val < k) (h : Rep nodes t i) : Rep (nodes.set k n) t i := by
  induction t generalizing i with
  | leaf s c =>
    unfold Rep at h ⊢
    rw [← h, Fin.getElem_fin, Fin.getElem_fin, Vector.getElem_set_ne _ _ (by omega)]
  | node l r ihl ihr =>
    obtain ⟨a, b, h0, ha, hb, hl, hr⟩ := h
    refine ⟨a, b, ?_, ha, hb, ihl (by have : a.val < i.val := ha; omega) hl,
      ihr (by have : b.val < i.val := hb; omega) hr⟩
    rw [← h0, Fin.getElem_fin, Fin.getElem_fin, Vector.getElem_set_ne _ _ (by omega)]

theorem rep_weight {nodes : Vector Node 511} {t : HTree} {i : NodeIx} (h : Rep nodes t i)
    (hw : t.weight < 2 ^ 32) : weightOf nodes i = t.weight := by
  cases t with
  | leaf s c => unfold Rep at h; simp [weightOf, h, leafNode, HTree.weight]
  | node l r =>
    obtain ⟨a, b, h0, -⟩ := h
    simp only [HTree.weight] at hw ⊢
    rw [weightOf, h0, BitVec.toNat_ofNat, Nat.mod_eq_of_lt hw]

theorem rep_height {nodes : Vector Node 511} {t : HTree} {i : NodeIx} (h : Rep nodes t i) :
    t.height ≤ i.val + 1 := by
  induction t generalizing i with
  | leaf s c => simp [HTree.height]
  | node l r ihl ihr =>
    obtain ⟨a, b, -, ha, hb, hl, hr⟩ := h
    have h1 := ihl hl
    have h2 := ihr hr
    have : a.val < i.val := ha
    have : b.val < i.val := hb
    simp only [HTree.height]
    omega

/-! ### The queue as a list of trees -/

/-- `Q.insert` on trees (R111). -/
def tInsert (t : HTree) : List HTree → List HTree
  | [] => [t]
  | u :: us => if t.weight < u.weight then t :: u :: us else u :: tInsert t us

/-- The merge loop on trees (R115, R116). -/
def tMerge : Nat → List HTree → List HTree
  | n + 1, a :: b :: ts => tMerge n (tInsert (.node a b) ts)
  | _, ts => ts

/-- The leaves in insertion order (R114). -/
def tPlant (freq : Vector (BitVec 32) 256) (ps : List Byte) : List HTree :=
  ps.foldl (fun ts s => tInsert (.leaf s (symAt freq s)) ts) []

theorem tInsert_perm (t : HTree) (ts : List HTree) : (tInsert t ts).Perm (t :: ts) := by
  induction ts with
  | nil => exact .refl _
  | cons u us ih =>
    unfold tInsert
    split
    · exact .refl _
    · exact (List.Perm.cons u ih).trans (.swap t u us)

theorem tInsert_length (t : HTree) (ts : List HTree) : (tInsert t ts).length = ts.length + 1 :=
  (tInsert_perm t ts).length_eq

/-- The weights of a queue. -/
def totalWeight (ts : List HTree) : Nat := (ts.map HTree.weight).sum

theorem totalWeight_perm {ts us : List HTree} (h : ts.Perm us) : totalWeight ts = totalWeight us :=
  (h.map _).sum_eq

theorem weight_le_total {t : HTree} {ts : List HTree} (h : t ∈ ts) : t.weight ≤ totalWeight ts :=
  List.le_sum_of_mem (List.mem_map_of_mem h)

/-- In ascending order of weight (R110). -/
def Ascending (ts : List HTree) : Prop := ts.Pairwise fun a b => a.weight ≤ b.weight

theorem ascending_tInsert {t : HTree} {ts : List HTree} (h : Ascending ts) :
    Ascending (tInsert t ts) := by
  induction ts with
  | nil => exact List.pairwise_singleton _ _
  | cons u us ih =>
    obtain ⟨h1, h2⟩ := List.pairwise_cons.mp h
    unfold tInsert
    split
    · next hlt =>
      refine List.pairwise_cons.mpr ⟨fun x hx => ?_, h⟩
      rcases List.mem_cons.mp hx with rfl | hx
      · omega
      · have := h1 x hx; omega
    · next hge =>
      refine List.pairwise_cons.mpr ⟨fun x hx => ?_, ih h2⟩
      rcases List.mem_cons.mp ((tInsert_perm t us).subset hx) with rfl | hx
      · omega
      · exact h1 x hx

/-- Where a tree lands in an ascending queue: after every weight up to its own (R111). -/
theorem tInsert_split {t : HTree} {ts : List HTree} (h : Ascending ts) :
    ∃ before after, ts = before ++ after ∧ tInsert t ts = before ++ t :: after ∧
      (∀ u ∈ before, u.weight ≤ t.weight) ∧ (∀ u ∈ after, t.weight < u.weight) := by
  induction ts with
  | nil => exact ⟨[], [], rfl, rfl, by simp, by simp⟩
  | cons u us ih =>
    obtain ⟨h1, h2⟩ := List.pairwise_cons.mp h
    unfold tInsert
    split
    · next hlt =>
      refine ⟨[], u :: us, rfl, rfl, by simp, fun x hx => ?_⟩
      rcases List.mem_cons.mp hx with rfl | hx
      · exact hlt
      · have := h1 x hx; omega
    · next hge =>
      obtain ⟨bf, af, e1, e2, e3, e4⟩ := ih h2
      refine ⟨u :: bf, af, by simp [e1], by simp [e2], fun x hx => ?_, e4⟩
      rcases List.mem_cons.mp hx with rfl | hx
      · omega
      · exact e3 x hx

theorem tMerge_length (n : Nat) (ts : List HTree) :
    (tMerge n ts).length = if ts = [] then 0 else max 1 (ts.length - n) := by
  induction n generalizing ts with
  | zero => cases ts <;> simp [tMerge]
  | succ n ih =>
    match ts with
    | [] => simp [tMerge]
    | [a] => simp [tMerge]
    | a :: b :: ts =>
      rw [tMerge, ih]
      have hne : tInsert (.node a b) ts ≠ [] := by
        intro h
        have := tInsert_length (.node a b) ts
        simp [h] at this
      simp only [hne, if_false, tInsert_length, List.length_cons]
      split
      · simp_all
      · omega

theorem tMerge_totalWeight (n : Nat) (ts : List HTree) :
    totalWeight (tMerge n ts) = totalWeight ts := by
  induction n generalizing ts with
  | zero => cases ts <;> rfl
  | succ n ih =>
    match ts with
    | [] => rfl
    | [a] => rfl
    | a :: b :: ts =>
      rw [tMerge, ih, totalWeight_perm (tInsert_perm _ _)]
      simp only [totalWeight, List.map_cons, List.sum_cons, HTree.weight]
      omega

theorem tMerge_leaves (n : Nat) (ts : List HTree) :
    ((tMerge n ts).flatMap HTree.leaves).Perm (ts.flatMap HTree.leaves) := by
  induction n generalizing ts with
  | zero => cases ts <;> exact .refl _
  | succ n ih =>
    match ts with
    | [] => exact .refl _
    | [a] => exact .refl _
    | a :: b :: ts =>
      rw [tMerge]
      refine (ih _).trans (((tInsert_perm _ _).flatMap_right _).trans ?_)
      simp [HTree.leaves, List.flatMap_cons]

theorem tPlant_snoc (freq : Vector (BitVec 32) 256) (ps : List Byte) (s : Byte) :
    tPlant freq (ps ++ [s]) = tInsert (.leaf s (symAt freq s)) (tPlant freq ps) := by
  simp [tPlant, List.foldl_append]

theorem tPlant_perm (freq : Vector (BitVec 32) 256) (ps : List Byte) :
    (tPlant freq ps).Perm (ps.map fun s => .leaf s (symAt freq s)) := by
  induction ps using List.reverseRecOn with
  | nil => exact .refl _
  | append_singleton ps s ih =>
    rw [tPlant_snoc]
    refine (tInsert_perm _ _).trans ?_
    rw [List.map_append]
    exact (List.Perm.cons _ ih).trans (List.perm_append_singleton _ _).symm

theorem tPlant_ascending (freq : Vector (BitVec 32) 256) (ps : List Byte) :
    Ascending (tPlant freq ps) := by
  induction ps using List.reverseRecOn with
  | nil => exact List.Pairwise.nil
  | append_singleton ps s ih => rw [tPlant_snoc]; exact ascending_tInsert ih

theorem tPlant_length (freq : Vector (BitVec 32) 256) (ps : List Byte) :
    (tPlant freq ps).length = ps.length := by simpa using (tPlant_perm freq ps).length_eq

/-! ### The forge -/

/-- What the forge holds: the queue is the list of trees `ts`, the leaves of `ps` stand in the first
entries, merges in the entries after them, and each entry below `k` is in the queue or is the child of
one merge. -/
structure Grove (freq : Vector (BitVec 32) 256) (ps : List Byte) (f : Forge) (ts : List HTree) :
    Prop where
  reps : List.Forall₂ (fun x t => Rep f.nodes t x) f.q ts
  bound : totalWeight ts < 2 ^ 32
  links : (f.q.map Fin.val ++ childLinks f.nodes f.k).Perm (List.range f.k)
  count : f.k + ts.length = 2 * ps.length
  planted : ps.length ≤ f.k
  few : ps.length ≤ 256
  fresh : ∀ (i : Nat) (h : i < 511), f.k ≤ i → f.nodes[i] = Node.empty
  leafs : ∀ (i : Nat) (h : i < ps.length) (h' : i < 511),
    f.nodes[i] = leafNode ps[i] (symAt freq ps[i])
  inner : ∀ (i : Nat) (h : i < 511), ps.length ≤ i → i < f.k →
    f.nodes[i].valid = true ∧ f.nodes[i].internal = true ∧
    ∃ a b : NodeIx, f.nodes[i].left = BitVec.ofNat 9 a.val ∧
      f.nodes[i].right = BitVec.ofNat 9 b.val ∧ a.val < i ∧ b.val < i ∧
      f.nodes[i].weight.toNat = weightOf f.nodes a + weightOf f.nodes b ∧
      weightOf f.nodes a + weightOf f.nodes b ≤ totalWeight ts

theorem childLinks_succ (nodes : Vector Node 511) (k : Nat) :
    childLinks nodes (k + 1) = childLinks nodes k ++ linksAt nodes k := by
  simp [childLinks, List.range_succ, List.flatMap_append]

theorem childLinks_set (nodes : Vector Node 511) (k j : Nat) (h : j < 511) (n : Node)
    (hk : k ≤ j) : childLinks (nodes.set j n) k = childLinks nodes k := by
  unfold childLinks
  rw [List.flatMap_congr]
  intro i hi
  rw [List.mem_range] at hi
  unfold linksAt
  rw [Vector.getElem?_set_ne h (by omega)]

theorem insert_reps {nodes : Vector Node 511} {q : List NodeIx} {ts : List HTree} {x : NodeIx}
    {t : HTree} (h : List.Forall₂ (fun x t => Rep nodes t x) q ts) (hx : Rep nodes t x)
    (ht : t.weight < 2 ^ 32) (hts : ∀ u ∈ ts, u.weight < 2 ^ 32) :
    List.Forall₂ (fun x t => Rep nodes t x) (qInsert nodes x q) (tInsert t ts) := by
  induction h with
  | nil => exact .cons hx .nil
  | @cons y u ys us hy hys ih =>
    unfold qInsert tInsert
    rw [rep_weight hx ht, rep_weight hy (hts u (by simp))]
    split
    · exact .cons hx (.cons hy hys)
    · exact .cons hy (ih fun v hv => hts v (by simp [hv]))

/-- Every queued index is below `k`. -/
theorem Grove.queued_lt {freq : Vector (BitVec 32) 256} {ps : List Byte} {f : Forge}
    {ts : List HTree} (g : Grove freq ps f ts) {x : NodeIx} (hx : x ∈ f.q) : x.val < f.k := by
  have : x.val ∈ f.q.map Fin.val ++ childLinks f.nodes f.k :=
    List.mem_append_left _ (List.mem_map_of_mem hx)
  simpa using g.links.subset this

theorem Grove.reps_set {freq : Vector (BitVec 32) 256} {ps : List Byte} {f : Forge}
    {ts : List HTree} (g : Grove freq ps f ts) (hk : f.k < 511) (n : Node) {q : List NodeIx}
    {us : List HTree} (hq : ∀ x ∈ q, x ∈ f.q)
    (h : List.Forall₂ (fun x t => Rep f.nodes t x) q us) :
    List.Forall₂ (fun x t => Rep (f.nodes.set f.k n) t x) q us := by
  induction h with
  | nil => exact .nil
  | @cons y u ys us hy hys ih =>
    exact .cons (rep_set hk n (g.queued_lt (hq y (by simp))) hy)
      (ih fun x hx => hq x (by simp [hx]))

theorem weightOf_set {nodes : Vector Node 511} {k : Nat} (hk : k < 511) (n : Node) {x : NodeIx}
    (hx : x.val < k) : weightOf (nodes.set k n) x = weightOf nodes x := by
  unfold weightOf
  rw [Fin.getElem_fin, Fin.getElem_fin, Vector.getElem_set_ne _ _ (by omega)]

/-- One merge (R115, R116). -/
theorem Grove.merge {freq : Vector (BitVec 32) 256} {ps : List Byte} {f : Forge} {ts : List HTree}
    {t u : HTree} {a b : NodeIx} {q : List NodeIx} (draw : Nat) (hq : f.q = a :: b :: q)
    (g : Grove freq ps f (t :: u :: ts)) :
    Grove freq ps ({ f with q := q }.add (mergedNode draw f.nodes a b))
      (tInsert (.node t u) ts) := by
  have hreps := g.reps
  rw [hq] at hreps
  obtain ⟨ha, hb, hrest⟩ : Rep f.nodes t a ∧ Rep f.nodes u b ∧
      List.Forall₂ (fun x t => Rep f.nodes t x) q ts := by
    cases hreps with
    | cons h1 h2 => cases h2 with
      | cons h3 h4 => exact ⟨h1, h3, h4⟩
  have hb0 := g.bound
  simp only [totalWeight, List.map_cons, List.sum_cons] at hb0
  have hcount := g.count
  simp only [List.length_cons] at hcount
  have hk : f.k < 511 := by have := g.few; omega
  have hak := g.queued_lt (x := a) (by simp [hq])
  have hbk := g.queued_lt (x := b) (by simp [hq])
  have hwt : weightOf f.nodes a = t.weight := rep_weight ha (by omega)
  have hwu : weightOf f.nodes b = u.weight := rep_weight hb (by omega)
  have hN : mergedNode draw f.nodes a b =
      { valid := true, internal := true, sym := 0#8,
        weight := BitVec.ofNat 32 (t.weight + u.weight),
        left := BitVec.ofNat 9 a.val, right := BitVec.ofNat 9 b.val } := by
    unfold mergedNode
    rw [hwt, hwu, narrow_of_lt (by omega)]
  set N := mergedNode draw f.nodes a b with hNdef
  have hadd : ({ f with q := q }.add N : Forge) =
      { nodes := f.nodes.set f.k N, q := qInsert (f.nodes.set f.k N) ⟨f.k, hk⟩ q,
        k := f.k + 1 } := by
    simp [Forge.add, hk]
  rw [hadd]
  have hrepN : Rep (f.nodes.set f.k N) (.node t u) ⟨f.k, hk⟩ := by
    refine ⟨a, b, ?_, hak, hbk, rep_set hk _ hak ha, rep_set hk _ hbk hb⟩
    rw [Fin.getElem_fin, Vector.getElem_set_self, hN]
  have htw : totalWeight (tInsert (.node t u) ts) = totalWeight (t :: u :: ts) := by
    rw [totalWeight_perm (tInsert_perm _ _)]
    simp only [totalWeight, List.map_cons, List.sum_cons, HTree.weight]
    omega
  refine
    { reps := ?_, bound := by rw [htw]; exact g.bound, links := ?_, count := ?_,
      planted := by have := g.planted; show _ ≤ f.k + 1; omega
      few := g.few, fresh := ?_, leafs := ?_, inner := ?_ }
  · refine insert_reps (g.reps_set hk N (fun x hx => by simp [hq, hx]) hrest) hrepN
      (by simp only [HTree.weight]; omega) fun v hv => ?_
    have := weight_le_total hv
    simp only [totalWeight] at this
    omega
  · show ((qInsert _ _ q).map Fin.val ++ childLinks (f.nodes.set f.k N) (f.k + 1)).Perm _
    rw [childLinks_succ, childLinks_set _ _ _ hk _ (le_refl _), linksAt, Vector.getElem?_set_self]
    simp only [hN, if_true, BitVec.toNat_ofNat]
    have e1 : a.val % 2 ^ 9 = a.val := Nat.mod_eq_of_lt (by have := a.isLt; omega)
    have e2 : b.val % 2 ^ 9 = b.val := Nat.mod_eq_of_lt (by have := b.isLt; omega)
    rw [e1, e2, List.range_succ]
    have hl := g.links
    rw [hq] at hl
    refine (((qInsert_perm _ _ q).map Fin.val).append_right _).trans ?_
    refine List.Perm.trans ?_ ((hl.append_right [f.k]))
    simp only [List.map_cons, List.cons_append]
    generalize q.map Fin.val = Q
    generalize childLinks f.nodes f.k = C
    rw [List.perm_iff_count]
    intro z
    simp only [List.count_cons, List.count_append, List.count_nil]
    omega
  · simp only [tInsert_length]; omega
  · intro i hi hki
    have hki' : f.k + 1 ≤ i := hki
    rw [Vector.getElem_set_ne _ _ (by omega)]
    exact g.fresh i hi (by omega)
  · intro i hi h'
    have : i < f.k := by have := g.planted; omega
    rw [Vector.getElem_set_ne _ _ (by omega)]
    exact g.leafs i hi h'
  · intro i hi h1 h2
    have h2' : i < f.k + 1 := h2
    rw [htw]
    by_cases hik : i = f.k
    · subst hik
      rw [Vector.getElem_set_self]
      refine ⟨by rw [hN], by rw [hN], a, b, by rw [hN], by rw [hN], hak, hbk, ?_, ?_⟩
      · rw [weightOf_set hk _ hak, weightOf_set hk _ hbk, hwt, hwu, hN]
        show (BitVec.ofNat 32 (t.weight + u.weight)).toNat = _
        rw [BitVec.toNat_ofNat, Nat.mod_eq_of_lt (by omega)]
      · rw [weightOf_set hk _ hak, weightOf_set hk _ hbk, hwt, hwu]
        simp only [totalWeight, List.map_cons, List.sum_cons]
        omega
    · rw [Vector.getElem_set_ne _ _ (by omega)]
      obtain ⟨c1, c2, a', b', c3, c4, c5, c6, c7, c8⟩ := g.inner i hi h1 (by omega)
      refine ⟨c1, c2, a', b', c3, c4, c5, c6, ?_, ?_⟩
      · rw [weightOf_set (x := a') hk _ (by omega), weightOf_set (x := b') hk _ (by omega)]
        exact c7
      · rw [weightOf_set (x := a') hk _ (by omega), weightOf_set (x := b') hk _ (by omega)]
        exact c8

/-- The merge loop (R115, R120). -/
theorem Grove.mergeLoop {freq : Vector (BitVec 32) 256} {ps : List Byte} {f : Forge}
    {ts : List HTree} (draw : Nat) (n : Nat) (g : Grove freq ps f ts) :
    Grove freq ps (mergeLoop draw n f) (tMerge n ts) := by
  induction n generalizing f ts with
  | zero => cases ts <;> exact g
  | succ n ih =>
    have hr := g.reps
    match ts, hq : f.q with
    | [], _ => rw [hq] at hr; cases hr; simpa [Machine.mergeLoop, hq, qRemoveMin, tMerge] using g
    | [t], q =>
      rw [hq] at hr
      cases hr with
      | cons h1 h2 => cases h2; simpa [Machine.mergeLoop, hq, qRemoveMin, tMerge] using g
    | t :: u :: ts, q =>
      rw [hq] at hr
      cases hr with
      | cons h1 h2 => cases h2 with
        | cons h3 h4 =>
          rw [tMerge]
          simp only [Machine.mergeLoop, hq, qRemoveMin]
          exact ih (g.merge draw hq)

/-! ### Planting the leaves -/

/-- The forge while the leaves are planted: no merge yet. -/
structure Planted (freq : Vector (BitVec 32) 256) (ps : List Byte) (f : Forge) : Prop where
  size : f.k = ps.length
  reps : List.Forall₂ (fun x t => Rep f.nodes t x) f.q (tPlant freq ps)
  queued : (f.q.map Fin.val).Perm (List.range f.k)
  fresh : ∀ (i : Nat) (h : i < 511), f.k ≤ i → f.nodes[i] = Node.empty
  leafs : ∀ (i : Nat) (h : i < ps.length) (h' : i < 511),
    f.nodes[i] = leafNode ps[i] (symAt freq ps[i])

theorem Planted.add {freq : Vector (BitVec 32) 256} {ps : List Byte} {f : Forge} (s : Byte)
    (p : Planted freq ps f) (hlen : ps.length < 256) :
    Planted freq (ps ++ [s]) (f.add (leafNode s (symAt freq s))) := by
  have hk : f.k < 511 := by rw [p.size]; omega
  have hlt : ∀ x ∈ f.q, x.val < f.k := fun x hx => by
    simpa using p.queued.subset (List.mem_map_of_mem hx)
  simp only [Forge.add, hk, dif_pos]
  set N := leafNode s (symAt freq s)
  have hset : List.Forall₂ (fun x t => Rep (f.nodes.set f.k N) t x) f.q (tPlant freq ps) := by
    have hr := p.reps
    revert hlt
    generalize f.q = q at hr
    generalize tPlant freq ps = ts at hr
    intro hlt
    induction hr with
    | nil => exact .nil
    | @cons y u ys us hy hys ih =>
      exact .cons (rep_set hk N (hlt y (by simp)) hy) (ih fun x hx => hlt x (by simp [hx]))
  refine { size := by simp [p.size], reps := ?_, queued := ?_, fresh := ?_, leafs := ?_ }
  · rw [tPlant_snoc]
    refine insert_reps hset ?_ ?_ ?_
    · show (f.nodes.set f.k N)[(⟨f.k, hk⟩ : NodeIx)] = _
      rw [Fin.getElem_fin, Vector.getElem_set_self]
    · exact (symAt freq s).isLt
    · intro u hu
      obtain ⟨x, -, rfl⟩ := List.mem_map.mp ((tPlant_perm freq ps).subset hu)
      exact (symAt freq x).isLt
  · refine ((qInsert_perm _ _ _).map Fin.val).trans ?_
    rw [List.range_succ, List.map_cons]
    exact (List.Perm.cons _ p.queued).trans (List.perm_append_singleton _ _).symm
  · intro i hi hki
    have hki' : f.k + 1 ≤ i := hki
    rw [Vector.getElem_set_ne _ _ (by omega)]
    exact p.fresh i hi (by omega)
  · intro i hi h'
    by_cases hik : i = f.k
    · subst hik
      rw [Vector.getElem_set_self]
      simp [p.size, N]
    · have hi' : i < ps.length := by
        have := p.size
        simp only [List.length_append, List.length_singleton] at hi
        omega
      rw [Vector.getElem_set_ne _ _ (by omega), List.getElem_append_left hi']
      exact p.leafs i hi' h'

theorem planted_foldl {freq : Vector (BitVec 32) 256} (rest : List Byte) {ps : List Byte}
    {f : Forge} (p : Planted freq ps f)
    (hlen : (ps ++ rest.filter fun s => symAt freq s != 0#32).length ≤ 256) :
    Planted freq (ps ++ rest.filter fun s => symAt freq s != 0#32)
      (rest.foldl (Forge.addLeaf freq) f) := by
  induction rest generalizing ps f with
  | nil => simpa using p
  | cons s rest ih =>
    rw [List.foldl_cons]
    by_cases hs : symAt freq s = 0#32
    · have e : (s :: rest).filter (fun s => symAt freq s != 0#32) =
          rest.filter fun s => symAt freq s != 0#32 := by simp [hs]
      rw [e] at hlen ⊢
      have : Forge.addLeaf freq f s = f := by simp [Forge.addLeaf, hs]
      rw [this]
      exact ih p hlen
    · have e : (s :: rest).filter (fun s => symAt freq s != 0#32) =
          s :: rest.filter fun s => symAt freq s != 0#32 := by simp [hs]
      rw [e] at hlen ⊢
      have : Forge.addLeaf freq f s = f.add (leafNode s (symAt freq s)) := by
        simp [Forge.addLeaf, hs]
      rw [this]
      have hl : ps.length < 256 := by
        simp only [List.length_append, List.length_cons] at hlen; omega
      have := ih (p.add s hl) (by simpa using hlen)
      simpa using this

theorem presentSymbols_length_le (freq : Vector (BitVec 32) 256) :
    (presentSymbols freq).length ≤ 256 := by
  have := List.length_filter_le (fun s => symAt freq s != 0#32) symbols
  rwa [symbols_length] at this

theorem presentSymbols_nodup (freq : Vector (BitVec 32) 256) : (presentSymbols freq).Nodup :=
  symbols_nodup.filter _

theorem mem_presentSymbols {freq : Vector (BitVec 32) 256} {s : Byte} :
    s ∈ presentSymbols freq ↔ symAt freq s ≠ 0#32 := by
  simp [presentSymbols, mem_symbols]

theorem plantLeaves_planted (freq : Vector (BitVec 32) 256) :
    Planted freq (presentSymbols freq) (plantLeaves emptyNodes freq) := by
  have h0 : Planted freq [] { nodes := emptyNodes, q := [], k := 0 } :=
    { size := rfl, reps := .nil, queued := .refl _, fresh := by simp [emptyNodes],
      leafs := by simp }
  have := planted_foldl symbols h0 (by
    rw [List.nil_append]; exact presentSymbols_length_le freq)
  simpa [plantLeaves, presentSymbols] using this

/-- The counts of the present symbols add up to the sum of FREQ. -/
theorem totalWeight_plant (freq : Vector (BitVec 32) 256) :
    totalWeight (tPlant freq (presentSymbols freq)) = countSum freq := by
  rw [totalWeight_perm (tPlant_perm _ _)]
  simp only [totalWeight, List.map_map, presentSymbols, countSum]
  induction symbols with
  | nil => rfl
  | cons s rest ih =>
    by_cases hs : symAt freq s = 0#32
    · simp [hs] at ih ⊢; exact ih
    · simp only [List.filter_cons, bne_iff_ne, ne_eq, hs, not_false_eq_true, if_true, List.map_cons,
        List.sum_cons, Function.comp, HTree.weight]
      simpa [Function.comp, HTree.weight] using ih

theorem plantLeaves_grove {freq : Vector (BitVec 32) 256} (hw : countSum freq < 2 ^ 32) :
    Grove freq (presentSymbols freq) (plantLeaves emptyNodes freq)
      (tPlant freq (presentSymbols freq)) := by
  have p := plantLeaves_planted freq
  have hnl : childLinks (plantLeaves emptyNodes freq).nodes (plantLeaves emptyNodes freq).k = [] := by
    unfold childLinks
    rw [List.flatMap_eq_nil_iff]
    intro i hi
    rw [List.mem_range, p.size] at hi
    have h' : i < 511 := by have := presentSymbols_length_le freq; omega
    rw [linksAt, Vector.getElem?_eq_getElem h', p.leafs i hi h']
    simp [leafNode]
  refine
    { reps := p.reps, bound := by rw [totalWeight_plant]; exact hw, links := ?_, count := ?_,
      planted := p.size.ge, few := presentSymbols_length_le freq, fresh := p.fresh, leafs := p.leafs,
      inner := ?_ }
  · rw [hnl, List.append_nil]; exact p.queued
  · rw [p.size, tPlant_length]; omega
  · intro i hi h1 h2
    rw [p.size] at h2
    omega

/-- The tree BUILD_TREE makes of a frequency table, as a list with that one tree. -/
def tBuild (freq : Vector (BitVec 32) 256) : List HTree :=
  tMerge (presentSymbols freq).length (tPlant freq (presentSymbols freq))

/-- What the forge holds at the end of BUILD_TREE (R115, R118, R120). -/
theorem forgeTree_grove {freq : Vector (BitVec 32) 256} (draw : Nat) (hw : countSum freq < 2 ^ 32) :
    Grove freq (presentSymbols freq) (forgeTree draw emptyNodes freq) (tBuild freq) := by
  have g := plantLeaves_grove hw
  have e : (plantLeaves emptyNodes freq).q.length = (presentSymbols freq).length := by
    rw [g.reps.length_eq, tPlant_length]
  unfold forgeTree tBuild
  simp only [e]
  exact g.mergeLoop draw _

theorem tBuild_length {freq : Vector (BitVec 32) 256} (h : presentSymbols freq ≠ []) :
    (tBuild freq).length = 1 := by
  have hp : tPlant freq (presentSymbols freq) ≠ [] := by
    intro h'
    have := tPlant_length freq (presentSymbols freq)
    rw [h'] at this
    exact h (List.length_eq_zero_iff.mp (by simpa using this.symm))
  rw [tBuild, tMerge_length, if_neg hp, tPlant_length]
  omega

/-- At the end of BUILD_TREE one tree is left, and the store holds it at the queue's one entry. -/
theorem forgeTree_one {freq : Vector (BitVec 32) 256} (draw : Nat) (hw : countSum freq < 2 ^ 32)
    (h : presentSymbols freq ≠ []) :
    ∃ (t : HTree) (x : NodeIx), tBuild freq = [t] ∧ (forgeTree draw emptyNodes freq).q = [x] ∧
      Rep (forgeTree draw emptyNodes freq).nodes t x ∧
      (forgeTree draw emptyNodes freq).k = 2 * (presentSymbols freq).length - 1 ∧
      t.weight = countSum freq ∧ t.leaves.Perm (presentSymbols freq) := by
  have g := forgeTree_grove draw hw
  obtain ⟨t, ht⟩ := List.length_eq_one_iff.mp (tBuild_length h)
  have hr := g.reps
  have hc := g.count
  rw [ht] at hr hc
  have hq : ∃ x, (forgeTree draw emptyNodes freq).q = [x] ∧
      Rep (forgeTree draw emptyNodes freq).nodes t x := by
    generalize (forgeTree draw emptyNodes freq).q = q at hr
    cases hr with
    | cons h1 h2 => cases h2; exact ⟨_, rfl, h1⟩
  obtain ⟨x, hx, hrep⟩ := hq
  refine ⟨t, x, ht, hx, hrep, by simp at hc; omega, ?_, ?_⟩
  · have := tMerge_totalWeight (presentSymbols freq).length (tPlant freq (presentSymbols freq))
    rw [totalWeight_plant] at this
    rw [tBuild] at ht
    rw [ht] at this
    simpa [totalWeight] using this
  · have := tMerge_leaves (presentSymbols freq).length (tPlant freq (presentSymbols freq))
    rw [tBuild] at ht
    rw [ht] at this
    refine (by simpa using this : t.leaves.Perm _).trans ?_
    refine ((tPlant_perm _ _).flatMap_right _).trans ?_
    rw [List.flatMap_map]
    simp only [HTree.leaves, List.flatMap_singleton']
    exact .refl _

end Sys2Proof.Machine
end

