-- ==== Sys2Proof/Laws/Codes.lean ====
section
/-! SUPPORT. The code table against trees as data: what the walk of BUILD_CODES assigns (R130 to R136),
and what the serializer emits (R140, R145). -/

namespace Sys2Proof.Machine

/-! ### Bit strings -/

/-- The right-aligned value of a code, `val(c)` (R9). -/
def bitsVal (bits : List Bool) : Nat := bits.foldl (fun v b => 2 * v + b.toNat) 0

theorem bitsVal_snoc (bits : List Bool) (b : Bool) :
    bitsVal (bits ++ [b]) = 2 * bitsVal bits + b.toNat := by simp [bitsVal, List.foldl_append]

theorem bitsVal_lt (bits : List Bool) : bitsVal bits < 2 ^ bits.length := by
  induction bits using List.reverseRecOn with
  | nil => simp [bitsVal]
  | append_singleton bits b ih =>
    rw [bitsVal_snoc, List.length_append, List.length_singleton, Nat.pow_succ]
    cases b <;> simp <;> omega

theorem codeBits_length (len v : Nat) : (codeBits len v).length = len := by simp [codeBits]

/-- The last bit of a code of `len + 1` bits is the value's bit 0. -/
theorem codeBits_succ (len v : Nat) : codeBits (len + 1) v = codeBits len (v / 2) ++ [v.testBit 0] := by
  unfold codeBits
  rw [List.range_succ, List.map_append, List.map_singleton]
  congr 1
  · refine List.map_congr_left fun i hi => ?_
    rw [List.mem_range] at hi
    rw [← Nat.testBit_succ]
    congr 1
    omega
  · simp

/-- Reading a code's value back gives the code (R9). -/
theorem codeBits_bitsVal (bits : List Bool) : codeBits bits.length (bitsVal bits) = bits := by
  induction bits using List.reverseRecOn with
  | nil => rfl
  | append_singleton bits b ih =>
    rw [List.length_append, List.length_singleton, codeBits_succ, bitsVal_snoc]
    have h1 : (2 * bitsVal bits + b.toNat) / 2 = bitsVal bits := by cases b <;> simp; omega
    have h2 : (2 * bitsVal bits + b.toNat).testBit 0 = b := by
      cases b <;> simp [Nat.testBit_zero]
    rw [h1, h2, ih]

/-! ### The codes of a tree -/

/-- The root-to-leaf paths of a tree, each after `path`, leaves left to right (R130). -/
def HTree.codes : HTree → List Bool → List (Byte × List Bool)
  | .leaf s _, path => [(s, path)]
  | .node l r, path => l.codes (path ++ [false]) ++ r.codes (path ++ [true])

theorem codes_keys (t : HTree) (path : List Bool) : (t.codes path).map Prod.fst = t.leaves := by
  induction t generalizing path with
  | leaf s c => rfl
  | node l r ihl ihr => simp [HTree.codes, HTree.leaves, ihl, ihr]

theorem leaves_pos (t : HTree) : 1 ≤ t.leaves.length := by
  induction t with
  | leaf s c => simp [HTree.leaves]
  | node l r ihl ihr => simp only [HTree.leaves, List.length_append]; omega

/-- A path continues the path it started from, and passes fewer internal nodes than there are leaves
(R134). -/
theorem codes_path {t : HTree} {path : List Bool} {p : Byte × List Bool} (h : p ∈ t.codes path) :
    path <+: p.2 ∧ p.2.length + 1 ≤ path.length + t.leaves.length := by
  induction t generalizing path with
  | leaf s c =>
    obtain rfl : p = (s, path) := by simpa [HTree.codes] using h
    exact ⟨List.prefix_rfl, by simp [HTree.leaves]⟩
  | node l r ihl ihr =>
    have hl := leaves_pos l
    have hr := leaves_pos r
    rcases List.mem_append.mp h with h | h
    · obtain ⟨h1, h2⟩ := ihl h
      refine ⟨(List.prefix_append _ _).trans h1, ?_⟩
      simp only [List.length_append, List.length_singleton, HTree.leaves] at h2 ⊢
      omega
    · obtain ⟨h1, h2⟩ := ihr h
      refine ⟨(List.prefix_append _ _).trans h1, ?_⟩
      simp only [List.length_append, List.length_singleton, HTree.leaves] at h2 ⊢
      omega

theorem not_both_sides {path bits : List Bool} (h0 : path ++ [false] <+: bits)
    (h1 : path ++ [true] <+: bits) : False := by
  have := List.prefix_of_prefix_length_le h0 h1 (by simp)
  have := this.eq_of_length (by simp)
  simp at this

/-- No code is a prefix of another leaf's code (R135). -/
theorem codes_apart {t : HTree} {path : List Bool} (hn : t.leaves.Nodup) {p q : Byte × List Bool}
    (hp : p ∈ t.codes path) (hq : q ∈ t.codes path) (hpq : p.1 ≠ q.1) : ¬ p.2 <+: q.2 := by
  induction t generalizing path with
  | leaf s c =>
    obtain rfl : p = (s, path) := by simpa [HTree.codes] using hp
    obtain rfl : q = (s, path) := by simpa [HTree.codes] using hq
    exact absurd rfl hpq
  | node l r ihl ihr =>
    have hnl : l.leaves.Nodup := (List.nodup_append.mp hn).1
    have hnr : r.leaves.Nodup := (List.nodup_append.mp hn).2.1
    rcases List.mem_append.mp hp with hp | hp <;> rcases List.mem_append.mp hq with hq | hq
    · exact ihl hnl hp hq
    · exact fun h => not_both_sides ((codes_path hp).1.trans h) (codes_path hq).1
    · exact fun h => not_both_sides (codes_path hq).1 ((codes_path hp).1.trans h)
    · exact ihr hnr hp hq

/-- Each code leads through the store from the tree's root to its symbol's leaf (R130). -/
theorem codes_pathTo {nodes : Vector Node 511} {t : HTree} {i : NodeIx} (h : Rep nodes t i)
    {path : List Bool} {p : Byte × List Bool} (hp : p ∈ t.codes path) :
    ∃ bits j n, p.2 = path ++ bits ∧ PathTo nodes (BitVec.ofNat 9 i.val) bits j ∧
      nodeAt nodes j = some n ∧ n.internal = false ∧ n.sym = p.1 := by
  have hi : (BitVec.ofNat 9 i.val).toNat = i.val := by
    rw [BitVec.toNat_ofNat, Nat.mod_eq_of_lt (by have := i.isLt; omega)]
  have hget : nodeAt nodes (BitVec.ofNat 9 i.val) = some nodes[i] := by
    rw [nodeAt, hi, Vector.getElem?_eq_getElem i.isLt]; rfl
  induction t generalizing i path with
  | leaf s c =>
    obtain rfl : p = (s, path) := by simpa [HTree.codes] using hp
    unfold Rep at h
    exact ⟨[], _, _, by simp, .here _, hget, by rw [h]; rfl, by rw [h]; rfl⟩
  | node l r ihl ihr =>
    obtain ⟨a, b, h0, -, -, hl, hr⟩ := h
    have ha : (BitVec.ofNat 9 a.val).toNat = a.val := by
      rw [BitVec.toNat_ofNat, Nat.mod_eq_of_lt (by have := a.isLt; omega)]
    have hb : (BitVec.ofNat 9 b.val).toNat = b.val := by
      rw [BitVec.toNat_ofNat, Nat.mod_eq_of_lt (by have := b.isLt; omega)]
    rcases List.mem_append.mp hp with hp | hp
    · obtain ⟨bits, j, n, e, hpt, hn⟩ := ihl hl hp ha
        (by rw [nodeAt, ha, Vector.getElem?_eq_getElem a.isLt]; rfl)
      exact ⟨false :: bits, j, n, by simp [e], .left hget (by rw [h0]) (by rw [h0]; exact hpt), hn⟩
    · obtain ⟨bits, j, n, e, hpt, hn⟩ := ihr hr hp hb
        (by rw [nodeAt, hb, Vector.getElem?_eq_getElem b.isLt]; rfl)
      exact ⟨true :: bits, j, n, by simp [e], .right hget (by rw [h0]) (by rw [h0]; exact hpt), hn⟩

/-! ### The walk -/

/-- Assign a list of codes in order. -/
def assignAll (draw : Nat) (cs : List (Byte × List Bool)) (t : CodeTable) : CodeTable :=
  cs.foldl (fun t p => t.assign draw p.1 (bitsVal p.2) p.2.length) t

theorem ofNat9_toNat (a : NodeIx) : (BitVec.ofNat 9 a.val).toNat = a.val := by
  rw [BitVec.toNat_ofNat, Nat.mod_eq_of_lt (by have := a.isLt; omega)]

theorem nodeAt_ofNat (nodes : Vector Node 511) (a : NodeIx) :
    nodeAt nodes (BitVec.ofNat 9 a.val) = some nodes[a] := by
  rw [nodeAt, ofNat9_toNat, Vector.getElem?_eq_getElem a.isLt]; rfl

/-- The walk over a tree in the store assigns the tree's codes (R130). -/
theorem walk_rep (draw : Nat) {nodes : Vector Node 511} {t : HTree} {i : NodeIx}
    (h : Rep nodes t i) {depth : Nat} (hd : t.height ≤ depth) (path : List Bool) (tab : CodeTable) :
    walk draw nodes depth (BitVec.ofNat 9 i.val) (bitsVal path) path.length tab =
      .ok (assignAll draw (t.codes path) tab) := by
  induction t generalizing i depth path tab with
  | leaf s c =>
    obtain ⟨d, rfl⟩ : ∃ d, depth = d + 1 := ⟨depth - 1, by simp [HTree.height] at hd; omega⟩
    unfold Rep at h
    simp [walk, nodeAt_ofNat, h, leafNode, assignAll, HTree.codes]
  | node l r ihl ihr =>
    obtain ⟨a, b, h0, -, -, hl, hr⟩ := h
    simp only [HTree.height] at hd
    obtain ⟨d, rfl⟩ : ∃ d, depth = d + 1 := ⟨depth - 1, by omega⟩
    have e0 : 2 * bitsVal path = bitsVal (path ++ [false]) := by simp [bitsVal_snoc]
    have e1 : 2 * bitsVal path + 1 = bitsVal (path ++ [true]) := by simp [bitsVal_snoc]
    have el : path.length + 1 = (path ++ [false]).length := by simp
    have er : path.length + 1 = (path ++ [true]).length := by simp
    have hL := ihl hl (depth := d) (by omega) (path ++ [false]) tab
    have hR := ihr hr (depth := d) (by omega) (path ++ [true])
      (assignAll draw (l.codes (path ++ [false])) tab)
    rw [← e0, ← el] at hL
    rw [← e1, ← er] at hR
    simp only [walk, nodeAt_ofNat, h0, if_true, hL, hR]
    simp [assignAll, HTree.codes, List.foldl_append]

theorem assignAll_other (draw : Nat) {cs : List (Byte × List Bool)} (t : CodeTable) {s : Byte}
    (h : s ∉ cs.map Prod.fst) :
    symAt (assignAll draw cs t).len s = symAt t.len s ∧
      symAt (assignAll draw cs t).code s = symAt t.code s := by
  induction cs generalizing t with
  | nil => exact ⟨rfl, rfl⟩
  | cons p cs ih =>
    simp only [List.map_cons, List.mem_cons, not_or] at h
    have := ih (t.assign draw p.1 (bitsVal p.2) p.2.length) h.2
    simp only [assignAll, List.foldl_cons] at this ⊢
    rw [this.1, this.2]
    simp [CodeTable.assign, symAt_setSym, h.1]

theorem assignAll_mem (draw : Nat) {cs : List (Byte × List Bool)} (t : CodeTable)
    (hn : (cs.map Prod.fst).Nodup) {p : Byte × List Bool} (hp : p ∈ cs)
    (hlen : p.2.length ≤ 255) :
    symAt (assignAll draw cs t).len p.1 = BitVec.ofNat 8 p.2.length ∧
      symAt (assignAll draw cs t).code p.1 = BitVec.ofNat 255 (bitsVal p.2) := by
  induction cs generalizing t with
  | nil => simp at hp
  | cons q cs ih =>
    rw [List.map_cons, List.nodup_cons] at hn
    rcases List.mem_cons.mp hp with rfl | hp
    · have := assignAll_other draw (t.assign draw p.1 (bitsVal p.2) p.2.length) hn.1
      simp only [assignAll, List.foldl_cons] at this ⊢
      rw [this.1, this.2]
      simp only [CodeTable.assign, symAt_setSym, if_true]
      exact ⟨narrow_of_lt (by omega),
        narrow_of_lt (lt_of_lt_of_le (bitsVal_lt _) (Nat.pow_le_pow_right (by omega) hlen))⟩
    · have := ih (t.assign draw q.1 (bitsVal q.2) q.2.length) hn.2 hp
      simpa only [assignAll, List.foldl_cons] using this

/-! ### The serializer -/

/-- Ser of a tree (R140). -/
def HTree.text : HTree → List Byte
  | .leaf s _ => [s]
  | .node l r => [Config.charOpen] ++ l.text ++ [Config.charSpace] ++ r.text ++ [Config.charClose]

theorem serialize_rep {nodes : Vector Node 511} {t : HTree} {i : NodeIx} (h : Rep nodes t i)
    {depth : Nat} (hd : t.height ≤ depth) :
    serialize nodes depth (BitVec.ofNat 9 i.val) = .ok t.text := by
  induction t generalizing i depth with
  | leaf s c =>
    obtain ⟨d, rfl⟩ : ∃ d, depth = d + 1 := ⟨depth - 1, by simp [HTree.height] at hd; omega⟩
    unfold Rep at h
    simp [serialize, nodeAt_ofNat, h, leafNode, HTree.text]
  | node l r ihl ihr =>
    obtain ⟨a, b, h0, -, -, hl, hr⟩ := h
    simp only [HTree.height] at hd
    obtain ⟨d, rfl⟩ : ∃ d, depth = d + 1 := ⟨depth - 1, by omega⟩
    simp only [serialize, nodeAt_ofNat, h0, if_true]
    rw [ihl hl (by omega), ihr hr (by omega)]
    rfl

theorem text_serText {nodes : Vector Node 511} {t : HTree} {i : NodeIx} (h : Rep nodes t i) :
    SerText nodes (BitVec.ofNat 9 i.val) t.text := by
  induction t generalizing i with
  | leaf s c =>
    unfold Rep at h
    have := SerText.leaf (nodeAt_ofNat nodes i) (by rw [h]; rfl)
    rwa [h] at this
  | node l r ihl ihr =>
    obtain ⟨a, b, h0, -, -, hl, hr⟩ := h
    exact .node (nodeAt_ofNat nodes i) (by rw [h0]) (by rw [h0]; exact ihl hl)
      (by rw [h0]; exact ihr hr)

/-- One byte per leaf, two brackets and one space per internal node (R145). -/
theorem text_length (t : HTree) : t.text.length + 3 = 4 * t.leaves.length := by
  induction t with
  | leaf s c => rfl
  | node l r ihl ihr =>
    simp only [HTree.text, HTree.leaves, List.length_append, List.length_singleton]
    omega

/-! ### The engine's tree -/

/-- The tree the engine holds after BUILD_TREE, as data. -/
theorem built_tree {e : Engine} (hb : BuiltFrom e) (hc : Counted e) :
    ∃ (t : HTree) (x : NodeIx), tBuild e.freq = [t] ∧ e.root = BitVec.ofNat 9 x.val ∧
      Rep e.nodes t x ∧ t.leaves.Perm (presentSymbols e.freq) ∧
      t.leaves.length = e.nsym.toNat ∧ (e.single = true ↔ t.leaves.length = 1) := by
  obtain ⟨draw, x, hq, hn, hr, -, hs, hz⟩ := hb
  have hw : countSum e.freq < 2 ^ 32 := by rw [← hc.total]; exact e.totalCount.isLt
  have hne : presentSymbols e.freq ≠ [] := by
    intro h
    have := hc.nsym
    rw [h] at this
    exact hz (BitVec.eq_of_toNat_eq (by simpa using this))
  obtain ⟨t, y, ht, hy, hrep, -, -, hperm⟩ := forgeTree_one draw hw hne
  rw [hy] at hq
  obtain rfl : y = x := by simpa [qPeekMin] using hq
  have hl : t.leaves.length = e.nsym.toNat := by rw [hperm.length_eq, hc.nsym]
  refine ⟨t, y, ht, hr, by rw [hn]; exact hrep, hperm, hl, ?_⟩
  rw [hs, hl, beq_iff_eq]
  constructor
  · intro h; rw [h]; rfl
  · intro h; exact BitVec.eq_of_toNat_eq (by simpa using h)

theorem leaf_of_one {t : HTree} (h : t.leaves.length = 1) : ∃ s c, t = .leaf s c := by
  cases t with
  | leaf s c => exact ⟨s, c, rfl⟩
  | node l r =>
    have := leaves_pos l
    have := leaves_pos r
    simp only [HTree.leaves, List.length_append] at h
    omega

/-- The codes the engine assigns: the single symbol's "0", or the tree's paths (R130, R131). -/
def HTree.table (t : HTree) : List (Byte × List Bool) :=
  match t with
  | .leaf s _ => [(s, [false])]
  | .node l r => (HTree.node l r).codes []

theorem table_keys (t : HTree) : t.table.map Prod.fst = t.leaves := by
  cases t with
  | leaf s c => rfl
  | node l r => exact codes_keys _ _

/-- Every code has 1 to n - 1 bits, or 1 where n is 1 (R131, R134). -/
theorem table_length {t : HTree} {p : Byte × List Bool} (hp : p ∈ t.table) :
    1 ≤ p.2.length ∧ p.2.length ≤ max 1 (t.leaves.length - 1) := by
  cases t with
  | leaf s c =>
    obtain rfl : p = (s, [false]) := by simpa [HTree.table] using hp
    simp
  | node l r =>
    have h := (codes_path hp).2
    simp only [List.length_nil] at h
    refine ⟨?_, by omega⟩
    rcases List.mem_append.mp hp with hp | hp
    · have := (codes_path hp).1.length_le; simpa using this
    · have := (codes_path hp).1.length_le; simpa using this

theorem table_apart {t : HTree} (hn : t.leaves.Nodup) {p q : Byte × List Bool} (hp : p ∈ t.table)
    (hq : q ∈ t.table) (hpq : p.1 ≠ q.1) : ¬ p.2 <+: q.2 := by
  cases t with
  | leaf s c =>
    obtain rfl : p = (s, [false]) := by simpa [HTree.table] using hp
    obtain rfl : q = (s, [false]) := by simpa [HTree.table] using hq
    exact absurd rfl hpq
  | node l r => exact codes_apart hn hp hq hpq

/-- BUILD_CODES on the engine's own tree: the walk ends and assigns the tree's codes (R130, R131). -/
theorem codeTable_built {e : Engine} (hb : BuiltFrom e) (hc : Counted e) {t : HTree}
    (ht : tBuild e.freq = [t]) (draw : Nat) :
    codeTable draw e = .ok (assignAll draw t.table CodeTable.clear) := by
  obtain ⟨t', x, ht', hr, hrep, -, -, hs⟩ := built_tree hb hc
  obtain rfl : t' = t := by rw [ht] at ht'; simpa using ht'.symm
  unfold codeTable
  by_cases h1 : t'.leaves.length = 1
  · obtain ⟨s, c, rfl⟩ := leaf_of_one h1
    rw [if_pos (hs.mpr h1), hr, nodeAt_ofNat]
    unfold Rep at hrep
    rw [hrep]
    rfl
  · rw [if_neg (by rw [hs]; exact h1), hr]
    have hh := rep_height hrep
    have hx := x.isLt
    have := walk_rep draw hrep (depth := Config.maxNodes) (by simp [Config.maxNodes]; omega) []
      CodeTable.clear
    cases t' with
    | leaf s c => simp [HTree.leaves] at h1
    | node l r => exact this

/-- What the code tables hold after BUILD_CODES, for the engine's own tree. -/
structure Coded (e : Engine) (t : HTree) : Prop where
  mem : ∀ p ∈ t.table, (e.codeLenOf p.1).toNat = p.2.length ∧ (e.codeOf p.1).toNat = bitsVal p.2
  absent : ∀ s, s ∉ t.leaves → e.codeLenOf s = 0#8 ∧ e.codeOf s = 0#255

theorem codedFrom_coded {e : Engine} (hb : BuiltFrom e) (hc : Counted e) (hk : CodedFrom e)
    {t : HTree} (ht : tBuild e.freq = [t]) : Coded e t := by
  obtain ⟨draw, tab, htab, hlen, hcode, -⟩ := hk
  rw [codeTable_built hb hc ht draw] at htab
  obtain rfl : assignAll draw t.table CodeTable.clear = tab := by simpa using htab
  obtain ⟨t', x, ht', -, -, hperm, hl, -⟩ := built_tree hb hc
  obtain rfl : t' = t := by rw [ht] at ht'; simpa using ht'.symm
  have hn : t'.leaves.Nodup := hperm.nodup_iff.mpr (presentSymbols_nodup _)
  have h256 : t'.leaves.length ≤ 256 := by
    rw [hperm.length_eq]; exact presentSymbols_length_le _
  constructor
  · intro p hp
    have hlp := (table_length hp).2
    have h255 : p.2.length ≤ 255 := by omega
    have := assignAll_mem draw CodeTable.clear (by rw [table_keys]; exact hn) hp h255
    unfold Engine.codeLenOf Engine.codeOf
    rw [hlen, hcode, this.1, this.2, BitVec.toNat_ofNat, BitVec.toNat_ofNat,
      Nat.mod_eq_of_lt (by omega), Nat.mod_eq_of_lt]
    · exact ⟨rfl, rfl⟩
    · exact lt_of_lt_of_le (bitsVal_lt _) (Nat.pow_le_pow_right (by omega) h255)
  · intro s hs
    have := assignAll_other draw CodeTable.clear (cs := t'.table) (s := s)
      (by rw [table_keys]; exact hs)
    unfold Engine.codeLenOf Engine.codeOf
    rw [hlen, hcode, this.1, this.2]
    simp [CodeTable.clear]

/-- A present symbol has a code in the table. -/
theorem table_has {t : HTree} {s : Byte} (h : s ∈ t.leaves) : ∃ p ∈ t.table, p.1 = s := by
  rw [← table_keys] at h
  simpa using h

/-- The line 2 text of the engine's own tree: Ser(ROOT), or the one-element list (R141, R142). -/
theorem treeText_built {e : Engine} (hb : BuiltFrom e) (hc : Counted e) {t : HTree}
    (ht : tBuild e.freq = [t]) :
    treeText e = .ok (match t with
      | .leaf s _ => [Config.charOpen, s, Config.charClose]
      | .node l r => (HTree.node l r).text) := by
  obtain ⟨t', x, ht', hr, hrep, -, -, hs⟩ := built_tree hb hc
  obtain rfl : t' = t := by rw [ht] at ht'; simpa using ht'.symm
  unfold treeText
  by_cases h1 : t'.leaves.length = 1
  · obtain ⟨s, c, rfl⟩ := leaf_of_one h1
    rw [if_pos (hs.mpr h1), hr, nodeAt_ofNat]
    unfold Rep at hrep
    rw [hrep]
    rfl
  · rw [if_neg (by rw [hs]; exact h1), hr]
    have hh := rep_height hrep
    have hx := x.isLt
    have := serialize_rep hrep (depth := Config.maxNodes) (by simp [Config.maxNodes]; omega)
    cases t' with
    | leaf s c => simp [HTree.leaves] at h1
    | node l r => exact this

end Sys2Proof.Machine
end

