-- ==== Sys2Proof/Laws/Decode.lean ====
section
/-! SUPPORT. The fields of a command word: a word is its three fields side by side, and the encoder
fills them from the opcode map (R80 to R83). -/

namespace Sys2Proof

/-- Bit `k` of a word put together from `op`, `rsv` and `sym` (R80). -/
theorem fields_bit (o : BitVec 8) (r : BitVec 16) (s : BitVec 8) (k : Nat) :
    (o ++ (r ++ s)).getLsbD k =
      if k < 8 then s.getLsbD k else if k < 24 then r.getLsbD (k - 8) else o.getLsbD (k - 24) := by
  rw [BitVec.getLsbD_append, BitVec.getLsbD_append]
  by_cases h1 : k < 8
  · have : k < 16 + 8 := by omega
    simp [h1, this]
  · by_cases h2 : k < 24 <;> simp [h1, h2]

/-- A word is its fields side by side (R80). -/
theorem word_fields (w : Word) :
    w = w.extractLsb' 24 8 ++ (w.extractLsb' 8 16 ++ w.extractLsb' 0 8) := by
  refine BitVec.eq_of_getLsbD_eq fun i hi => ?_
  rw [fields_bit]
  simp only [BitVec.getLsbD_extractLsb']
  by_cases h1 : i < 8
  · simp [h1]
  · by_cases h2 : i < 24
    · have : i - 8 < 16 := by omega
      have : 8 + (i - 8) = i := by omega
      simp [*]
    · have : i - 24 < 8 := by omega
      have : 24 + (i - 24) = i := by omega
      simp [*]

theorem op_encode (i : Instr) : CommandWord.op (encode i) = opcode i := by
  refine BitVec.eq_of_getLsbD_eq fun k hk => ?_
  unfold CommandWord.op encode
  rw [BitVec.getLsbD_extractLsb', fields_bit]
  have : ¬ 24 + k < 8 := by omega
  simp [hk, this]

theorem rsv_encode (i : Instr) : CommandWord.rsv (encode i) = 0#16 := by
  refine BitVec.eq_of_getLsbD_eq fun k hk => ?_
  unfold CommandWord.rsv encode
  rw [BitVec.getLsbD_extractLsb', fields_bit]
  have : 8 + k < 24 := by omega
  simp [this]

theorem sym_encode (i : Instr) : CommandWord.sym (encode i) = operand i := by
  refine BitVec.eq_of_getLsbD_eq fun k hk => ?_
  unfold CommandWord.sym encode
  rw [BitVec.getLsbD_extractLsb', fields_bit]
  simp [hk]

end Sys2Proof
end

