-- ==== Sys2Proof/Laws/Depth.lean ====
section
/-! SUPPORT. How deep the merge loop puts each queue entry: the depths fall along the queue (R137). -/

namespace Sys2Proof.Machine

/-- The leaves of a tree with their depths, counted from `d`. -/
def HTree.depths : HTree → Nat → List (Byte × Nat)
  | .leaf s _, d => [(s, d)]
  | .node l r, d => l.depths (d + 1) ++ r.depths (d + 1)

/-- The leaves of a queue whose entries stand at given depths. -/
def queueDepths (ps : List (HTree × Nat)) : List (Byte × Nat) := ps.flatMap fun p => p.1.depths p.2

/-- A queue's entries with depths that fall along it, and whose first entry is at most one level below
any entry no heavier than the first two together. -/
structure Falling (ts : List HTree) (ps : List (HTree × Nat)) : Prop where
  trees : ps.map Prod.fst = ts
  falls : ps.Pairwise fun p q => q.2 ≤ p.2
  near : ∀ p q rest, ps = p :: q :: rest → ∀ x ∈ ps,
    x.1.weight ≤ p.1.weight + q.1.weight → p.2 ≤ x.2 + 1

/-- Undoing one merge: the two merged entries go one level below the merged one, the rest stay. -/
theorem Falling.unmerge {a b : HTree} {ts : List HTree} (h : Ascending (a :: b :: ts))
    {ps : List (HTree × Nat)} (f : Falling (tInsert (.node a b) ts) ps) :
    ∃ qs, Falling (a :: b :: ts) qs ∧ (queueDepths qs).Perm (queueDepths ps) := by
  obtain ⟨ha, h'⟩ := List.pairwise_cons.mp h
  obtain ⟨hb, h''⟩ := List.pairwise_cons.mp h'
  obtain ⟨before, after, e1, e2, e3, e4⟩ := tInsert_split (t := .node a b) h''
  have htr := f.trees
  rw [e2] at htr
  obtain ⟨P, rest, rfl, hP, hrest⟩ := List.map_eq_append_iff.mp htr
  obtain ⟨m, S, rfl, hm, hS⟩ := List.map_eq_cons_iff.mp hrest
  have hfall := f.falls
  rw [List.pairwise_append, List.pairwise_cons] at hfall
  obtain ⟨fP, ⟨fm, fS⟩, fPS⟩ := hfall
  have hheavy : ∀ x ∈ P, b.weight ≤ x.1.weight := fun x hx =>
    hb _ (by rw [e1, ← hP]; exact List.mem_append_left _ (List.mem_map_of_mem hx))
  have hheavyS : ∀ x ∈ S, b.weight ≤ x.1.weight := fun x hx =>
    hb _ (by rw [e1, ← hS]; exact List.mem_append_right _ (List.mem_map_of_mem hx))
  have hab : a.weight ≤ b.weight := ha b (by simp)
  -- every entry before the merged one is at most one level below it
  have hnear : ∀ x ∈ P, x.2 ≤ m.2 + 1 := by
    intro x hx
    match P, hx with
    | [p], hx =>
      obtain rfl := List.mem_singleton.mp hx
      exact f.near x m S rfl m (by simp) (by omega)
    | p :: q :: P', hx =>
      have hp : p.2 ≤ m.2 + 1 := by
        refine f.near p q (P' ++ m :: S) rfl m (by simp) ?_
        have h1 := hheavy p (by simp)
        have h2 := hheavy q (by simp)
        rw [hm, HTree.weight]
        omega
      rcases List.mem_cons.mp hx with rfl | hx
      · exact hp
      · have := (List.pairwise_cons.mp fP).1 x hx
        omega
  refine ⟨(a, m.2 + 1) :: (b, m.2 + 1) :: (P ++ S), ⟨?_, ?_, ?_⟩, ?_⟩
  · simp [hP, hS, e1]
  · refine List.pairwise_cons.mpr ⟨fun x hx => ?_, List.pairwise_cons.mpr ⟨fun x hx => ?_, ?_⟩⟩
    · rcases List.mem_cons.mp hx with rfl | hx
      · exact le_refl _
      · rcases List.mem_append.mp hx with hx | hx
        · exact hnear x hx
        · have := fm x hx; show x.2 ≤ m.2 + 1; omega
    · rcases List.mem_append.mp hx with hx | hx
      · exact hnear x hx
      · have := fm x hx; show x.2 ≤ m.2 + 1; omega
    · exact List.pairwise_append.mpr ⟨fP, fS, fun x hx y hy => fPS x hx y (by simp [hy])⟩
  · intro p q rest hpq x hx hw
    simp only [List.cons.injEq] at hpq
    obtain ⟨rfl, rfl, -⟩ := hpq
    show m.2 + 1 ≤ x.2 + 1
    rcases List.mem_cons.mp hx with rfl | hx
    · show m.2 + 1 ≤ m.2 + 1 + 1; omega
    rcases List.mem_cons.mp hx with rfl | hx
    · show m.2 + 1 ≤ m.2 + 1 + 1; omega
    rcases List.mem_append.mp hx with hx | hx
    · have := fPS x hx m (by simp); omega
    · have := e4 x.1 (by rw [← hS]; exact List.mem_map_of_mem hx)
      simp only [HTree.weight] at this hw
      omega
  · have hmd : (a, m.2 + 1).1.depths (m.2 + 1) ++ (b, m.2 + 1).1.depths (m.2 + 1) =
        m.1.depths m.2 := by rw [hm]; rfl
    simp only [queueDepths, List.flatMap_cons, List.flatMap_append]
    rw [← List.append_assoc, hmd]
    generalize P.flatMap (fun p => p.1.depths p.2) = Q
    generalize S.flatMap (fun p => p.1.depths p.2) = R
    rw [← List.append_assoc, ← List.append_assoc]
    exact (List.perm_append_comm).append_right R

/-- The depths the merge loop gives the entries of an ascending queue. -/
theorem falling_tMerge : ∀ (n : Nat) (ts : List HTree) (t : HTree), Ascending ts →
    tMerge n ts = [t] → ∃ ps, Falling ts ps ∧ (queueDepths ps).Perm (t.depths 0)
  | 0, ts, t, _, h => by
    obtain rfl : ts = [t] := by cases ts with
      | nil => simp [tMerge] at h
      | cons u us => exact h
    exact ⟨[(t, 0)], ⟨rfl, List.pairwise_singleton _ _, by simp⟩, by simp [queueDepths]⟩
  | n + 1, [], t, _, h => by simp [tMerge] at h
  | n + 1, [u], t, _, h => by
    obtain rfl : u = t := by simpa [tMerge] using h
    exact ⟨[(u, 0)], ⟨rfl, List.pairwise_singleton _ _, by simp⟩, by simp [queueDepths]⟩
  | n + 1, a :: b :: ts, t, ha, h => by
    rw [tMerge] at h
    have hts : Ascending ts := ((List.pairwise_cons.mp (List.pairwise_cons.mp ha).2)).2
    obtain ⟨ps, f, hp⟩ := falling_tMerge n _ t (ascending_tInsert hts) h
    obtain ⟨qs, g, hq⟩ := f.unmerge ha
    exact ⟨qs, g, hq.trans hp⟩

/-- The paths of a tree are as long as the depths of its leaves. -/
theorem codes_depths (t : HTree) (path : List Bool) :
    (t.codes path).map (fun p => (p.1, p.2.length)) = t.depths path.length := by
  induction t generalizing path with
  | leaf s c => rfl
  | node l r ihl ihr => simp [HTree.codes, HTree.depths, ihl, ihr]

/-- In a queue of leaves, the depths fall along the weights. -/
theorem leaves_depths {freq : Vector (BitVec 32) 256} {t : HTree} (ht : tBuild freq = [t])
    {x y : Byte × Nat} (hx : x ∈ t.depths 0) (hy : y ∈ t.depths 0)
    (hw : (symAt freq y.1).toNat < (symAt freq x.1).toNat) : x.2 ≤ y.2 := by
  obtain ⟨ps, f, hp⟩ := falling_tMerge _ _ t (tPlant_ascending freq (presentSymbols freq)) ht
  have hleaf : ∀ p ∈ ps, ∃ s, p.1 = .leaf s (symAt freq s) := by
    intro p hpm
    have : p.1 ∈ tPlant freq (presentSymbols freq) := by
      rw [← f.trees]; exact List.mem_map_of_mem hpm
    obtain ⟨s, -, e⟩ := List.mem_map.mp ((tPlant_perm freq _).subset this)
    exact ⟨s, e.symm⟩
  have hfind : ∀ z : Byte × Nat, z ∈ t.depths 0 →
      (HTree.leaf z.1 (symAt freq z.1), z.2) ∈ ps := by
    intro z hz
    obtain ⟨p, hpm, hz'⟩ := List.mem_flatMap.mp (hp.symm.subset hz)
    obtain ⟨s, e⟩ := hleaf p hpm
    rw [e] at hz'
    obtain rfl : z = (s, p.2) := by simpa [HTree.depths] using hz'
    rw [← e]; exact hpm
  have hboth : ps.Pairwise fun p q => p.1.weight ≤ q.1.weight ∧ q.2 ≤ p.2 := by
    refine List.Pairwise.and ?_ f.falls
    have := tPlant_ascending freq (presentSymbols freq)
    rw [← f.trees, Ascending, List.pairwise_map] at this
    exact this
  have hX := hfind x hx
  have hY := hfind y hy
  obtain ⟨i, hi, ei⟩ := List.mem_iff_getElem.mp hX
  obtain ⟨j, hj, ej⟩ := List.mem_iff_getElem.mp hY
  have hpair := List.pairwise_iff_getElem.mp hboth
  rcases Nat.lt_trichotomy i j with hij | hij | hij
  · have := (hpair i j hi hj hij).1
    rw [ei, ej] at this
    simp only [HTree.weight] at this
    omega
  · subst hij
    rw [ei] at ej
    exact (Prod.ext_iff.mp ej).2.le
  · have := (hpair j i hj hi hij).2
    rw [ei, ej] at this
    exact this

end Sys2Proof.Machine
end

