-- ==== Sys2Proof/Laws/Packer.lean ====
section
/-! SUPPORT. The packer against bit strings: PACK appends the code's bits and finalizes each byte as it
fills (R152, R155, R157). -/

namespace Sys2Proof.Machine

/-! ### Bits of bytes -/

theorem codeBits_getElem (len v i : Nat) (h : i < (codeBits len v).length) :
    (codeBits len v)[i] = v.testBit (len - 1 - i) := by simp [codeBits]

/-- The first `a` bits and the last `b` bits. -/
theorem codeBits_add (a b v : Nat) : codeBits (a + b) v = codeBits a (v >>> b) ++ codeBits b v := by
  refine List.ext_getElem (by simp [codeBits_length]) fun i h1 h2 => ?_
  rw [codeBits_length] at h1
  rw [codeBits_getElem, List.getElem_append]
  split
  · next h =>
    rw [codeBits_length] at h
    rw [codeBits_getElem, Nat.testBit_shiftRight]
    congr 1; omega
  · next h =>
    rw [codeBits_length] at h
    rw [codeBits_getElem]
    congr 1
    rw [codeBits_length]; omega

theorem byteBits_length (b : Byte) : (byteBits b).length = 8 := codeBits_length _ _

theorem byteBits_getElem (b : Byte) (i : Nat) (h : i < (byteBits b).length) :
    (byteBits b)[i] = b.toNat.testBit (8 - 1 - i) := codeBits_getElem _ _ _ h

theorem byteBits_low8 (n : Nat) : byteBits (low8 n) = codeBits 8 n := by
  unfold byteBits low8
  refine List.ext_getElem (by simp [codeBits_length]) fun i h1 h2 => ?_
  rw [codeBits_length] at h1
  rw [codeBits_getElem, codeBits_getElem, BitVec.toNat_ofNat, Nat.testBit_mod_two_pow]
  simp; omega

/-- ORing `x` into the free bits of a partial byte keeps the pending bits and puts `x` after them. -/
theorem byteBits_or {b : Byte} {sub x : Nat} (hs : sub ≤ 8) (hb : b.toNat % 2 ^ (8 - sub) = 0)
    (hx : x < 2 ^ (8 - sub)) :
    byteBits (b ||| low8 x) = (byteBits b).take sub ++ codeBits (8 - sub) x := by
  refine List.ext_getElem
    (by simp [byteBits_length, codeBits_length]; omega) fun i h1 h2 => ?_
  rw [byteBits_length] at h1
  have hx8 : x % 2 ^ 8 = x :=
    Nat.mod_eq_of_lt (lt_of_lt_of_le hx (Nat.pow_le_pow_right (by omega) (by omega)))
  rw [List.getElem_append, byteBits_getElem, BitVec.toNat_or, Nat.testBit_or, low8,
    BitVec.toNat_ofNat, hx8]
  split
  · next h =>
    rw [List.length_take, byteBits_length] at h
    rw [List.getElem_take, byteBits_getElem]
    have : x.testBit (8 - 1 - i) = false :=
      Nat.testBit_lt_two_pow (lt_of_lt_of_le hx (Nat.pow_le_pow_right (by omega) (by omega)))
    rw [this, Bool.or_false]
  · next h =>
    rw [List.length_take, byteBits_length] at h
    rw [codeBits_getElem]
    have : b.toNat.testBit (8 - 1 - i) = false := by
      have h0 := Nat.testBit_mod_two_pow b.toNat (8 - sub) (8 - 1 - i)
      rw [hb, Nat.zero_testBit] at h0
      have : 8 - 1 - i < 8 - sub := by omega
      simpa [this] using h0.symm
    rw [this, Bool.false_or]
    congr 1
    rw [List.length_take, byteBits_length]; omega

theorem or_low8_mod {b : Byte} {k x : Nat} (hb : b.toNat % 2 ^ k = 0)
    (hx : x % 2 ^ k = 0) : (b ||| low8 x).toNat % 2 ^ k = 0 := by
  rw [BitVec.toNat_or, low8, BitVec.toNat_ofNat]
  refine Nat.eq_of_testBit_eq fun i => ?_
  rw [Nat.testBit_mod_two_pow, Nat.testBit_or, Nat.zero_testBit]
  by_cases h : i < k
  · have h1 := Nat.testBit_mod_two_pow b.toNat k i
    have h2 := Nat.testBit_mod_two_pow x k i
    rw [hb, Nat.zero_testBit] at h1
    rw [hx, Nat.zero_testBit] at h2
    simp only [h, decide_true, Bool.true_and] at h1 h2
    rw [← h1, Nat.testBit_mod_two_pow, ← h2]
    simp
  · simp [h]

theorem shiftLeft_mod_self (v k : Nat) : v <<< k % 2 ^ k = 0 := by
  rw [Nat.shiftLeft_eq]; exact Nat.mul_mod_left _ _

/-! ### The buffer -/

theorem orBuf_getElem? (buf : Vector Byte 34) (p n i : Nat) (hp : p < 34) :
    (orBuf buf p n)[i]? = if i = p then some (buf[p] ||| low8 n) else buf[i]? := by
  unfold orBuf
  rw [Vector.getElem?_setIfInBounds]
  by_cases h : i = p
  · subst h; simp [hp]
  · simp [h, Ne.symm h]

theorem take_setIfInBounds (buf : Vector Byte 34) (p : Nat) (b : Byte) :
    (buf.setIfInBounds p b).toList.take p = buf.toList.take p := by
  simp [List.take_set_of_le]

theorem take_succ_setIfInBounds (buf : Vector Byte 34) {p : Nat} (b : Byte) (h : p < 34) :
    (buf.setIfInBounds p b).toList.take (p + 1) = buf.toList.take p ++ [b] := by
  rw [List.take_add_one, take_setIfInBounds]
  simp [h]

/-- Step 4's loop (R152): whole bytes of the code, in order, into BUF from `p` on. -/
theorem packChunks_spec (code : Nat) : ∀ (passes rem p : Nat) (buf : Vector Byte 34),
    rem ≤ 8 * passes + 7 → p + rem / 8 < 34 →
    ∃ buf', packChunks code passes rem p buf = (rem % 8, p + rem / 8, buf') ∧
      (∀ i, p + rem / 8 ≤ i → buf'[i]? = buf[i]?) ∧
      (buf'.toList.take (p + rem / 8)).flatMap byteBits ++ codeBits (rem % 8) code =
        (buf.toList.take p).flatMap byteBits ++ codeBits rem code
  | 0, rem, p, buf, hr, hp => by
    have h1 : rem % 8 = rem := Nat.mod_eq_of_lt (by omega)
    have h2 : rem / 8 = 0 := Nat.div_eq_of_lt (by omega)
    exact ⟨buf, by simp [packChunks, h1, h2], fun _ _ => rfl, by simp [h1, h2]⟩
  | passes + 1, rem, p, buf, hr, hp => by
    by_cases h8 : 8 ≤ rem
    · have e1 : (rem - 8) % 8 = rem % 8 := by omega
      have e2 : p + 1 + (rem - 8) / 8 = p + rem / 8 := by omega
      obtain ⟨buf', h1, h2, h3⟩ := packChunks_spec code passes (rem - 8) (p + 1)
        (buf.setIfInBounds p (low8 (code >>> (rem - 8)))) (by omega) (by omega)
      rw [e1, e2] at h1 h3
      rw [e2] at h2
      refine ⟨buf', by simp [packChunks, h8, h1], fun i hi => ?_, ?_⟩
      · rw [h2 i hi, Vector.getElem?_setIfInBounds]
        have : p ≠ i := by omega
        simp [this]
      · rw [h3, take_succ_setIfInBounds _ _ (by omega), List.flatMap_append, List.flatMap_singleton,
          byteBits_low8, List.append_assoc, ← codeBits_add]
        congr 2
        omega
    · have h1 : rem % 8 = rem := Nat.mod_eq_of_lt (by omega)
      have h2 : rem / 8 = 0 := Nat.div_eq_of_lt (by omega)
      exact ⟨buf, by simp [packChunks, h8, h1, h2], fun _ _ => rfl, by simp [h1, h2]⟩

/-- Steps 2 to 4 of PACK without a claim on the code's high bits: the count of finalized bytes, the
free bits of the partial byte and the bytes after it (R152, R155, R157). -/
theorem packBits_shape {sub len code : Nat} {buf : Vector Byte 34} (hsub : sub < 8)
    (hlen : len ≤ 255) (htail : TailClear buf) (hfree : buf[0].toNat % 2 ^ (8 - sub) = 0) :
    (packBits sub len code buf).2 = (sub + len) / 8 ∧
    ((packBits sub len code buf).1[(sub + len) / 8]?.getD 0#8).toNat %
      2 ^ (8 - (sub + len) % 8) = 0 ∧
    ∀ i, (sub + len) / 8 < i → i < 34 → (packBits sub len code buf).1[i]?.getD 0#8 = 0#8 := by
  unfold packBits
  by_cases hle : len ≤ 8 - sub
  · simp only [hle, if_true]
    by_cases heq : len = 8 - sub
    · have e1 : (sub + len) / 8 = 1 := by omega
      have e2 : (sub + len) % 8 = 0 := by omega
      simp only [heq, if_true]
      rw [← heq, e1, e2]
      refine ⟨rfl, ?_, fun i hi h34 => ?_⟩
      · rw [orBuf_getElem? _ _ _ _ (by omega), if_neg (by omega), htail 1 (by omega) (by omega)]
        simp
      · rw [orBuf_getElem? _ _ _ _ (by omega), if_neg (by omega), htail i (by omega) h34]
    · have e1 : (sub + len) / 8 = 0 := by omega
      have e2 : (sub + len) % 8 = sub + len := by omega
      simp only [heq, if_false]
      rw [e1, e2]
      refine ⟨rfl, ?_, fun i hi h34 => ?_⟩
      · rw [orBuf_getElem? _ _ _ _ (by omega), if_pos rfl, Option.getD_some]
        refine or_low8_mod ?_ ?_
        · exact Nat.mod_eq_zero_of_dvd ((Nat.pow_dvd_pow 2 (by omega)).trans
            (Nat.dvd_of_mod_eq_zero hfree))
        · have : 8 - sub - len = 8 - (sub + len) := by omega
          rw [this]; exact shiftLeft_mod_self _ _
      · rw [orBuf_getElem? _ _ _ _ (by omega), if_neg (by omega), htail i (by omega) h34]
  · simp only [hle, if_false]
    obtain ⟨buf', h1, h2, -⟩ := packChunks_spec code (len - (8 - sub)) (len - (8 - sub)) 1
      (orBuf buf 0 (code >>> (len - (8 - sub)))) (by omega) (by omega)
    have e1 : (sub + len) / 8 = 1 + (len - (8 - sub)) / 8 := by omega
    have e2 : (sub + len) % 8 = (len - (8 - sub)) % 8 := by omega
    rw [h1]
    simp only
    rw [e1, e2]
    have hp : 1 + (len - (8 - sub)) / 8 < 34 := by omega
    have hold : ∀ i, 1 + (len - (8 - sub)) / 8 ≤ i → i < 34 → buf'[i]?.getD 0#8 = 0#8 := by
      intro i hi h34
      rw [h2 i hi, orBuf_getElem? _ _ _ _ (by omega), if_neg (by omega), htail i (by omega) h34]
    have hz := hold _ (le_refl _) hp
    rw [Vector.getElem?_eq_getElem hp, Option.getD_some] at hz
    refine ⟨rfl, ?_, fun i hi h34 => ?_⟩
    · rw [orBuf_getElem? _ _ _ _ hp, if_pos rfl, Option.getD_some]
      exact or_low8_mod (by rw [hz]; simp) (shiftLeft_mod_self _ _)
    · rw [orBuf_getElem? _ _ _ _ hp, if_neg (by omega)]
      exact hold i (by omega) h34

/-- The bits PACK leaves: the finalized bytes and the new pending bits are the old pending bits and
the code (R155). -/
theorem packBits_bits {sub len code : Nat} {buf : Vector Byte 34} (hsub : sub < 8)
    (hlen : len ≤ 255) (hcode : code < 2 ^ len) (htail : TailClear buf)
    (hfree : buf[0].toNat % 2 ^ (8 - sub) = 0) :
    ((packBits sub len code buf).1.toList.take ((sub + len) / 8)).flatMap byteBits ++
      (byteBits ((packBits sub len code buf).1[(sub + len) / 8]?.getD 0#8)).take ((sub + len) % 8) =
    (byteBits buf[0]).take sub ++ codeBits len code := by
  unfold packBits
  by_cases hle : len ≤ 8 - sub
  · simp only [hle, if_true]
    have hx : code <<< (8 - sub - len) < 2 ^ (8 - sub) := by
      rw [Nat.shiftLeft_eq]
      calc code * 2 ^ (8 - sub - len) < 2 ^ len * 2 ^ (8 - sub - len) :=
            Nat.mul_lt_mul_of_pos_right hcode (Nat.two_pow_pos _)
        _ = 2 ^ (8 - sub) := by rw [← Nat.pow_add]; congr 1; omega
    have hor := byteBits_or (b := buf[0]) (by omega) hfree hx
    have hsplit : codeBits (8 - sub) (code <<< (8 - sub - len)) =
        codeBits len code ++ codeBits (8 - sub - len) (code <<< (8 - sub - len)) := by
      have := codeBits_add len (8 - sub - len) (code <<< (8 - sub - len))
      rwa [Nat.shiftLeft_shiftRight, show len + (8 - sub - len) = 8 - sub by omega] at this
    by_cases heq : len = 8 - sub
    · have e1 : (sub + len) / 8 = 1 := by omega
      have e2 : (sub + len) % 8 = 0 := by omega
      rw [e1, e2, List.take_zero, List.append_nil]
      have h0 : 8 - sub - len = 0 := by omega
      rw [h0, Nat.shiftLeft_zero]
      rw [h0, Nat.shiftLeft_zero] at hor
      unfold orBuf
      have := take_succ_setIfInBounds buf (p := 0) (buf[0]?.getD 0#8 ||| low8 code) (by omega)
      rw [Nat.zero_add] at this
      rw [this]
      simp only [List.take_zero, List.nil_append, List.flatMap_singleton]
      rw [Vector.getElem?_eq_getElem (by omega), Option.getD_some, hor, heq]
    · have e1 : (sub + len) / 8 = 0 := by omega
      have e2 : (sub + len) % 8 = sub + len := by omega
      rw [e1, e2, List.take_zero, List.flatMap_nil, List.nil_append,
        orBuf_getElem? _ _ _ _ (by omega), if_pos rfl, Option.getD_some, hor, hsplit]
      rw [← List.append_assoc, List.take_append_of_le_length, List.take_of_length_le]
      · simp [codeBits_length, byteBits_length]
      · simp [codeBits_length, byteBits_length]; omega
  · simp only [hle, if_false]
    obtain ⟨buf', h1, h2, h3⟩ := packChunks_spec code (len - (8 - sub)) (len - (8 - sub)) 1
      (orBuf buf 0 (code >>> (len - (8 - sub)))) (by omega) (by omega)
    have e1 : (sub + len) / 8 = 1 + (len - (8 - sub)) / 8 := by omega
    have e2 : (sub + len) % 8 = (len - (8 - sub)) % 8 := by omega
    rw [h1]
    simp only
    rw [e1, e2]
    have hp : 1 + (len - (8 - sub)) / 8 < 34 := by omega
    have hz : buf'[1 + (len - (8 - sub)) / 8]?.getD 0#8 = 0#8 := by
      rw [h2 _ (le_refl _), orBuf_getElem? _ _ _ _ (by omega), if_neg (by omega)]
      exact htail _ (by omega) hp
    rw [Vector.getElem?_eq_getElem hp, Option.getD_some] at hz
    have hx : code >>> (len - (8 - sub)) < 2 ^ (8 - sub) := by
      rw [Nat.shiftRight_eq_div_pow, Nat.div_lt_iff_lt_mul (Nat.two_pow_pos _), ← Nat.pow_add]
      convert hcode using 2
      omega
    have hfirst : (orBuf buf 0 (code >>> (len - (8 - sub)))).toList.take 1 =
        [buf[0] ||| low8 (code >>> (len - (8 - sub)))] := by
      unfold orBuf
      have := take_succ_setIfInBounds buf (p := 0)
        (buf[0]?.getD 0#8 ||| low8 (code >>> (len - (8 - sub)))) (by omega)
      rw [Nat.zero_add] at this
      rw [this, Vector.getElem?_eq_getElem (by omega)]
      rfl
    have hlast : (byteBits ((orBuf buf' (1 + (len - (8 - sub)) / 8)
          (code <<< (8 - (len - (8 - sub)) % 8)))[1 + (len - (8 - sub)) / 8]?.getD 0#8)).take
          ((len - (8 - sub)) % 8) = codeBits ((len - (8 - sub)) % 8) code := by
      rw [orBuf_getElem? _ _ _ _ hp, if_pos rfl, Option.getD_some, hz, BitVec.zero_or,
        byteBits_low8]
      have e : 8 = (len - (8 - sub)) % 8 + (8 - (len - (8 - sub)) % 8) := by omega
      generalize (len - (8 - sub)) % 8 = r at e
      conv_lhs => rw [show codeBits 8 (code <<< (8 - r)) =
        codeBits (r + (8 - r)) (code <<< (8 - r)) by rw [← e]]
      rw [codeBits_add, Nat.shiftLeft_shiftRight, List.take_append_of_le_length,
        List.take_of_length_le] <;> simp [codeBits_length]
    have htake : (orBuf buf' (1 + (len - (8 - sub)) / 8)
        (code <<< (8 - (len - (8 - sub)) % 8))).toList.take (1 + (len - (8 - sub)) / 8) =
        buf'.toList.take (1 + (len - (8 - sub)) / 8) := by
      unfold orBuf; exact take_setIfInBounds _ _ _
    rw [hlast, htake, h3, hfirst, List.flatMap_singleton, byteBits_or (by omega) hfree hx,
      List.append_assoc, ← codeBits_add]
    congr 2
    omega

/-- `reset()` keeps the partial byte alone (R153). -/
theorem resetBuf_zero (buf : Vector Byte 34) (filled : Nat) :
    (resetBuf buf filled)[0] = buf[filled]?.getD 0#8 := by simp [resetBuf]

theorem resetBuf_tail (buf : Vector Byte 34) (filled : Nat) : TailClear (resetBuf buf filled) := by
  intro i h1 h2
  unfold resetBuf
  rw [Vector.getElem?_set_ne (by omega) (by omega), Vector.getElem?_eq_getElem h2]
  simp

end Sys2Proof.Machine
end

