-- ==== Sys2Proof/Laws/Invariant.lean ====
section
/-! SUPPORT. The invariant of Safety.lean, move by move and command by command (R57). -/

namespace Sys2Proof.Machine

/-! ### The engine at reset -/

theorem countSum_replicate_zero : countSum (Vector.replicate 256 0#32) = 0 := by
  simp [countSum]

theorem presentSymbols_replicate_zero : presentSymbols (Vector.replicate 256 0#32) = [] := by
  simp [presentSymbols]

theorem reset_counted : Counted Engine.reset where
  total := by rw [show Engine.reset.freq = Vector.replicate 256 0#32 from rfl,
    countSum_replicate_zero]; rfl
  nsym := by rw [show Engine.reset.freq = Vector.replicate 256 0#32 from rfl,
    presentSymbols_replicate_zero]; rfl

theorem reset_bufBetween : BufBetween Engine.reset := by
  refine ⟨fun i _ h => ?_, by simp [Engine.reset, FreeBitsClear]⟩
  simp [Engine.reset, h]

/-- The invariant holds of every state whose engine is at its reset values (R200, R202). -/
theorem inv_of_resetEngine {s : State} (h : s.eng = Engine.reset) : Inv s where
  counted := by rw [h]; exact reset_counted
  tables := by rw [h]; rfl
  totalBound := by rw [h]; decide
  queueEmpty := by rw [h]; rfl
  errorRecorded := by rw [h]; simp
  noErrorNoWord := by rw [h]; intro _; rfl
  idleBuf := by rw [h]; intro _; exact reset_bufBetween
  waits := by rw [h]; simp
  busyUnseen := by rw [h]; simp
  outFits := by rw [h]; simp
  resetHolds := fun _ => h

/-! ### The bound of R136 -/

theorem sum_le_sum {l : List Byte} {f g : Byte → Nat} (h : ∀ x ∈ l, f x ≤ g x) :
    (l.map f).sum ≤ (l.map g).sum := by
  induction l with
  | nil => simp
  | cons a l ih =>
    simp only [List.map_cons, List.sum_cons]
    have := h a (by simp)
    have := ih fun x hx => h x (by simp [hx])
    omega

theorem sum_mul_const (l : List Byte) (f : Byte → Nat) (k : Nat) :
    (l.map fun x => f x * k).sum = (l.map f).sum * k := by
  induction l with
  | nil => simp
  | cons a l ih => simp [ih, Nat.add_mul]

/-- No table makes the sum of R132 larger than 255 times the counts (R136). -/
theorem totalBitsOf_le (freq : Vector (BitVec 32) 256) (len : Vector (BitVec 8) 256) :
    totalBitsOf freq len ≤ countSum freq * 255 := by
  unfold totalBitsOf countSum
  rw [← sum_mul_const]
  refine sum_le_sum fun x _ => Nat.mul_le_mul_left _ ?_
  have := (symAt len x).isLt
  omega

/-! ### The clauses that a push does not touch -/

/-- The clauses of `Inv` that speak of neither BUF nor a waiting command. -/
structure InvCore (s : State) : Prop where
  counted : Counted s.eng
  tables : TablesIn s.eng s.eng.phase
  totalBound : s.eng.totalBits.toNat ≤ s.eng.totalCount.toNat * 255
  queueEmpty : s.eng.q = []
  errorRecorded : s.eng.phase = .error ↔ s.eng.errCode ≠ .none
  noErrorNoWord : s.eng.errCode = .none → s.eng.errCmd = 0#32
  outFits : ∀ d, s.build.outDepth = some d → s.eng.out.length ≤ d.entries

theorem Inv.core {s : State} (h : Inv s) : InvCore s :=
  ⟨h.counted, h.tables, h.totalBound, h.queueEmpty, h.errorRecorded, h.noErrorNoWord, h.outFits⟩

/-- With no command waiting and `rst_n` high, the core and BUF's clause are all there is. -/
theorem InvCore.idle {s : State} (h : InvCore s) (hb : BufBetween s.eng)
    (hi : s.eng.inflight = none) (hr : s.host.inReset = false) : Inv s where
  counted := h.counted
  tables := h.tables
  totalBound := h.totalBound
  queueEmpty := h.queueEmpty
  errorRecorded := h.errorRecorded
  noErrorNoWord := h.noErrorNoWord
  idleBuf := fun _ => hb
  waits := by simp [hi]
  busyUnseen := by simp [hi]
  outFits := h.outFits
  resetHolds := by simp [hr]

/-- Pushing never overfills OUT (R50). -/
theorem pushAll_outFits {bytes : List Byte} {c : Closing} {s : State} {d : OutDepth}
    (hd : s.build.outDepth = some d) (h : s.eng.out.length ≤ d.entries) :
    (pushAll bytes c s).eng.out.length ≤ d.entries := by
  induction bytes generalizing s with
  | nil => simpa [pushAll] using h
  | cons b bs ih =>
    rw [pushAll]
    split
    · next hr =>
      refine ih (by simpa using hd) ?_
      simp only [hasRoom, hd, decide_eq_true_eq] at hr
      simp; omega
    · exact h

@[simp] theorem pushAll_build (bytes : List Byte) (c : Closing) (s : State) :
    (pushAll bytes c s).build = s.build := by
  induction bytes generalizing s with
  | nil => rfl
  | cons b bs ih => rw [pushAll]; split <;> simp [ih]

@[simp] theorem pushAll_host (bytes : List Byte) (c : Closing) (s : State) :
    (pushAll bytes c s).host = s.host := by
  induction bytes generalizing s with
  | nil => rfl
  | cons b bs ih => rw [pushAll]; split <;> simp [ih]

@[simp] theorem pushAll_draw (bytes : List Byte) (c : Closing) (s : State) :
    (pushAll bytes c s).draw = s.draw := by
  induction bytes generalizing s with
  | nil => rfl
  | cons b bs ih => rw [pushAll]; split <;> simp [ih]

/-- Pushing keeps the invariant: a closed command meets the next phase's clauses, and a waiting one is
recorded as such (R198). -/
theorem inv_pushAll {bytes : List Byte} {c : Closing} {s : State} (h : InvCore s)
    (hw : WaitsWell s.eng { rest := bytes, closing := c }) (hs : s.host.sawIdle = false)
    (hr : s.host.inReset = false) : Inv (pushAll bytes c s) := by
  have hfit : ∀ d, (pushAll bytes c s).build.outDepth = some d →
      (pushAll bytes c s).eng.out.length ≤ d.entries := fun d hd =>
    pushAll_outFits (by simpa using hd) (h.outFits d (by simpa using hd))
  have hne : s.eng.phase ≠ .error := by
    cases c <;> simp only [WaitsWell] at hw <;> rw [hw.1] <;> simp
  have herr : s.eng.errCode = .none := by
    by_contra hc; exact hne (h.errorRecorded.mpr hc)
  rcases pushAll_cases bytes c s with e | ⟨done, rest, d, -, -, hd, -, -, e⟩
  · rw [e] at hfit ⊢
    have ht := h.tables
    have hcore : InvCore (s.withEng (closeCommand s.draw c
        { s.eng with out := s.eng.out ++ bytes })) := by
      cases c with
      | header n =>
        simp only [WaitsWell] at hw
        simp only [TablesIn, hw.1] at ht
        exact ⟨⟨h.counted.total, h.counted.nsym⟩, ht, h.totalBound, h.queueEmpty,
          by simp [closeCommand, herr], h.noErrorNoWord, hfit⟩
      | pack f l =>
        simp only [WaitsWell] at hw
        refine ⟨⟨h.counted.total, h.counted.nsym⟩, ?_, h.totalBound, h.queueEmpty,
          by simp [closeCommand, herr, hw.1], h.noErrorNoWord, hfit⟩
        simp only [TablesIn, hw.1, closeCommand, withEng_eng] at ht ⊢
        exact ht
      | finish n =>
        simp only [WaitsWell] at hw
        simp only [TablesIn, hw.1] at ht
        exact ⟨⟨h.counted.total, h.counted.nsym⟩, ht, h.totalBound, h.queueEmpty,
          by simp [closeCommand, herr], h.noErrorNoWord, hfit⟩
    refine hcore.idle ?_ (by simp) (by simpa using hr)
    cases c with
    | header n => exact hw.2
    | pack f l =>
      refine ⟨resetBuf_tail _ _, ?_⟩
      have := hw.2
      simp only [closeCommand, withEng_eng, resetBuf_zero]
      exact this
    | finish n => exact hw.2
  · rw [e] at hfit ⊢
    exact
      { counted := ⟨h.counted.total, h.counted.nsym⟩
        tables := h.tables
        totalBound := h.totalBound
        queueEmpty := h.queueEmpty
        errorRecorded := h.errorRecorded
        noErrorNoWord := h.noErrorNoWord
        idleBuf := by simp
        waits := by
          intro f hf
          obtain rfl : { rest := rest, closing := c } = f := by simpa using hf
          cases c <;> exact hw
        busyUnseen := fun _ => hs
        outFits := hfit
        resetHolds := by simp [hr] }

/-! ### The commands -/

/-- Whatever the phase, the node store is empty or holds the tree of FREQ (R104, R186). -/
theorem inv_nodes {s : State} (h : Inv s) : s.eng.nodes = emptyNodes ∨ BuiltFrom s.eng := by
  have ht := h.tables
  cases hp : s.eng.phase <;> rw [hp] at ht
  · exact .inl ht
  · exact .inr ht
  · exact .inr ht.1
  · exact .inr ht.1
  · exact .inr ht.1
  · exact ht

theorem inv_raiseError {s : State} {code : ErrCode} {w : Word} (h : Inv s) (hc : code ≠ .none)
    (hi : s.eng.inflight = none) (hr : s.host.inReset = false) : Inv (raiseError code w s) :=
  have hn := inv_nodes h
  InvCore.idle
    ⟨⟨h.counted.total, h.counted.nsym⟩, hn, h.totalBound, h.queueEmpty, by simp [hc],
      fun e => absurd e hc, h.outFits⟩ (h.idleBuf hi) hi hr

theorem countSum_setSym (freq : Vector (BitVec 32) 256) (s : Byte) (v : BitVec 32) :
    countSum (setSym freq s v) + (symAt freq s).toNat = countSum freq + v.toNat := by
  unfold countSum
  have hmem := mem_symbols s
  have hnd := symbols_nodup
  generalize symbols = l at hmem hnd
  induction l with
  | nil => simp at hmem
  | cons a l ih =>
    rw [List.nodup_cons] at hnd
    simp only [List.map_cons, List.sum_cons, symAt_setSym]
    by_cases ha : a = s
    · subst ha
      have : (l.map fun x => (if x = a then v else symAt freq x).toNat) =
          l.map fun x => (symAt freq x).toNat := by
        refine List.map_congr_left fun x hx => ?_
        have : x ≠ a := fun e => hnd.1 (e ▸ hx)
        simp [this]
      simp only [if_true, this]
      omega
    · have := ih (by simpa [Ne.symm ha] using hmem) hnd.2
      simp only [symAt_setSym] at this
      simp only [ha, if_false]
      omega

theorem presentSymbols_setSym_same {freq : Vector (BitVec 32) 256} {s : Byte} {v : BitVec 32}
    (h : symAt freq s ≠ 0#32) (hv : v ≠ 0#32) :
    presentSymbols (setSym freq s v) = presentSymbols freq := by
  unfold presentSymbols
  refine List.filter_congr fun x _ => ?_
  rw [symAt_setSym]
  by_cases hx : x = s
  · subst hx
    have h1 : (v != 0#32) = true := by simpa using hv
    have h2 : (symAt freq x != 0#32) = true := by simpa using h
    rw [if_pos rfl, h1, h2]
  · simp [hx]

theorem presentSymbols_setSym_new {freq : Vector (BitVec 32) 256} {s : Byte} {v : BitVec 32}
    (h : symAt freq s = 0#32) (hv : v ≠ 0#32) :
    (presentSymbols (setSym freq s v)).length = (presentSymbols freq).length + 1 := by
  unfold presentSymbols
  have hmem := mem_symbols s
  have hnd := symbols_nodup
  generalize symbols = l at hmem hnd
  induction l with
  | nil => simp at hmem
  | cons a l ih =>
    rw [List.nodup_cons] at hnd
    by_cases ha : a = s
    · subst ha
      have : (l.filter fun x => symAt (setSym freq a v) x != 0#32) =
          l.filter fun x => symAt freq x != 0#32 := by
        refine List.filter_congr fun x hx => ?_
        have : x ≠ a := fun e => hnd.1 (e ▸ hx)
        simp [symAt_setSym, this]
      rw [List.filter_cons, List.filter_cons, this]
      simp [symAt_setSym, h, hv]
    · have := ih (by simpa [Ne.symm ha] using hmem) hnd.2
      rw [List.filter_cons, List.filter_cons]
      simp only [symAt_setSym, ha, if_false]
      split <;> simp_all [symAt_setSym]

/-- One counted symbol keeps the counts (R57 item 1, R100). -/
theorem counted_countSymbol {e : Engine} (h : Counted e) (draw : Nat) (sym : Byte)
    (ho : e.totalCount.toNat ≠ 2 ^ 32 - 1) :
    Counted (countSymbol draw sym e) ∧
    (∀ x, ((countSymbol draw sym e).freqOf x).toNat =
      (e.freqOf x).toNat + if x = sym then 1 else 0) ∧
    (countSymbol draw sym e).totalCount.toNat = e.totalCount.toNat + 1 ∧
    (countSymbol draw sym e).nsym.toNat =
      e.nsym.toNat + if e.freqOf sym = 0#32 then 1 else 0 := by
  have htot := e.totalCount.isLt
  have hle : (symAt e.freq sym).toNat ≤ countSum e.freq :=
    List.le_sum_of_mem (List.mem_map_of_mem (f := fun s => (symAt e.freq s).toNat) (mem_symbols sym))
  rw [← h.total] at hle
  have hf : (narrow .freq draw 32 ((e.freqOf sym).toNat + 1)).toNat = (e.freqOf sym).toNat + 1 :=
    narrow_toNat (by unfold Engine.freqOf; omega)
  have hn : (presentSymbols e.freq).length ≤ 256 := presentSymbols_length_le _
  have ht : (countSymbol draw sym e).totalCount.toNat = e.totalCount.toNat + 1 := by
    unfold countSymbol; exact narrow_toNat (by omega)
  have hs : (countSymbol draw sym e).nsym.toNat =
      e.nsym.toNat + if e.freqOf sym = 0#32 then 1 else 0 := by
    unfold countSymbol
    simp only
    split
    · exact narrow_toNat (by rw [h.nsym]; omega)
    · rfl
  have hne : narrow .freq draw 32 ((e.freqOf sym).toNat + 1) ≠ 0#32 := by
    intro e0; rw [e0] at hf; simp at hf
  refine ⟨⟨?_, ?_⟩, fun x => ?_, ht, hs⟩
  · rw [ht]
    have := countSum_setSym e.freq sym (narrow .freq draw 32 ((e.freqOf sym).toNat + 1))
    rw [hf, ← h.total] at this
    unfold Engine.freqOf at this
    show _ = countSum (setSym e.freq sym _)
    unfold Engine.freqOf
    omega
  · rw [hs, h.nsym]
    show _ = (presentSymbols (setSym e.freq sym _)).length
    split
    · next h0 => rw [presentSymbols_setSym_new h0 hne]
    · next h0 => rw [presentSymbols_setSym_same h0 hne]; rfl
  · show (symAt (setSym e.freq sym _) x).toNat = _
    rw [symAt_setSym]
    by_cases hx : x = sym
    · subst hx; simp [hf]
    · simp [hx, Engine.freqOf]

/-- The conditions under which the engine executes a command: nothing in flight, `rst_n` high, and the
host's last command is this one (R24, R210). -/
structure Accepting (s : State) : Prop where
  idle : s.eng.inflight = none
  running : s.host.inReset = false
  unseen : s.host.sawIdle = false

theorem inv_tables {s : State} (h : Inv s) {p : Phase} (hp : s.eng.phase = p) :
    TablesIn s.eng p := hp ▸ h.tables

/-- The phases that follow BUILD_CODES have its tree and its tables. -/
theorem inv_coded {s : State} (h : Inv s)
    (hp : s.eng.phase = .codes ∨ s.eng.phase = .pack ∨ s.eng.phase = .done) :
    BuiltFrom s.eng ∧ CodedFrom s.eng := by
  rcases hp with hp | hp | hp <;> exact inv_tables h hp

theorem inv_noError {s : State} (h : Inv s) (hp : s.eng.phase ≠ .error) :
    s.eng.errCode = .none := by
  by_contra hc; exact hp (h.errorRecorded.mpr hc)

theorem inv_freqInc {s t : State} {sym : Byte} (h : Inv s) (a : Accepting s)
    (ht : execFreqInc sym s = .next t) : Inv t := by
  rcases inPhase_next ht with ⟨-, rfl⟩ | ⟨-, -, rfl⟩ | ⟨-, hp, hb⟩
  · exact h
  · exact inv_raiseError h (by simp) a.idle a.running
  · split at hb
    · obtain rfl := by simpa using hb.symm
      exact inv_raiseError h (by simp) a.idle a.running
    · next ho =>
      obtain rfl := by simpa using hb.symm
      have hn := inv_tables h hp
      obtain ⟨hc, -, ht, -⟩ := counted_countSymbol h.counted s.draw sym ho
      refine InvCore.idle ⟨hc, ?_, ?_, h.queueEmpty, ?_, h.noErrorNoWord, h.outFits⟩
        (h.idleBuf a.idle) a.idle a.running
      · simp only [TablesIn, withEng_eng, countSymbol, hp]; exact hn
      · have hb := h.totalBound
        rw [withEng_eng, ht, Nat.add_mul]
        exact le_trans hb (Nat.le_add_right _ _)
      · exact h.errorRecorded

theorem inv_buildTree {s t : State} (h : Inv s) (a : Accepting s)
    (ht : execBuildTree s = .next t) : Inv t := by
  rcases inPhase_next ht with ⟨-, rfl⟩ | ⟨-, -, rfl⟩ | ⟨hne, hp, hb⟩
  · exact h
  · exact inv_raiseError h (by simp) a.idle a.running
  · split at hb
    · obtain rfl := by simpa using hb.symm
      exact inv_raiseError h (by simp) a.idle a.running
    · next hz =>
      simp only at hb
      split at hb
      · simp at hb
      · next x hx =>
        obtain rfl := by simpa using hb.symm
        have hn : s.eng.nodes = emptyNodes := inv_tables h hp
        rw [hn] at hx
        have he := inv_noError h hne
        refine InvCore.idle ⟨⟨h.counted.total, h.counted.nsym⟩, ?_, h.totalBound, rfl, ?_,
          h.noErrorNoWord, h.outFits⟩ (h.idleBuf a.idle) a.idle a.running
        · exact ⟨s.draw, x, hx, by rw [hn]; rfl, rfl, by rw [hn]; rfl, rfl, hz⟩
        · simp [plantTree, he]

theorem inv_buildCodes {s t : State} (h : Inv s) (a : Accepting s)
    (ht : execBuildCodes s = .next t) : Inv t := by
  rcases inPhase_next ht with ⟨-, rfl⟩ | ⟨-, -, rfl⟩ | ⟨hne, hp, hb⟩
  · exact h
  · exact inv_raiseError h (by simp) a.idle a.running
  · split at hb
    · simp at hb
    · next tab htab =>
      obtain rfl := by simpa using hb.symm
      have hbt : BuiltFrom s.eng := inv_tables h hp
      have he := inv_noError h hne
      refine InvCore.idle ⟨⟨h.counted.total, h.counted.nsym⟩, ⟨hbt, ?_⟩, ?_, h.queueEmpty, ?_,
        h.noErrorNoWord, h.outFits⟩ (h.idleBuf a.idle) a.idle a.running
      · exact ⟨s.draw, tab, htab, rfl, rfl, rfl, rfl⟩
      · have := totalBitsOf_le s.eng.freq tab.len
        rw [← h.counted.total] at this
        exact le_trans (BitVec.toNat_ofNat _ _ ▸ Nat.mod_le _ _) this
      · simp [writeCodes, he]

theorem inv_emitHeader {s t : State} (h : Inv s) (a : Accepting s)
    (ht : execEmitHeader s = .next t) : Inv t := by
  rcases inPhase_next ht with ⟨-, rfl⟩ | ⟨-, -, rfl⟩ | ⟨hne, hp, hb⟩
  · exact h
  · exact inv_raiseError h (by simp) a.idle a.running
  · split at hb
    · simp at hb
    · next text htext =>
      obtain rfl := by simpa using hb.symm
      exact inv_pushAll h.core ⟨hp, h.idleBuf a.idle⟩ a.unseen a.running

theorem inv_pack {s t : State} {sym : Byte} (h : Inv s) (a : Accepting s)
    (ht : execPack sym s = .next t) : Inv t := by
  rcases inPhase_next ht with ⟨-, rfl⟩ | ⟨-, -, rfl⟩ | ⟨hne, hp, hb⟩
  · exact h
  · exact inv_raiseError h (by simp) a.idle a.running
  · simp only at hb
    split at hb
    · obtain rfl := by simpa using hb.symm
      exact inv_raiseError h (by simp) a.idle a.running
    · obtain rfl := by simpa using hb.symm
      have hbb := h.idleBuf a.idle
      have hlen := (s.eng.codeLenOf sym).isLt
      have hsub := s.eng.subIndex.isLt
      have hshape := packBits_shape (sub := s.eng.subIndex.toNat)
        (len := (s.eng.codeLenOf sym).toNat) (code := (s.eng.codeOf sym).toNat) (by omega)
        (by omega) hbb.1 hbb.2
      have htab := h.tables
      refine inv_pushAll ⟨⟨h.counted.total, h.counted.nsym⟩, ?_, h.totalBound, h.queueEmpty,
        h.errorRecorded, h.noErrorNoWord, h.outFits⟩ ⟨hp, ?_⟩ a.unseen a.running
      · simp only [TablesIn, withEng_eng, hp] at htab ⊢
        exact htab
      · simp only [withEng_eng, FreeBitsClear]
        rw [hshape.1, BitVec.toNat_ofNat, Nat.mod_mod_of_dvd _ (by decide)]
        exact hshape.2.1

theorem inv_finish {s t : State} (h : Inv s) (a : Accepting s)
    (ht : execFinish s = .next t) : Inv t := by
  rcases inPhase_next ht with ⟨-, rfl⟩ | ⟨-, -, rfl⟩ | ⟨hne, hp, hb⟩
  · exact h
  · exact inv_raiseError h (by simp) a.idle a.running
  · split at hb
    · obtain rfl := by simpa using hb.symm
      exact inv_raiseError h (by simp) a.idle a.running
    · split at hb
      · obtain rfl := by simpa using hb.symm
        exact inv_pushAll h.core ⟨hp, h.idleBuf a.idle⟩ a.unseen a.running
      · obtain rfl := by simpa using hb.symm
        exact inv_pushAll h.core ⟨hp, h.idleBuf a.idle⟩ a.unseen a.running

/-- Every command keeps the invariant. -/
theorem inv_exec {s t : State} {i : Instr} (h : Inv s) (a : Accepting s)
    (ht : exec i s = .next t) : Inv t := by
  cases i with
  | nop =>
    have : s = t := by simpa [exec, execNop] using ht
    exact this ▸ h
  | clear =>
    obtain rfl := by simpa [exec, execClear] using ht.symm
    exact inv_of_resetEngine rfl
  | freqInc sym => exact inv_freqInc h a ht
  | buildTree => exact inv_buildTree h a ht
  | buildCodes => exact inv_buildCodes h a ht
  | emitHeader => exact inv_emitHeader h a ht
  | pack sym => exact inv_pack h a ht
  | finish => exact inv_finish h a ht

/-! ### The moves -/

theorem inv_illegalWord {s t : State} {w : Word} (h : Inv s) (a : Accepting s)
    (ht : illegalWord w s = .next t) : Inv t := by
  unfold illegalWord at ht
  split at ht
  · obtain rfl := by simpa using ht.symm
    exact h
  · obtain rfl := by simpa using ht.symm
    exact inv_raiseError h (by simp) a.idle a.running

theorem inv_execWord {s t : State} {w : Word} (h : Inv s) (a : Accepting s)
    (ht : execWord w s = .next t) : Inv t := by
  unfold execWord at ht
  split at ht
  · exact inv_exec h a ht
  · exact inv_illegalWord h a ht

/-- A change of the host's side that neither claims a wait is over nor moves `rst_n` keeps the
invariant. -/
theorem inv_withHost {s : State} (h : Inv s) {g : HostSide}
    (hs : s.eng.inflight ≠ none → g.sawIdle = false)
    (hr : g.inReset = true → s.eng = Engine.reset) : Inv (s.withHost g) where
  counted := h.counted
  tables := h.tables
  totalBound := h.totalBound
  queueEmpty := h.queueEmpty
  errorRecorded := h.errorRecorded
  noErrorNoWord := h.noErrorNoWord
  idleBuf := h.idleBuf
  waits := h.waits
  busyUnseen := hs
  outFits := h.outFits
  resetHolds := hr

theorem inv_nextDraw {s : State} (h : Inv s) : Inv s.nextDraw :=
  ⟨h.counted, h.tables, h.totalBound, h.queueEmpty, h.errorRecorded, h.noErrorNoWord, h.idleBuf,
    h.waits, h.busyUnseen, h.outFits, h.resetHolds⟩

theorem inv_engineTurn {s t : State} (h : Inv s) (ht : engineTurn s = .next t) : Inv t := by
  unfold engineTurn at ht
  split at ht
  · obtain rfl := by simpa using ht.symm
    exact h
  · next hr =>
    have hr : s.host.inReset = false := by simpa using hr
    split at ht
    · next f hf =>
      obtain rfl := by simpa using ht.symm
      exact inv_pushAll h.core (h.waits f hf) (h.busyUnseen (by simp [hf])) hr
    · next hi =>
      split at ht
      · obtain rfl := by simpa using ht.symm
        exact h
      · next w rest _ =>
        refine inv_execWord (s := acceptWord rest s) (inv_withHost h (fun _ => rfl) (fun e => ?_))
          ⟨hi, hr, rfl⟩ ht
        simp [hr] at e

theorem inv_takeByte {s : State} (h : Inv s) : Inv (takeByte s) := by
  unfold takeByte
  split
  · exact h
  · next b rest hout =>
    have hr : s.host.inReset = true → False := fun e => by
      have := h.resetHolds e
      rw [this] at hout
      simp at hout
    exact
      { counted := ⟨h.counted.total, h.counted.nsym⟩
        tables := h.tables
        totalBound := h.totalBound
        queueEmpty := h.queueEmpty
        errorRecorded := h.errorRecorded
        noErrorNoWord := h.noErrorNoWord
        idleBuf := h.idleBuf
        waits := fun f hf => by
          have := h.waits f hf
          unfold WaitsWell at this ⊢
          cases hc : f.closing <;> simp only [hc] at this ⊢ <;> exact this
        busyUnseen := h.busyUnseen
        outFits := fun d hd => by
          have := h.outFits d hd
          rw [hout, List.length_cons] at this
          simp; omega
        resetHolds := fun e => (hr e).elim }

theorem inv_move {s t : State} {ev : Event} (h : Inv s) (ht : move ev s = .next t) : Inv t := by
  cases ev with
  | engine => exact inv_engineTurn h ht
  | offer w =>
    obtain rfl := by simpa [move] using ht.symm
    exact inv_withHost h h.busyUnseen h.resetHolds
  | read a =>
    obtain rfl := by simpa [move] using ht.symm
    refine inv_withHost h (fun hb => ?_) h.resetHolds
    have : s.eng.busy = true := by
      unfold Engine.busy
      cases hi : s.eng.inflight with
      | none => exact absurd hi hb
      | some f => rfl
    simp [h.busyUnseen hb, this]
  | take =>
    obtain rfl := by simpa [move] using ht.symm
    exact inv_takeByte h
  | resetLow =>
    obtain rfl := by simpa [move] using ht.symm
    exact inv_of_resetEngine rfl
  | resetHigh =>
    obtain rfl := by simpa [move] using ht.symm
    unfold resetHigh
    split
    · exact inv_of_resetEngine rfl
    · exact inv_withHost h h.busyUnseen (by simp)

/-- Every move of the schedule keeps the invariant. -/
theorem inv_nextMove {s t : State} (h : Inv s) (ht : nextMove s = .next t) : Inv t := by
  unfold nextMove at ht
  split at ht
  · exact inv_engineTurn h ht
  · next ev rest _ =>
    exact inv_move (inv_withHost (g := { s.host with events := rest }) h h.busyUnseen h.resetHolds) ht

end Sys2Proof.Machine
end

