-- ==== Sys2Proof/Laws/Exec.lean ====
section
/-! SUPPORT. Each command where it completes, as one equation; the numbers of a built tree and a built
code table; and the moves of a step. -/

namespace Sys2Proof.Machine

theorem ofNat_toNat_lt {w n : Nat} (h : n < 2 ^ w) : (BitVec.ofNat w n).toNat = n := by
  rw [BitVec.toNat_ofNat, Nat.mod_eq_of_lt h]

/-! ### Pushing -/

theorem roomFor_mono {s : State} {m n : Nat} (h : RoomFor s n) (hm : m ≤ n) : RoomFor s m := by
  intro d hd
  have := h d hd
  omega

theorem roomFor_unbounded {s : State} (h : s.build.outDepth = none) (n : Nat) : RoomFor s n := by
  intro d hd
  rw [h] at hd
  simp at hd

theorem roomFor_some {s : State} {d : OutDepth} {n : Nat} (h : s.build.outDepth = some d)
    (hn : s.eng.out.length + n ≤ d.entries) : RoomFor s n := by
  intro e he
  rw [h] at he
  obtain rfl := Option.some.inj he
  exact hn

/-- Pushing only appends to OUT (R50). -/
theorem pushAll_grows (bytes : List Byte) (c : Closing) (s : State) :
    s.eng.out <+: (pushAll bytes c s).eng.out := by
  rcases pushAll_cases bytes c s with e | ⟨done, rest, d, -, -, -, -, -, e⟩ <;> rw [e] <;> simp

@[simp] theorem pushAll_errCode (bytes : List Byte) (c : Closing) (s : State) :
    (pushAll bytes c s).eng.errCode = s.eng.errCode := by
  rcases pushAll_cases bytes c s with e | ⟨done, rest, d, -, -, -, -, -, e⟩ <;> rw [e]
  · cases c <;> rfl
  · rfl

/-- Pushing does not enter the error phase. -/
theorem pushAll_phase_ne (bytes : List Byte) (c : Closing) {s : State} (h : s.eng.phase ≠ .error) :
    (pushAll bytes c s).eng.phase ≠ .error := by
  rcases pushAll_cases bytes c s with e | ⟨done, rest, d, -, -, -, -, -, e⟩ <;> rw [e]
  · cases c <;> simp [closeCommand, h]
  · exact h

/-! ### BUILD_TREE -/

/-- What the store holds of a built tree, with its numbers (R118, R120). -/
theorem grove_of_built {e : Engine} (hb : BuiltFrom e) (hc : Counted e) :
    ∃ draw x t, Grove e.freq (presentSymbols e.freq) (forgeTree draw emptyNodes e.freq) [t] ∧
      (forgeTree draw emptyNodes e.freq).q = [x] ∧
      e.nodes = (forgeTree draw emptyNodes e.freq).nodes ∧ e.root = BitVec.ofNat 9 x.val ∧
      (forgeTree draw emptyNodes e.freq).k = 2 * e.nsym.toNat - 1 ∧
      e.nnodes.toNat = 2 * e.nsym.toNat - 1 ∧ Rep e.nodes t x ∧
      t.weight = e.totalCount.toNat ∧ 1 ≤ e.nsym.toNat ∧ e.nsym.toNat ≤ 256 ∧
      (presentSymbols e.freq).length = e.nsym.toNat := by
  obtain ⟨draw, x, hq, hn, hr, hk, -, hz⟩ := hb
  have hw : countSum e.freq < 2 ^ 32 := by rw [← hc.total]; exact e.totalCount.isLt
  have hz' : e.nsym.toNat ≠ 0 := fun h => hz (BitVec.eq_of_toNat_eq (by simpa using h))
  have hne : presentSymbols e.freq ≠ [] := by
    intro h
    have := hc.nsym
    rw [h] at this
    exact hz' (by simpa using this)
  obtain ⟨t, y, ht, hy, hrep, hkk, htw, -⟩ := forgeTree_one draw hw hne
  have g := forgeTree_grove draw hw
  rw [ht] at g
  rw [hy] at hq
  obtain rfl : y = x := by simpa [qPeekMin] using hq
  have hns := hc.nsym
  have hle : (presentSymbols e.freq).length ≤ 256 := presentSymbols_length_le _
  rw [← hns] at hkk
  exact ⟨draw, y, t, g, hy, hn, hr, hkk, by rw [hk, ofNat_toNat_lt (by omega), hkk], hn ▸ hrep,
    by rw [htw, hc.total], by omega, by omega, hns.symm⟩

/-- BUILD_TREE with something counted (R115). -/
theorem exec_buildTree_ok {s : State} (hi : Inv s) (hp : s.eng.phase = .count)
    (hn : s.eng.nsym ≠ 0#9) :
    ∃ x, exec .buildTree s =
        .next (s.withEng (plantTree (forgeTree s.draw s.eng.nodes s.eng.freq) x s.eng)) ∧
      BuiltFrom (plantTree (forgeTree s.draw s.eng.nodes s.eng.freq) x s.eng) := by
  have hnodes : s.eng.nodes = emptyNodes := inv_tables hi hp
  have hw : countSum s.eng.freq < 2 ^ 32 := by
    rw [← hi.counted.total]; exact s.eng.totalCount.isLt
  have hne : presentSymbols s.eng.freq ≠ [] := by
    intro h
    have := hi.counted.nsym
    rw [h] at this
    exact hn (BitVec.eq_of_toNat_eq (by simpa using this))
  obtain ⟨t, x, -, hx, -⟩ := forgeTree_one s.draw hw hne
  refine ⟨x, ?_, s.draw, x, ?_, ?_, rfl, ?_, rfl, hn⟩
  · simp only [exec, execBuildTree]
    rw [inPhase_ok hp (by simp), if_neg hn, hnodes]
    simp [hx, qPeekMin]
  · show qPeekMin (forgeTree s.draw emptyNodes s.eng.freq).q = _
    rw [hx]; rfl
  · show (forgeTree _ _ _).nodes = (forgeTree _ _ _).nodes
    rw [hnodes]; rfl
  · show BitVec.ofNat 10 (forgeTree _ _ _).k = BitVec.ofNat 10 (forgeTree _ _ _).k
    rw [hnodes]; rfl

/-- Once one index is added to the child links, each index is there once: so each is the child of one
node but that one. -/
theorem count_of_perm {l : List Nat} {r n : Nat} (h : (r :: l).Perm (List.range n)) (j : Nat)
    (hj : j < n) : l.count j = if j = r then 0 else 1 := by
  have h1 := h.count_eq j
  have h2 : (List.range n).count j = 1 :=
    List.count_eq_one_of_mem List.nodup_range (List.mem_range.mpr hj)
  rw [h2, List.count_cons] at h1
  by_cases hr : j = r
  · subst hr; simp at h1; simp [h1]
  · have : ¬ r = j := fun e => hr e.symm
    simp [this] at h1; simp [hr, h1]

/-! ### BUILD_CODES -/

/-- BUILD_CODES on the engine's own tree (R130, R131). -/
theorem exec_buildCodes_ok {s : State} (hi : Inv s) (hp : s.eng.phase = .tree) :
    ∃ tr tab, tBuild s.eng.freq = [tr] ∧
      exec .buildCodes s = .next (s.withEng (writeCodes tab s.eng)) ∧
      BuiltFrom (writeCodes tab s.eng) ∧ CodedFrom (writeCodes tab s.eng) ∧
      Counted (writeCodes tab s.eng) := by
  have hb : BuiltFrom s.eng := inv_tables hi hp
  obtain ⟨tr, x, htr, -⟩ := built_tree hb hi.counted
  have hk := codeTable_built hb hi.counted htr s.draw
  refine ⟨tr, _, htr, ?_, hb, ⟨s.draw, _, hk, rfl, rfl, rfl, rfl⟩, hi.counted.total,
    hi.counted.nsym⟩
  simp only [exec, execBuildCodes]
  rw [inPhase_ok hp (by simp), hk]

theorem codeString_eq {e : Engine} {t : HTree} (c : Coded e t) {p : Byte × List Bool}
    (hp : p ∈ t.table) : codeString e p.1 = p.2 := by
  unfold codeString
  rw [(c.mem p hp).1, (c.mem p hp).2, codeBits_bitsVal]

theorem leaf_iff_present {e : Engine} {t : HTree} (hperm : t.leaves.Perm (presentSymbols e.freq))
    (x : Byte) : x ∈ t.leaves ↔ e.freqOf x ≠ 0#32 := by
  rw [hperm.mem_iff, mem_presentSymbols]; rfl

/-- The counts of any table. -/
theorem countSum_lt (freq : Vector (BitVec 32) 256) : countSum freq < 2 ^ 40 := by
  have h : countSum freq ≤ (symbols.map fun _ => 1 * (2 ^ 32 - 1)).sum := by
    refine sum_le_sum fun x _ => ?_
    have := (symAt freq x).isLt
    omega
  rw [sum_mul_const] at h
  have : (symbols.map fun _ => 1).sum = 256 := by
    rw [List.map_const', List.sum_replicate, symbols_length]; rfl
  rw [this] at h
  omega

/-- TOTAL_BITS and PADDING of a coded engine (R132, R133, R136). -/
theorem totals_of_coded {e : Engine} (hc : Counted e) (h : CodedFrom e) :
    e.totalBits.toNat = totalBitsOf e.freq e.codeLen ∧
      e.totalBits.toNat ≤ e.totalCount.toNat * 255 ∧
      e.padding.toNat = (8 - e.totalBits.toNat % 8) % 8 := by
  obtain ⟨draw, tab, -, hl, -, htb, hpd⟩ := h
  have h1 := totalBitsOf_le e.freq tab.len
  have h2 := e.totalCount.isLt
  have h3 := hc.total
  have h4 : e.totalBits.toNat = totalBitsOf e.freq tab.len := by
    rw [htb]; exact ofNat_toNat_lt (by omega)
  refine ⟨by rw [h4, hl], by rw [h4, h3]; exact h1, ?_⟩
  rw [h4, hpd]
  exact ofNat_toNat_lt (by unfold paddingOf; omega)

/-! ### EMIT_HEADER, PACK and FINISH -/

/-- EMIT_HEADER pushes the two lines, whatever the room in OUT (R141). -/
theorem exec_emitHeader_push {s : State} {text : List Byte} (hp : s.eng.phase = .codes)
    (ht : treeText s.eng = .ok text) :
    exec .emitHeader s =
      .next (pushAll (text ++ headerTail s.eng.padding) (.header text.length) s) := by
  simp only [exec, execEmitHeader]
  rw [inPhase_ok hp (by simp), ht]

/-- PACK with a code pushes the bytes it finalizes, whatever the room in OUT (R152, R157). -/
theorem exec_pack_push {sym : Byte} {s : State} (hp : s.eng.phase = .pack)
    (hl : s.eng.codeLenOf sym ≠ 0#8) (hb : BufBetween s.eng) :
    let len := (s.eng.codeLenOf sym).toNat
    let sub := s.eng.subIndex.toNat
    let b := (packBits sub len (s.eng.codeOf sym).toNat s.eng.buf).1
    exec (.pack sym) s = .next (pushAll (b.toList.take ((sub + len) / 8)) (.pack ((sub + len) / 8) len)
      (s.withEng { s.eng with buf := b, subIndex := BitVec.ofNat 3 ((sub + len) % 8) })) ∧
    (sub + len) / 8 ≤ 32 ∧ (b.toList.take ((sub + len) / 8)).length = (sub + len) / 8 := by
  intro len sub b
  have hlen : len < 2 ^ 8 := (s.eng.codeLenOf sym).isLt
  have hsub : sub < 2 ^ 3 := s.eng.subIndex.isLt
  have hl0 : len ≠ 0 := fun h => hl (BitVec.eq_of_toNat_eq h)
  have hshape := (packBits_shape (sub := sub) (len := len) (code := (s.eng.codeOf sym).toNat)
    (buf := s.eng.buf) (by omega) (by omega) hb.1 hb.2).1
  refine ⟨?_, by omega, by simp; omega⟩
  simp only [exec, execPack]
  rw [inPhase_ok hp (by simp), if_neg hl0]
  show Host.Outcome.next (pushAll
    (b.toList.take (packBits sub len (s.eng.codeOf sym).toNat s.eng.buf).2) _ _) = _
  rw [hshape]

/-- PACK with a code and with room for the bytes it finalizes (R152). -/
theorem exec_pack_ok {sym : Byte} {s : State} (hp : s.eng.phase = .pack)
    (hl : s.eng.codeLenOf sym ≠ 0#8) (hb : BufBetween s.eng)
    (hroom : RoomFor s ((s.eng.subIndex.toNat + (s.eng.codeLenOf sym).toNat) / 8)) :
    let len := (s.eng.codeLenOf sym).toNat
    let sub := s.eng.subIndex.toNat
    let b := (packBits sub len (s.eng.codeOf sym).toNat s.eng.buf).1
    exec (.pack sym) s = .next (s.withEng (closeCommand s.draw (.pack ((sub + len) / 8) len)
      { s.eng with
        buf := b, subIndex := BitVec.ofNat 3 ((sub + len) % 8)
        out := s.eng.out ++ b.toList.take ((sub + len) / 8) })) ∧
    (sub + len) / 8 ≤ 32 ∧ (b.toList.take ((sub + len) / 8)).length = (sub + len) / 8 := by
  intro len sub b
  obtain ⟨hx, h32, hle⟩ := exec_pack_push hp hl hb
  refine ⟨?_, h32, hle⟩
  rw [hx, pushAll_room]
  · rfl
  · rw [hle]; exact hroom

/-- FINISH with all bits packed pushes the partial byte where the policy flushes it, whatever the room
in OUT (R158). -/
theorem exec_finish_push {s : State} (hp : s.eng.phase = .pack)
    (he : s.eng.packedBits = s.eng.totalBits) :
    exec .finish s = .next (pushAll
      (if flushes s.build.flushPolicy s.eng then [s.eng.buf[0]] else [])
      (.finish (if flushes s.build.flushPolicy s.eng then 1 else 0)) s) := by
  simp only [exec, execFinish]
  rw [inPhase_ok hp (by simp), if_neg (by simp [he])]
  split <;> rfl

/-- Nothing to push needs no room, whatever OUT holds. -/
theorem pushAll_nil (c : Closing) (s : State) :
    pushAll [] c s = s.withEng (closeCommand s.draw c s.eng) := rfl

/-- FINISH with all bits packed, and with room for the byte where it flushes one (R158). -/
theorem exec_finish_ok {s : State} (hp : s.eng.phase = .pack)
    (he : s.eng.packedBits = s.eng.totalBits)
    (hroom : flushes s.build.flushPolicy s.eng = true → RoomFor s 1) :
    exec .finish s = .next (s.withEng (closeCommand s.draw
      (.finish (if flushes s.build.flushPolicy s.eng then 1 else 0))
      { s.eng with out := s.eng.out ++
        (if flushes s.build.flushPolicy s.eng then [s.eng.buf[0]] else []) })) := by
  rw [exec_finish_push hp he]
  split
  · next h => rw [pushAll_room (hroom h)]
  · rw [pushAll_nil]; simp

/-! ### The step -/

/-- No command touches the host's side, the build or the draw (R22, R66). -/
theorem exec_keeps {i : Instr} {s t : State} (h : exec i s = .next t) :
    t.host = s.host ∧ t.build = s.build ∧ t.draw = s.draw := by
  cases i
  case nop => obtain rfl : s = t := by simpa [exec, execNop] using h
              exact ⟨rfl, rfl, rfl⟩
  case clear => obtain rfl : clearEngine s = t := by simpa [exec, execClear] using h
                exact ⟨rfl, rfl, rfl⟩
  all_goals
    rcases inPhase_next h with ⟨-, rfl⟩ | ⟨-, -, rfl⟩ | ⟨-, -, hb⟩
    · exact ⟨rfl, rfl, rfl⟩
    · exact ⟨rfl, rfl, rfl⟩
    · repeat' first | split at hb | simp only at hb
      all_goals cases hb <;> simp

theorem execWord_keeps {w : Word} {s t : State} (h : execWord w s = .next t) :
    t.host = s.host ∧ t.build = s.build ∧ t.draw = s.draw := by
  unfold execWord at h
  split at h
  · exact exec_keeps h
  · unfold illegalWord at h
    split at h <;> obtain rfl := by simpa using h.symm
    · exact ⟨rfl, rfl, rfl⟩
    · exact ⟨rfl, rfl, rfl⟩

/-- Everything an engine's turn can do: nothing, the waiting command, or the word at the head of the
port (R24, R197, R198, R200). -/
theorem engineTurn_cases {s t : State} (h : engineTurn s = .next t) :
    (t = s ∧ (s.host.inReset = true ∨ s.eng.inflight = none ∧ s.host.port = [])) ∨
    (∃ f, s.eng.inflight = some f ∧ s.host.inReset = false ∧ t = resume f s) ∨
    (∃ w rest, cmdReady s = true ∧ s.host.port = w :: rest ∧
      execWord w (acceptWord rest s) = .next t) := by
  unfold engineTurn at h
  split at h
  · next hr => exact .inl ⟨by simpa using h.symm, .inl hr⟩
  · next hr =>
    have hr : s.host.inReset = false := by simpa using hr
    split at h
    · next f hf => exact .inr (.inl ⟨f, hf, hr, by simpa using h.symm⟩)
    · next hf =>
      split at h
      · next hp => exact .inl ⟨by simpa using h.symm, .inr ⟨hf, hp⟩⟩
      · next w rest hp =>
        exact .inr (.inr ⟨w, rest, by simp [cmdReady, Engine.busy, hr, hf], hp, h⟩)

/-- Everything a step can do: it takes the move at the head of the schedule, the engine's turn where
the schedule is empty, with a new draw. -/
theorem step_split {s t : State} (h : step s = .next t) :
    ((s.host.events.head? = some .engine ∨ s.host.events = []) ∧
      engineTurn (s.nextDraw.withHost { s.host with events := s.host.events.tail }) = .next t) ∨
    (∃ ev, ev ≠ .engine ∧ ∃ rest, s.host.events = ev :: rest ∧
      move ev (s.nextDraw.withHost { s.host with events := rest }) = .next t) := by
  unfold step nextMove at h
  split at h
  · next he =>
    have he : s.host.events = [] := he
    refine .inl ⟨.inr he, ?_⟩
    have tail_nil : ∀ g : HostSide, g.events = [] → { g with events := g.events.tail } = g := by
      rintro ⟨⟩ rfl; rfl
    rw [tail_nil _ he]
    exact h
  · next ev rest he =>
    have he : s.host.events = ev :: rest := he
    by_cases hev : ev = .engine
    · subst hev
      refine .inl ⟨.inl (by rw [he]; rfl), ?_⟩
      rw [he]
      exact h
    · exact .inr ⟨ev, hev, rest, he, h⟩

end Sys2Proof.Machine
end

