-- ==== Sys2Proof/Laws/PerInstr.lean ====
section
/-! SUPPORT. One lemma per command about its word: the fields hold what R80 to R83 say, and the word
is well formed (R85). -/

namespace Sys2Proof.Laws.Fields

/-- The word of `i` has its opcode, a clear reserved field and its operand, and passes the checks. -/
def Statement (i : Instr) : Prop :=
  CommandWord.op (encode i) = opcode i ∧ CommandWord.rsv (encode i) = 0#16 ∧
    CommandWord.sym (encode i) = operand i ∧ CommandWord.wellFormed (encode i) = true ∧
    i.wellFormed = true

/-- The fields hold for any command; what is left is the opcode's own checks. -/
theorem of_checks {i : Instr} (hop : (opcode i).toNat < 8)
    (hsym : (opcode i == 0x02#8 || opcode i == 0x06#8 || operand i == 0#8) = true)
    (hwf : i.wellFormed = true) : Statement i := by
  refine ⟨op_encode i, rsv_encode i, sym_encode i, ?_, hwf⟩
  simp only [CommandWord.wellFormed, CommandWord.reservedClear, CommandWord.opcodeKnown,
    CommandWord.operandAllowed, op_encode, rsv_encode, sym_encode, hsym, hop]
  rfl

theorem nop : Statement .nop := of_checks (by decide) (by decide) rfl
theorem clear : Statement .clear := of_checks (by decide) (by decide) rfl
theorem freqInc (sym : Byte) : Statement (.freqInc sym) :=
  of_checks (by simp [opcode]) (by simp [opcode]) (by simpa [Instr.wellFormed] using sym.isLt)
theorem buildTree : Statement .buildTree := of_checks (by decide) (by decide) rfl
theorem buildCodes : Statement .buildCodes := of_checks (by decide) (by decide) rfl
theorem emitHeader : Statement .emitHeader := of_checks (by decide) (by decide) rfl
theorem pack (sym : Byte) : Statement (.pack sym) :=
  of_checks (by simp [opcode]) (by simp [opcode]) (by simpa [Instr.wellFormed] using sym.isLt)
theorem finish : Statement .finish := of_checks (by decide) (by decide) rfl

end Sys2Proof.Laws.Fields
end

