-- ==== Sys2Proof/Tests/Slice0.lean ====
section
/-! SUPPORT. Tests of the model against the spec's own words and vectors, and for each statement with
hypotheses a named witness that meets them. -/

namespace Sys2Proof.Tests

open Sys2Proof Sys2Proof.Machine

/-! ### Helpers -/

/-- `s` after one step on the word `w` at its port; `s` itself where the machine stops. -/
def feed (s : State) (w : Word) : State :=
  match step (s.withHost { s.host with port := [w] }) with
  | .next t => t
  | .fault _ => s
  | .refused _ => s

theorem inv_feed {s : State} (h : Inv s) (w : Word) : Inv (feed s w) := by
  unfold feed
  split
  · next t ht =>
    exact inv_nextMove (inv_nextDraw (inv_withHost (g := { s.host with port := [w] }) h h.busyUnseen
      h.resetHolds)) ht
  · exact h
  · exact h

/-- What `p` says of the next state; false where the machine stops. -/
def nextMeets (o : Host.Outcome State Fault Refusal) (p : State → Bool) : Bool :=
  match o with
  | .next t => p t
  | .fault _ => false
  | .refused _ => false

/-- A table of counts. -/
def tally (l : List (Byte × Nat)) : Vector (BitVec 32) 256 :=
  l.foldl (fun t p => setSym t p.1 (BitVec.ofNat 32 p.2)) (Vector.replicate 256 0#32)

/-- The engine in PACK with BUF[0], SUB_INDEX and the code of 'a' as given: the start of the vectors
V-P1 to V-P16. -/
def packing (b0 : Byte) (sub : BitVec 3) (len : BitVec 8) (code : BitVec 255) : State :=
  { State.reset with eng := { Engine.reset with
      phase := .pack
      buf := resetBuf ((Vector.replicate 34 0#8).set 0 b0) 0
      subIndex := sub
      codeLen := setSym Engine.reset.codeLen 0x61#8 len
      code := setSym Engine.reset.code 0x61#8 code } }

theorem packing_buf (b0 : Byte) (sub : BitVec 3) (len : BitVec 8) (code : BitVec 255)
    (h : FreeBitsClear b0 sub) : BufBetween (packing b0 sub len code).eng := by
  refine ⟨resetBuf_tail _ _, ?_⟩
  show FreeBitsClear (resetBuf _ 0)[0] sub
  rw [resetBuf_zero]
  simpa using h

/-- The bytes pushed, LAST_FILLED, SUB_INDEX, BUF[0] and PACKED_BITS after PACK 'a'. -/
def packGives (s : State) (pushed : List Byte) (filled : BitVec 6) (sub : BitVec 3) (b0 : Byte)
    (bits : BitVec 64) : Bool :=
  nextMeets (exec (.pack 0x61#8) s) fun t =>
    t.eng.out == pushed && t.eng.lastFilled == filled && t.eng.subIndex == sub &&
      t.eng.buf[0] == b0 && t.eng.packedBits == bits

/-- After an error: BUILD_TREE with nothing counted. -/
def failed : State := raiseError .emptyInput 0x03000000#32 State.reset

theorem inv_failed : Inv failed := inv_raiseError (inv_of_resetEngine rfl) (by simp) rfl rfl

/-- Reset of a build whose OUT has 11 entries: room for the whole output of a run over two symbols. -/
def start : State :=
  { State.reset with build := { flushPolicy := .pending, outDepth := some { beyondFirst := 10 } } }

/-- "aaab" (V-T1), counted; then after BUILD_TREE, BUILD_CODES and EMIT_HEADER. -/
def counted4 : State :=
  feed (feed (feed (feed start 0x02000061#32) 0x02000061#32) 0x02000061#32) 0x02000062#32
def tree4 : State := feed counted4 0x03000000#32
def codes4 : State := feed tree4 0x04000000#32
def header4 : State := feed codes4 0x05000000#32
def done4 : State :=
  feed (feed (feed (feed (feed header4 0x06000061#32) 0x06000061#32) 0x06000061#32) 0x06000062#32)
    0x07000000#32

theorem inv_counted4 : Inv counted4 :=
  inv_feed (inv_feed (inv_feed (inv_feed (inv_of_resetEngine rfl) _) _) _) _
theorem inv_tree4 : Inv tree4 := inv_feed inv_counted4 _
theorem inv_codes4 : Inv codes4 := inv_feed inv_tree4 _
theorem inv_header4 : Inv header4 := inv_feed inv_codes4 _
theorem inv_done4 : Inv done4 :=
  inv_feed (inv_feed (inv_feed (inv_feed (inv_feed inv_header4 _) _) _) _) _

/-- "z": one symbol, counted once; then after the three builds and one PACK. -/
def counted1 : State := feed State.reset 0x0200007A#32
def tree1 : State := feed counted1 0x03000000#32
def codes1 : State := feed tree1 0x04000000#32
def header1 : State := feed codes1 0x05000000#32
def packed1 : State := feed header1 0x0600007A#32
def done1 : State := feed packed1 0x07000000#32

theorem inv_counted1 : Inv counted1 := inv_feed (inv_of_resetEngine rfl) _
theorem inv_tree1 : Inv tree1 := inv_feed inv_counted1 _
theorem inv_codes1 : Inv codes1 := inv_feed inv_tree1 _
theorem inv_packed1 : Inv packed1 := inv_feed (inv_feed inv_codes1 _) _
theorem inv_done1 : Inv done1 := inv_feed inv_packed1 _

/-- The same state in a build with the other FLUSH_POLICY. -/
def withPolicy (p : FlushPolicy) (s : State) : State :=
  { s with build := { s.build with flushPolicy := p } }

theorem withPolicy_outDepth (p : FlushPolicy) (s : State) :
    (withPolicy p s).build.outDepth = s.build.outDepth := rfl

theorem withPolicy_eng (p : FlushPolicy) (s : State) : (withPolicy p s).eng = s.eng := rfl

theorem inv_withPolicy (p : FlushPolicy) {s : State} (h : Inv s) : Inv (withPolicy p s) where
  counted := h.counted
  tables := h.tables
  totalBound := h.totalBound
  queueEmpty := h.queueEmpty
  errorRecorded := h.errorRecorded
  noErrorNoWord := h.noErrorNoWord
  idleBuf := h.idleBuf
  waits := h.waits
  busyUnseen := h.busyUnseen
  outFits := h.outFits
  resetHolds := h.resetHolds

/-- Every byte value counted once: the most symbols. -/
def full : State :=
  { State.reset with eng := { Engine.reset with
      freq := Vector.replicate 256 1#32, nsym := 256#9, totalCount := 256#32 } }

theorem full_sum : countSum full.eng.freq = 256 := by
  show ((symbols.map fun s => (symAt (Vector.replicate 256 1#32) s).toNat)).sum = 256
  simp only [symAt_replicate]
  rw [List.map_const', List.sum_replicate, symbols_length]; rfl

theorem full_present : presentSymbols full.eng.freq = symbols := by
  refine List.filter_eq_self.mpr fun s _ => ?_
  show (symAt (Vector.replicate 256 1#32) s != 0#32) = true
  rw [symAt_replicate]; rfl

theorem inv_full : Inv full where
  counted := ⟨by rw [full_sum]; rfl, by rw [full_present, symbols_length]; rfl⟩
  tables := rfl
  totalBound := by decide
  queueEmpty := rfl
  errorRecorded := by simp [full]
  noErrorNoWord := fun _ => rfl
  idleBuf := fun _ => ⟨reset_bufBetween.1, reset_bufBetween.2⟩
  waits := by simp [full]
  busyUnseen := by simp [full]
  outFits := by simp [full, Build.default]
  resetHolds := by simp [full, HostSide.reset]

/-! ### The commands on two inputs -/

/-- "aaab": the counts of P1, the tree of V-T1, the codes of V-K1, the header of V-H1, and V-F8's
error where nothing is packed. -/
theorem test_aaab :
    (counted4.eng.phase = .count ∧ counted4.eng.nsym = 2#9 ∧ counted4.eng.totalCount = 4#32 ∧
      counted4.eng.freqOf 0x61#8 = 3#32 ∧ counted4.eng.freqOf 0x62#8 = 1#32 ∧
      counted4.eng.freqOf 0x63#8 = 0#32) ∧
    (tree4.eng.phase = .tree ∧ tree4.eng.single = false ∧ tree4.eng.root = 2#9 ∧
      tree4.eng.nnodes = 3#10 ∧ tree4.eng.nodes[2].weight = 4#32 ∧ tree4.eng.nodes[2].left = 1#9 ∧
      tree4.eng.nodes[2].right = 0#9 ∧ tree4.eng.nodes[0].sym = 0x61#8 ∧
      tree4.eng.freqOf 0x61#8 = 3#32 ∧ tree4.eng.freqOf 0x63#8 = 0#32) ∧
    (codes4.eng.phase = .codes ∧ codes4.eng.single = false ∧ codes4.eng.nsym = 2#9 ∧
      codes4.eng.codeLenOf 0x61#8 = 1#8 ∧ codes4.eng.codeOf 0x61#8 = 1#255 ∧
      codes4.eng.codeLenOf 0x62#8 = 1#8 ∧ codes4.eng.codeOf 0x62#8 = 0#255 ∧
      codes4.eng.totalBits = 4#64 ∧ codes4.eng.padding = 4#3 ∧ codes4.eng.out = [] ∧
      codes4.eng.outCount = 0#64 ∧ codes4.eng.packedBits = 0#64 ∧ codes4.eng.subIndex = 0#3 ∧
      codes4.eng.freqOf 0x61#8 = 3#32 ∧ codes4.eng.freqOf 0x62#8 = 1#32 ∧
      codes4.eng.freqOf 0x63#8 = 0#32 ∧ codes4.build.outDepth = some { beyondFirst := 10 }) ∧
    (header4.eng.phase = .pack ∧ header4.eng.hdrLen = 5#11 ∧ header4.eng.outCount = 8#64 ∧
      header4.eng.out = [0x28#8, 0x62#8, 0x20#8, 0x61#8, 0x29#8, 0x0A#8, 0x34#8, 0x0A#8]) ∧
    nextMeets (exec .finish header4) (fun t => t.eng.errCode == .lengthMismatch &&
      t.eng.errCmd == 0x07000000#32 && t.eng.out.length == 8) = true := by decide +kernel

theorem counted4_is : counted4.eng.phase = .count ∧ counted4.eng.nsym = 2#9 ∧
    counted4.eng.totalCount = 4#32 ∧ counted4.eng.freqOf 0x61#8 = 3#32 :=
  ⟨test_aaab.1.1, test_aaab.1.2.1, test_aaab.1.2.2.1, test_aaab.1.2.2.2.1⟩

theorem tree4_is : tree4.eng.phase = .tree ∧ tree4.eng.single = false ∧
    tree4.eng.freqOf 0x61#8 = 3#32 ∧ tree4.eng.freqOf 0x63#8 = 0#32 :=
  ⟨test_aaab.2.1.1, test_aaab.2.1.2.1, test_aaab.2.1.2.2.2.2.2.2.2.2⟩

/-- What the witnesses use of the state after BUILD_CODES. -/
theorem codes4_is : codes4.eng.phase = .codes ∧ codes4.eng.single = false ∧
    codes4.eng.nsym = 2#9 ∧ codes4.eng.out = [] ∧ codes4.eng.outCount = 0#64 ∧
    codes4.eng.packedBits = 0#64 ∧ codes4.eng.subIndex = 0#3 ∧
    codes4.eng.freqOf 0x61#8 = 3#32 ∧ codes4.eng.freqOf 0x62#8 = 1#32 ∧
    codes4.eng.freqOf 0x63#8 = 0#32 ∧ codes4.build.outDepth = some { beyondFirst := 10 } := by
  obtain ⟨-, -, ⟨h1, h2, h3, -, -, -, -, -, -, h⟩, -⟩ := test_aaab
  exact ⟨h1, h2, h3, h⟩

/-- "z": the single symbol of R117, R131 and R142; its code is "0", so PADDING is 7; R7 and R158: under
PENDING the zero byte goes out, under NONZERO nothing does. -/
theorem test_z :
    (counted1.eng.phase = .count ∧ counted1.eng.nsym = 1#9) ∧
    (tree1.eng.phase = .tree ∧ tree1.eng.single = true ∧ tree1.eng.freqOf 0x7A#8 = 1#32) ∧
    (codes1.eng.phase = .codes ∧ codes1.eng.single = true ∧ codes1.eng.nsym = 1#9 ∧
      codes1.eng.freqOf 0x7A#8 = 1#32 ∧ codes1.eng.outCount = 0#64 ∧
      codes1.build.outDepth = none) ∧
    header1.eng.out = [0x28#8, 0x7A#8, 0x29#8, 0x0A#8, 0x37#8, 0x0A#8] ∧
    (packed1.eng.phase = .pack ∧ packed1.eng.inflight = none ∧
      packed1.eng.packedBits = 1#64 ∧ packed1.eng.totalBits = 1#64 ∧ packed1.eng.subIndex = 1#3 ∧
      packed1.eng.buf[0] = 0#8 ∧ packed1.eng.outCount = 6#64 ∧ packed1.eng.hdrLen = 3#11 ∧
      packed1.eng.padding = 7#3 ∧ packed1.build.outDepth = none ∧
      packed1.build.flushPolicy = .pending) ∧
    nextMeets (exec .finish packed1) (fun t => t.eng.out.getLast? == some 0x00#8 &&
      t.eng.phase == .done && t.eng.outCount == 7#64) = true ∧
    nextMeets (exec .finish (withPolicy .nonzero packed1)) (fun t =>
      t.eng.out.getLast? == some 0x0A#8 && t.eng.phase == .done && t.eng.outCount == 6#64) = true := by
  decide +kernel

/-- Both inputs at the end of their runs: S1's payload 0xE0 for "aaab". -/
theorem test_done :
    (header4.eng.phase = .pack ∧ header4.eng.nsym = 2#9 ∧ header4.eng.freqOf 0x61#8 = 3#32 ∧
      header4.eng.freqOf 0x62#8 = 1#32 ∧ header4.eng.freqOf 0x63#8 = 0#32) ∧
    (done4.eng.phase = .done ∧ done4.eng.nsym = 2#9 ∧ done4.eng.freqOf 0x61#8 = 3#32 ∧
      done4.eng.freqOf 0x62#8 = 1#32 ∧ done4.eng.freqOf 0x63#8 = 0#32) ∧
    done4.eng.out.getLast? = some 0xE0#8 ∧
    (packed1.eng.phase = .pack ∧ packed1.eng.nsym = 1#9 ∧ packed1.eng.freqOf 0x7A#8 = 1#32) ∧
    (done1.eng.phase = .done ∧ done1.eng.nsym = 1#9 ∧ done1.eng.freqOf 0x7A#8 = 1#32) := by
  decide +kernel

/-- The phases that have code tables. -/
def HasCodes (s : State) : Prop :=
  s.eng.phase = .codes ∨ s.eng.phase = .pack ∨ s.eng.phase = .done

/-- "aaab" in each of CODES, PACK and DONE. -/
def IsAaab (s : State) : Prop := Inv s ∧ HasCodes s ∧ s.eng.nsym = 2#9 ∧
  s.eng.freqOf 0x61#8 = 3#32 ∧ s.eng.freqOf 0x62#8 = 1#32 ∧ s.eng.freqOf 0x63#8 = 0#32

/-- "z" in each of CODES, PACK and DONE. -/
def IsZ (s : State) : Prop :=
  Inv s ∧ HasCodes s ∧ s.eng.nsym = 1#9 ∧ s.eng.freqOf 0x7A#8 = 1#32

theorem aaab_states : ∀ s ∈ [codes4, header4, done4], IsAaab s := by
  obtain ⟨c1, -, c3, -, -, -, -, ca, cb, cc, -⟩ := codes4_is
  obtain ⟨⟨h1, h⟩, ⟨d1, d⟩, -⟩ := test_done
  simp only [List.forall_mem_cons]
  exact ⟨⟨inv_codes4, .inl c1, c3, ca, cb, cc⟩, ⟨inv_header4, .inr (.inl h1), h⟩,
    ⟨inv_done4, .inr (.inr d1), d⟩, by simp⟩

theorem z_states : ∀ s ∈ [codes1, packed1, done1], IsZ s := by
  obtain ⟨c1, -, c3, c4, -⟩ := test_z.2.2.1
  obtain ⟨-, -, -, ⟨h1, h⟩, d1, d⟩ := test_done
  simp only [List.forall_mem_cons]
  exact ⟨⟨inv_codes1, .inl c1, c3, c4⟩, ⟨inv_packed1, .inr (.inl h1), h⟩,
    ⟨inv_done1, .inr (.inr d1), d⟩, by simp⟩

/-! ### WellFormed: one ill-formed word for each check (R85) -/

theorem test_reservedClear_refuses :
    CommandWord.reservedClear 0x02000161#32 = false ∧
    CommandWord.wellFormed 0x02000161#32 = false := by decide

theorem test_opcodeKnown_refuses :
    CommandWord.opcodeKnown 0x08000000#32 = false ∧
    CommandWord.wellFormed 0x08000000#32 = false := by decide

theorem test_operandAllowed_refuses :
    CommandWord.operandAllowed 0x07000001#32 = false ∧
    CommandWord.wellFormed 0x07000001#32 = false := by decide

theorem test_wellFormed_accepts : CommandWord.wellFormed 0x060000FF#32 = true := by decide

/-! ### Decode: each row's word, bit by bit from R80 and R83 -/

theorem test_decode_nop : decode 0b00000000_0000000000000000_00000000#32 = .cmd .nop := by decide
theorem test_decode_clear : decode 0b00000001_0000000000000000_00000000#32 = .cmd .clear := by decide
theorem test_decode_freqInc :
    decode 0b00000010_0000000000000000_01100001#32 = .cmd (.freqInc 0x61#8) := by decide
theorem test_decode_buildTree :
    decode 0b00000011_0000000000000000_00000000#32 = .cmd .buildTree := by decide
theorem test_decode_buildCodes :
    decode 0b00000100_0000000000000000_00000000#32 = .cmd .buildCodes := by decide
theorem test_decode_emitHeader :
    decode 0b00000101_0000000000000000_00000000#32 = .cmd .emitHeader := by decide
theorem test_decode_pack :
    decode 0b00000110_0000000000000000_11111111#32 = .cmd (.pack 0xFF#8) := by decide
theorem test_decode_finish :
    decode 0b00000111_0000000000000000_00000000#32 = .cmd .finish := by decide

/-- The encoder against the words of R91. -/
theorem test_encode : encode (.freqInc 0x61#8) = 0x02000061#32 ∧
    encode (.pack 0x7A#8) = 0x0600007A#32 ∧ encode .finish = 0x07000000#32 := by decide

/-- The host's two hooks, on the row of BUILD_TREE: V-T9 from reset. -/
theorem test_placed_word : decodeTableWord 32 0x03000000 = some .buildTree ∧
    nextMeets (step (State.reset.withFetchWord 32 0x03000000))
      (fun t => t.eng.errCode == .emptyInput && t.eng.errCmd == 0x03000000#32) = true := by
  decide +kernel

/-! ### The commands, against the spec's vectors -/

/-- V-X5: in ERROR a NOP changes nothing. -/
theorem test_nop : nextMeets (exec .nop failed)
    (fun t => t.eng.errCode == .emptyInput && t.eng.errCmd == 0x03000000#32) = true := by
  decide +kernel

/-- V-X6: CLEAR leaves the error; STATUS reads 00. -/
theorem test_clear : nextMeets (exec .clear failed)
    (fun t => statusWord t.eng == 0#32 && t.eng.errCmd == 0#32) = true := by decide +kernel

/-- R102: at the largest TOTAL_COUNT the next FREQ_INC is an error, and nothing is counted. -/
theorem test_freqInc_overflow :
    nextMeets (exec (.freqInc 0x61#8)
      { State.reset with eng := { Engine.reset with totalCount := 0xFFFFFFFF#32 } })
      (fun t => t.eng.errCode == .countOverflow && t.eng.freqOf 0x61#8 == 0#32 &&
        t.eng.totalCount == 0xFFFFFFFF#32) = true := by decide +kernel

/-- V-P3: a code over a byte boundary. -/
theorem test_pack_splits :
    packGives (packing 0xA8#8 5#3 10#8 0b1100110011#255) [0xAE#8] 1#6 7#3 0x66#8 10#64 = true := by
  decide +kernel

/-- V-P15: whole bytes of the code, MSB first. -/
theorem test_pack_bytes :
    packGives (packing 0x00#8 0#3 16#8 0b1010010111000011#255) [0xA5#8, 0xC3#8] 2#6 0#3 0x00#8
      16#64 = true := by decide +kernel

/-! ### Witnesses: decoding -/

theorem witness_IllegalWordsRaise :
    (decode 0x08000000#32 = .illegal .unknownOpcode ∧
      decode 0x02000161#32 = .illegal .reservedField ∧
      decode 0x07000001#32 = .illegal .operandNotZero) ∧
    State.reset.eng.phase ≠ .error ∧ failed.eng.phase = .error := by decide +kernel

theorem witness_ReservedBitsAreIllegal :
    (0x00000100#32).getLsbD 8 = true ∧ (0x00800000#32).getLsbD 23 = true := by decide

theorem witness_OperandIsLowByte :
    decode 0x020000FF#32 = .cmd (.freqInc 0xFF#8) ∧ decode 0x06000000#32 = .cmd (.pack 0x00#8) ∧
    decode 0x01000000#32 = .cmd .clear := by decide

/-! ### Witnesses: phases and errors -/

theorem buildTree_reset : exec .buildTree State.reset = .next failed := by
  simp only [exec, execBuildTree]
  exact inPhase_ok (need := .count) (s := State.reset) rfl (by simp)

theorem witness_PhaseLegalityTable :
    (failed.eng.phase = .error ∧ Instr.nop ≠ .clear) ∧
    (State.reset.eng.phase ≠ .error ∧ legalIn .buildCodes State.reset.eng.phase = false) ∧
    (State.reset.eng.phase ≠ .error ∧ State.reset.eng.errCode ≠ .sequenceError ∧
      legalIn .buildTree State.reset.eng.phase = true ∧ exec .buildTree State.reset = .next failed) ∧
    (decode 0x07000001#32 = .illegal .operandNotZero) :=
  ⟨⟨rfl, by simp⟩, ⟨by simp, by simp [legalIn]⟩,
    ⟨by simp, by simp, by simp [legalIn], buildTree_reset⟩, by decide⟩

theorem witness_ErrorPriority :
    (failed.eng.phase = .error ∧ 0x08000000#32 ≠ 0x01000000#32) ∧
    (State.reset.eng.phase ≠ .error ∧ decode 0x07000001#32 = .illegal .operandNotZero) ∧
    (decode 0x04000000#32 = .cmd .buildCodes ∧ legalIn .buildCodes State.reset.eng.phase = false) ∧
    (decode 0x03000000#32 = .cmd .buildTree ∧ legalIn .buildTree State.reset.eng.phase = true ∧
      execWord 0x03000000#32 State.reset = .next failed ∧ failed.eng.phase = .error) := by
  have hd : decode 0x03000000#32 = .cmd .buildTree := by decide
  refine ⟨⟨rfl, by simp⟩, ⟨by simp, by decide⟩, ⟨by decide, by simp [legalIn]⟩, hd,
    by simp [legalIn], ?_, rfl⟩
  simp only [execWord, hd]
  exact buildTree_reset

theorem witness_ErrorsArePrecise : State.reset.eng.phase ≠ .error ∧
    exec .buildTree State.reset = .next failed ∧ failed.eng.phase = .error :=
  ⟨by simp, buildTree_reset, rfl⟩

theorem witness_ErrorPhaseIgnoresWords :
    failed.eng.phase = .error ∧ 0x08000000#32 ≠ 0x01000000#32 := ⟨rfl, by simp⟩

/-- `failed` with CLEAR at the port, and with `rst_n` about to go low. -/
def failedWith (events : List Event) (port : List Word) : State :=
  failed.withHost { failed.host with events := events, port := port }

theorem inv_failedWith (events : List Event) (port : List Word) : Inv (failedWith events port) :=
  inv_withHost inv_failed (fun h => absurd rfl h) (fun h => by simp [failed, HostSide.reset] at h)

theorem witness_OnlyClearOrResetLeavesError :
    (Inv (failedWith [] [0x01000000#32]) ∧ (failedWith [] [0x01000000#32]).eng.phase = .error ∧
      ∃ t, step (failedWith [] [0x01000000#32]) = .next t ∧ t.eng.phase ≠ .error) ∧
    (Inv (failedWith [.resetLow] []) ∧ (failedWith [.resetLow] []).eng.phase = .error ∧
      ∃ t, step (failedWith [.resetLow] []) = .next t ∧ t.eng.phase ≠ .error) :=
  ⟨⟨inv_failedWith _ _, rfl, _, rfl, by decide⟩, ⟨inv_failedWith _ _, rfl, _, rfl, by decide⟩⟩

/-- COUNT with the largest TOTAL_COUNT. -/
def atMost : State := { State.reset with eng := { Engine.reset with totalCount := 0xFFFFFFFF#32 } }

theorem witness_FreqIncCounts :
    (State.reset.eng.phase = .count ∧ Counted State.reset.eng ∧
      State.reset.eng.totalCount.toNat < 2 ^ 32 - 1 ∧ State.reset.eng.freqOf 0x61#8 = 0#32) ∧
    (counted4.eng.phase = .count ∧ Counted counted4.eng ∧
      counted4.eng.totalCount.toNat < 2 ^ 32 - 1 ∧ counted4.eng.freqOf 0x61#8 ≠ 0#32) ∧
    (atMost.eng.phase = .count ∧ atMost.eng.totalCount.toNat = 2 ^ 32 - 1) ∧
    (tree4.eng.phase ≠ .count ∧ tree4.eng.phase ≠ .error) := by
  refine ⟨⟨rfl, reset_counted, by decide, symAt_replicate _ _⟩,
    ⟨counted4_is.1, inv_counted4.counted, by simp [counted4_is.2.2.1], by simp [counted4_is.2.2.2]⟩,
    ⟨rfl, rfl⟩, by simp [tree4_is.1]⟩

/-- One below the largest count: the last FREQ_INC that counts. -/
theorem witness_FreqIncCounts_last : ∃ s : State, s.eng.phase = .count ∧ Counted s.eng ∧
    s.eng.totalCount.toNat = 2 ^ 32 - 2 := by
  have hs := countSum_setSym (Vector.replicate 256 0#32) 0x61#8 0xFFFFFFFE#32
  have hp := presentSymbols_setSym_new (freq := Vector.replicate 256 0#32) (s := 0x61#8)
    (v := 0xFFFFFFFE#32) (symAt_replicate _ _) (by decide)
  rw [symAt_replicate, countSum_replicate_zero] at hs
  rw [presentSymbols_replicate_zero] at hp
  refine ⟨{ State.reset with eng := { Engine.reset with
    freq := setSym (Vector.replicate 256 0#32) 0x61#8 0xFFFFFFFE#32
    nsym := 1#9, totalCount := 0xFFFFFFFE#32 } }, rfl, ⟨?_, hp.symm⟩, rfl⟩
  show 4294967294 = countSum (setSym (Vector.replicate 256 0#32) 0x61#8 0xFFFFFFFE#32)
  simpa using hs.symm

/-! ### Witnesses: the queue and BUILD_TREE -/

theorem witness_QueueStaysOrdered :
    ([0, 1] : List NodeIx).Pairwise
      (fun a b => weightOf emptyNodes a ≤ weightOf emptyNodes b) ∧
    (∃ y rest, qRemoveMin (qInsert emptyNodes 2 [0, 1]) = some (y, rest)) := by
  have h : ∀ i : NodeIx, weightOf emptyNodes i = 0 := fun i => by
    simp [weightOf, emptyNodes, Node.empty]
  refine ⟨by simp [h], ?_⟩
  simp [qInsert, h, qRemoveMin]

/-- The last free entry, 510. -/
theorem witness_MergeTakesFirstAsLeft : ∃ f : Forge, f.k < 511 ∧ f.k = 510 ∧
    f.q = [0, 1, 2] ∧ weightOf f.nodes 0 + weightOf f.nodes 1 < 2 ^ 32 :=
  ⟨{ nodes := emptyNodes, q := [0, 1, 2], k := 510 }, by decide, rfl, rfl, by
    simp [weightOf, emptyNodes, Node.empty]⟩

theorem witness_MergeLoopLeavesOne :
    (presentSymbols counted1.eng.freq ≠ [] ∧ countSum counted1.eng.freq < 2 ^ 32) ∧
    (presentSymbols full.eng.freq ≠ [] ∧ countSum full.eng.freq < 2 ^ 32) := by
  have hc := inv_counted1.counted
  refine ⟨⟨fun h => ?_, by rw [← hc.total]; exact counted1.eng.totalCount.isLt⟩, fun h => ?_,
    by rw [full_sum]; decide⟩
  · have := hc.nsym
    rw [h, test_z.1.2] at this
    simp at this
  · have := congrArg List.length h
    rw [full_present, symbols_length] at this
    simp at this

theorem witness_EmptyInputIsRefused :
    State.reset.eng.phase = .count ∧ State.reset.eng.nsym = 0#9 := ⟨rfl, rfl⟩

/-- With one symbol, with two, and with all 256. -/
theorem witness_BuildTreeGuarantees :
    (Inv counted1 ∧ counted1.eng.phase = .count ∧ counted1.eng.nsym ≠ 0#9) ∧
    (Inv counted4 ∧ counted4.eng.phase = .count ∧ counted4.eng.nsym ≠ 0#9) ∧
    (Inv full ∧ full.eng.phase = .count ∧ full.eng.nsym ≠ 0#9) :=
  ⟨⟨inv_counted1, test_z.1.1, by simp [test_z.1.2]⟩,
    ⟨inv_counted4, counted4_is.1, by simp [counted4_is.2.1]⟩, inv_full, rfl, by decide⟩

theorem witness_SingleSymbolTree : Inv counted1 ∧ counted1.eng.phase = .count ∧
    counted1.eng.nsym = 1#9 := ⟨inv_counted1, test_z.1⟩

/-- In every phase. -/
theorem witness_WeightsNeverOverflow : Inv State.reset ∧ Inv tree4 ∧ Inv codes4 ∧ Inv header4 ∧
    Inv done4 ∧ Inv failed :=
  ⟨inv_of_resetEngine rfl, inv_tree4, inv_codes4, inv_header4, inv_done4, inv_failed⟩

/-! ### Witnesses: BUILD_CODES -/

theorem witness_CodesAreTreePaths : Inv tree4 ∧ tree4.eng.phase = .tree ∧
    tree4.eng.freqOf 0x63#8 = 0#32 ∧ tree4.eng.single = false ∧
    tree4.eng.freqOf 0x61#8 ≠ 0#32 :=
  ⟨inv_tree4, tree4_is.1, tree4_is.2.2.2, tree4_is.2.1, by simp [tree4_is.2.2.1]⟩

theorem witness_SingleSymbolCode : Inv tree1 ∧ tree1.eng.phase = .tree ∧
    tree1.eng.single = true ∧ tree1.eng.freqOf 0x7A#8 ≠ 0#32 :=
  ⟨inv_tree1, test_z.2.1.1, test_z.2.1.2.1, by simp [test_z.2.1.2.2]⟩

/-- In each of the three phases. -/
theorem witness_CodeTableGuarantees : ∀ s ∈ [codes4, header4, done4], Inv s ∧ HasCodes s ∧
    s.eng.freqOf 0x63#8 = 0#32 ∧ s.eng.freqOf 0x61#8 ≠ 0#32 ∧ s.eng.freqOf 0x62#8 ≠ 0#32 ∧
    0x61#8 ≠ 0x62#8 := by
  intro s hs
  obtain ⟨hi, hp, -, ha, hb, hc⟩ := aaab_states s hs
  exact ⟨hi, hp, hc, by simp [ha], by simp [hb], by decide⟩

/-- Both clauses in each of the three phases, each at its least number of symbols. -/
theorem witness_CodeLengthBound :
    (∀ s ∈ [codes4, header4, done4], Inv s ∧ HasCodes s ∧ s.eng.freqOf 0x61#8 ≠ 0#32 ∧
      2 ≤ s.eng.nsym.toNat) ∧
    (∀ s ∈ [codes1, packed1, done1], Inv s ∧ HasCodes s ∧ s.eng.freqOf 0x7A#8 ≠ 0#32 ∧
      s.eng.nsym = 1#9) := by
  refine ⟨fun s hs => ?_, fun s hs => ?_⟩
  · obtain ⟨hi, hp, hn, ha, -⟩ := aaab_states s hs
    exact ⟨hi, hp, by simp [ha], by simp [hn]⟩
  · obtain ⟨hi, hp, hn, hz⟩ := z_states s hs
    exact ⟨hi, hp, by simp [hz], hn⟩

theorem witness_FrequentSymbolsHaveNoLongerCodes : ∀ s ∈ [codes4, header4, done4],
    Inv s ∧ HasCodes s ∧ s.eng.freqOf 0x62#8 ≠ 0#32 ∧
    (s.eng.freqOf 0x62#8).toNat < (s.eng.freqOf 0x61#8).toNat := by
  intro s hs
  obtain ⟨hi, hp, -, ha, hb, -⟩ := aaab_states s hs
  exact ⟨hi, hp, by simp [hb], by simp [ha, hb]⟩

theorem witness_TotalBitsAndPadding : tree4.eng.phase = .tree ∧
    ∃ t, exec .buildCodes tree4 = .next t := by
  obtain ⟨tr, tab, -, h, -⟩ := exec_buildCodes_ok inv_tree4 tree4_is.1
  exact ⟨tree4_is.1, _, h⟩

/-- In every phase. -/
theorem witness_TotalBitsBelowTwoPow40 : Inv State.reset ∧ Inv tree4 ∧ Inv codes4 ∧ Inv header4 ∧
    Inv done4 ∧ Inv failed :=
  ⟨inv_of_resetEngine rfl, inv_tree4, inv_codes4, inv_header4, inv_done4, inv_failed⟩

/-! ### Witnesses: EMIT_HEADER and the wait -/

/-- `s` in a build whose OUT has `d + 1` entries. -/
def withEntries (d : Nat) (s : State) : State :=
  { s with build := { s.build with outDepth := some { beyondFirst := d } } }

theorem withEntries_eng (d : Nat) (s : State) : (withEntries d s).eng = s.eng := rfl

theorem inv_withEntries (d : Nat) {s : State} (h : Inv s) (ho : s.eng.out = []) :
    Inv (withEntries d s) where
  counted := h.counted
  tables := h.tables
  totalBound := h.totalBound
  queueEmpty := h.queueEmpty
  errorRecorded := h.errorRecorded
  noErrorNoWord := h.noErrorNoWord
  idleBuf := h.idleBuf
  waits := h.waits
  busyUnseen := h.busyUnseen
  outFits := fun e _ => by show s.eng.out.length ≤ _; simp [ho]
  resetHolds := h.resetHolds

/-- "aaab" in CODES with the 8 entries that its two lines take, and with one fewer. -/
theorem codes4_room :
    RoomFor (withEntries 7 codes4) (if codes4.eng.nsym = 1#9 then 6 else 4 * codes4.eng.nsym.toNat) ∧
    ¬ RoomFor (withEntries 6 codes4) 8 := by
  obtain ⟨-, -, h3, h4, -⟩ := codes4_is
  refine ⟨roomFor_some (d := { beyondFirst := 7 }) rfl ?_, fun h => ?_⟩
  · rw [withEntries_eng]
    simp [h3, h4, OutDepth.entries]
  · have := h { beyondFirst := 6 } rfl
    simp [withEntries, OutDepth.entries] at this

/-- "aaab" in a bounded OUT with no entry to spare, and "z" in an unbounded one. -/
theorem witness_EmitHeaderPushesLines :
    (Inv (withEntries 7 codes4) ∧ codes4.eng.phase = .codes ∧
      RoomFor (withEntries 7 codes4)
        (if codes4.eng.nsym = 1#9 then 6 else 4 * codes4.eng.nsym.toNat) ∧
      codes4.eng.outCount.toNat + 1024 < 2 ^ 64 ∧ codes4.eng.single = false) ∧
    (Inv codes1 ∧ codes1.eng.phase = .codes ∧
      RoomFor codes1 (if codes1.eng.nsym = 1#9 then 6 else 4 * codes1.eng.nsym.toNat) ∧
      codes1.eng.outCount.toNat + 1024 < 2 ^ 64 ∧ codes1.eng.single = true) := by
  obtain ⟨h1, h2, -, h4, h5, -⟩ := codes4_is
  obtain ⟨c1, c2, -, -, c5, c6⟩ := test_z.2.2.1
  exact ⟨⟨inv_withEntries 7 inv_codes4 h4, h1, codes4_room.1, by simp [h5], h2⟩,
    inv_codes1, c1, roomFor_unbounded c6 _, by simp [c5], c2⟩

/-- Both clauses in each of the three phases. -/
theorem witness_SerializedLength :
    (∀ s ∈ [codes4, header4, done4], Inv s ∧ HasCodes s ∧ 2 ≤ s.eng.nsym.toNat) ∧
    (∀ s ∈ [codes1, packed1, done1], Inv s ∧ HasCodes s ∧ s.eng.nsym = 1#9) :=
  ⟨fun s hs => let ⟨hi, hp, _, hn⟩ := witness_CodeLengthBound.1 s hs; ⟨hi, hp, hn⟩,
    fun s hs => let ⟨hi, hp, _, hn⟩ := witness_CodeLengthBound.2 s hs; ⟨hi, hp, hn⟩⟩

/-- An OUT of one entry. -/
def narrowOut : State :=
  { State.reset with build := { flushPolicy := .pending, outDepth := some { beyondFirst := 0 } } }

theorem narrowOut_room : RoomFor narrowOut 1 ∧ ¬ RoomFor narrowOut 2 := by
  refine ⟨roomFor_some (d := { beyondFirst := 0 }) rfl (by decide), fun h => ?_⟩
  have := h { beyondFirst := 0 } rfl
  simp [narrowOut, OutDepth.entries] at this

/-- A FINISH that waits to push one byte. -/
def waiting (events : List Event) : State :=
  { narrowOut with
    eng := { Engine.reset with
      phase := .pack, inflight := some { rest := [0x41#8], closing := .finish 1 } }
    host := { HostSide.reset with events := events, sawIdle := false } }

theorem waiting_steps (events : List Event) (h : events = [] ∨ events = [.engine]) :
    ∃ t, step (waiting events) = .next t := by
  rcases h with rfl | rfl <;> exact ⟨_, rfl⟩

/-- The same wait for the other two commands' closing writes. -/
def waitingFor (c : Closing) : State :=
  { waiting [] with eng := { (waiting []).eng with
      inflight := some { rest := [0x41#8], closing := c } } }

/-- Each kind of closing write, at the largest numbers that a command has. -/
theorem witness_WaitingCommandGoesOn : (∀ events, events = [] ∨ events = [.engine] →
    ((waiting events).host.events.head? = some .engine ∨ (waiting events).host.events = []) ∧
    (waiting events).host.inReset = false ∧
    (waiting events).eng.inflight = some { rest := [0x41#8], closing := .finish 1 } ∧
    (∃ t, step (waiting events) = .next t) ∧ (waiting events).eng.out = [] ∧
    RoomFor (waiting events) 1) ∧
    (∀ c ∈ [Closing.header 1021, .pack 32 255, .finish 1],
      (waitingFor c).host.events = [] ∧ (waitingFor c).host.inReset = false ∧
      (waitingFor c).eng.inflight = some { rest := [0x41#8], closing := c } ∧
      RoomFor (waitingFor c) 1 ∧ (waitingFor c).eng.outCount.toNat + 1024 < 2 ^ 64 ∧
      (waitingFor c).eng.packedBits.toNat + 255 < 2 ^ 64) := by
  refine ⟨fun events h => ?_, fun c _ => ⟨rfl, rfl, rfl, narrowOut_room.1, ?_, ?_⟩⟩
  · refine ⟨?_, rfl, rfl, waiting_steps events h, rfl, narrowOut_room.1⟩
    rcases h with rfl | rfl
    · exact .inr rfl
    · exact .inl rfl
  · rw [show (waitingFor c).eng.outCount = 0#64 from rfl]; simp
  · rw [show (waitingFor c).eng.packedBits = 0#64 from rfl]; simp

/-! ### Witnesses: PACK -/

/-- V-P4: the longest code and the most bytes. -/
def longest : State := packing 0xFE#8 7#3 255#8 (BitVec.allOnes 255)

theorem longest_len : longest.eng.codeLenOf 0x61#8 = 255#8 := by
  show symAt (setSym _ 0x61#8 255#8) 0x61#8 = _
  rw [symAt_setSym, if_pos rfl]

theorem longest_buf : BufBetween longest.eng :=
  packing_buf _ _ _ _ (by unfold FreeBitsClear; decide)

theorem witness_PackAppendsCode : longest.eng.phase = .pack ∧
    longest.eng.codeLenOf 0x61#8 ≠ 0#8 ∧
    (longest.eng.codeOf 0x61#8).toNat < 2 ^ (longest.eng.codeLenOf 0x61#8).toNat ∧
    BufBetween longest.eng ∧
    RoomFor longest ((longest.eng.subIndex.toNat + (longest.eng.codeLenOf 0x61#8).toNat) / 8) := by
  refine ⟨rfl, by simp [longest_len], ?_, longest_buf, roomFor_unbounded rfl _⟩
  rw [longest_len]
  exact (longest.eng.codeOf 0x61#8).isLt

/-- FINISH with nothing to flush, in an OUT that is full. -/
def closing : State :=
  { narrowOut with eng := { Engine.reset with phase := .pack, out := [0x41#8] } }

/-- Bytes with room and without; EMIT_HEADER of both kinds of tree, the first without room; PACK in an
OUT of one entry; FINISH under both policies, and on a full OUT. -/
theorem witness_PushWaitsOnFullOut :
    (RoomFor narrowOut [0x41#8].length ∧ narrowOut.build.outDepth = some { beyondFirst := 0 } ∧
      narrowOut.eng.out.length ≤ 1 ∧ ¬ RoomFor narrowOut [0x41#8, 0x42#8].length) ∧
    (Inv (withEntries 6 codes4) ∧ (withEntries 6 codes4).eng.phase = .codes ∧
      codes4.eng.single = false ∧ ¬ RoomFor (withEntries 6 codes4) 8) ∧
    (Inv codes1 ∧ codes1.eng.phase = .codes ∧ codes1.eng.single = true) ∧
    ((withEntries 0 longest).eng.phase = .pack ∧
      (longest.eng.codeLenOf 0x61#8).toNat = 255 ∧
      (longest.eng.codeOf 0x61#8).toNat < 2 ^ (longest.eng.codeLenOf 0x61#8).toNat ∧
      longest.eng.subIndex.toNat = 7 ∧
      BufBetween (withEntries 0 longest).eng ∧ ¬ RoomFor (withEntries 0 longest) 32) ∧
    (∀ p : FlushPolicy, (withPolicy p packed1).eng.phase = .pack ∧
      (withPolicy p packed1).eng.packedBits = (withPolicy p packed1).eng.totalBits) ∧
    (closing.eng.phase = .pack ∧ closing.eng.packedBits = closing.eng.totalBits ∧
      ¬ RoomFor closing 1) := by
  obtain ⟨h1, h2, -, h4, -⟩ := codes4_is
  obtain ⟨c1, c2, -⟩ := test_z.2.2.1
  obtain ⟨a1, -, a3, a4, -⟩ := test_z.2.2.2.2.1
  obtain ⟨-, -, l3, -⟩ := witness_PackAppendsCode
  refine ⟨⟨narrowOut_room.1, rfl, by decide, narrowOut_room.2⟩,
    ⟨inv_withEntries 6 inv_codes4 h4, by rw [withEntries_eng]; exact h1, h2, codes4_room.2⟩, ⟨inv_codes1, c1, c2⟩,
    ⟨rfl, by rw [longest_len]; rfl, l3, rfl, longest_buf, fun h => ?_⟩,
    fun p => ⟨by rw [withPolicy_eng]; exact a1, by rw [withPolicy_eng, a3, a4]⟩, rfl, rfl, fun h => ?_⟩
  · have := h { beyondFirst := 0 } rfl
    simp [withEntries, OutDepth.entries] at this
  · have := h { beyondFirst := 0 } rfl
    simp [closing, OutDepth.entries] at this

theorem witness_PackClosedForm : longest.eng.phase = .pack ∧
    longest.eng.codeLenOf 0x61#8 ≠ 0#8 ∧ BufBetween longest.eng ∧
    RoomFor longest ((longest.eng.subIndex.toNat + (longest.eng.codeLenOf 0x61#8).toNat) / 8) ∧
    longest.eng.packedBits.toNat + 255 < 2 ^ 64 ∧ longest.eng.outCount.toNat + 32 < 2 ^ 64 :=
  ⟨rfl, witness_PackAppendsCode.2.1, longest_buf, roomFor_unbounded rfl _, by
    show (0#64).toNat + 255 < 2 ^ 64; simp, by show (0#64).toNat + 32 < 2 ^ 64; simp⟩

theorem witness_PackWithoutCodeIsRefused :
    longest.eng.phase = .pack ∧ longest.eng.codeLenOf 0x71#8 = 0#8 := by
  refine ⟨rfl, ?_⟩
  show symAt (setSym (Vector.replicate 256 0#8) 0x61#8 255#8) 0x71#8 = _
  rw [symAt_setSym, if_neg (by decide), symAt_replicate]

theorem witness_PackStaysInBuffer : ∃ sub len : Nat, sub < 8 ∧ len ≤ 255 ∧ (sub + len) / 8 = 32 :=
  ⟨7, 255, by omega, by omega, by omega⟩

/-! ### Witnesses: FINISH -/

theorem packed1_is (p : FlushPolicy) : Inv (withPolicy p packed1) ∧
    (withPolicy p packed1).eng.phase = .pack ∧ (withPolicy p packed1).eng.inflight = none ∧
    (withPolicy p packed1).eng.packedBits = (withPolicy p packed1).eng.totalBits ∧
    RoomFor (withPolicy p packed1) 1 ∧
    (withPolicy p packed1).eng.outCount.toNat + 1 < 2 ^ 64 ∧
    (withPolicy p packed1).eng.subIndex.toNat =
      (withPolicy p packed1).eng.packedBits.toNat % 8 ∧
    (withPolicy p packed1).eng.subIndex ≠ 0#3 ∧ (withPolicy p packed1).eng.buf[0] = 0#8 ∧
    (withPolicy p packed1).build.flushPolicy = p := by
  obtain ⟨a1, a2, a3, a4, a5, a6, a7, -, -, a10, -⟩ := test_z.2.2.2.2.1
  rw [withPolicy_eng]
  refine ⟨inv_withPolicy p inv_packed1, a1, a2, by rw [a3, a4],
    roomFor_unbounded ((withPolicy_outDepth p packed1).trans a10) _, ?_, ?_, ?_, a6, rfl⟩
  · simp [a7]
  · simp [a5, a3]
  · simp [a5]

theorem witness_FinishCloses :
    (State.reset.eng.phase ≠ .pack ∧ State.reset.eng.phase ≠ .error) ∧
    (∀ p : FlushPolicy, (withPolicy p packed1).eng.phase = .pack ∧
      (withPolicy p packed1).eng.packedBits = (withPolicy p packed1).eng.totalBits ∧
      RoomFor (withPolicy p packed1) 1 ∧
      (withPolicy p packed1).eng.outCount.toNat + 1 < 2 ^ 64 ∧
      (withPolicy p packed1).build.flushPolicy = p) ∧
    (closing.eng.phase = .pack ∧ closing.eng.packedBits = closing.eng.totalBits ∧
      closing.build.flushPolicy = .pending ∧ closing.eng.subIndex = 0#3 ∧ ¬ RoomFor closing 1) ∧
    (header4.eng.phase = .pack ∧ ∃ t, exec .finish header4 = .next t ∧
      t.eng.errCode = .lengthMismatch) := by
  refine ⟨⟨by simp, by simp⟩, fun p => ?_,
    ⟨rfl, rfl, rfl, rfl, witness_PushWaitsOnFullOut.2.2.2.2.2.2.2⟩, test_aaab.2.2.2.1.1, ?_⟩
  · obtain ⟨-, h1, -, h3, h4, h5, -, -, -, h9⟩ := packed1_is p
    exact ⟨h1, h3, h4, h5, h9⟩
  · have h := test_aaab.2.2.2.2
    unfold nextMeets at h
    split at h
    · next t ht =>
      simp only [Bool.and_eq_true, beq_iff_eq] at h
      exact ⟨t, ht, h.1.1⟩
    · simp at h
    · simp at h

theorem witness_NonzeroPolicyLosesZeroByte : ∀ p : FlushPolicy, Inv (withPolicy p packed1) ∧
    (withPolicy p packed1).eng.phase = .pack ∧
    (withPolicy p packed1).eng.packedBits = (withPolicy p packed1).eng.totalBits ∧
    (withPolicy p packed1).eng.subIndex.toNat =
      (withPolicy p packed1).eng.packedBits.toNat % 8 ∧
    (withPolicy p packed1).eng.subIndex ≠ 0#3 ∧ (withPolicy p packed1).eng.buf[0] = 0#8 ∧
    RoomFor (withPolicy p packed1) 1 ∧ (withPolicy p packed1).build.flushPolicy = p := by
  intro p
  obtain ⟨h0, h1, -, h3, h4, -, h6, h7, h8, h9⟩ := packed1_is p
  exact ⟨h0, h1, h3, h6, h7, h8, h4, h9⟩

/-- V-P4 in a run whose header of 3 + 3 bytes and 7 bits went out before. -/
def longestRun : State :=
  longest.withEng { longest.eng with hdrLen := 3#11, outCount := 6#64, packedBits := 7#64 }

theorem witness_PayloadByteCount :
    (Inv (withEntries 7 codes4) ∧ codes4.eng.phase = .codes ∧
      RoomFor (withEntries 7 codes4)
        (if codes4.eng.nsym = 1#9 then 6 else 4 * codes4.eng.nsym.toNat) ∧
      codes4.eng.outCount = 0#64 ∧ codes4.eng.packedBits = 0#64 ∧ codes4.eng.subIndex = 0#3) ∧
    (longestRun.eng.phase = .pack ∧ longestRun.eng.codeLenOf 0x61#8 ≠ 0#8 ∧
      BufBetween longestRun.eng ∧
      RoomFor longestRun
        ((longestRun.eng.subIndex.toNat + (longestRun.eng.codeLenOf 0x61#8).toNat) / 8) ∧
      PayloadCount longestRun.eng ∧ longestRun.eng.packedBits.toNat + 255 < 2 ^ 64 ∧
      longestRun.eng.outCount.toNat + 32 < 2 ^ 64) ∧
    (Inv packed1 ∧ packed1.eng.phase = .pack ∧ packed1.eng.inflight = none ∧
      packed1.eng.packedBits = packed1.eng.totalBits ∧ PayloadCount packed1.eng ∧
      RoomFor packed1 1 ∧ packed1.eng.outCount.toNat + 1 < 2 ^ 64 ∧
      packed1.build.flushPolicy = .pending ∧ packed1.eng.subIndex ≠ 0#3) := by
  obtain ⟨h1, -, -, -, h5, h6, h7, -⟩ := codes4_is
  obtain ⟨a1, a2, a3, a4, a5, -, a7, a8, -, a10, a11⟩ := test_z.2.2.2.2.1
  refine ⟨⟨witness_EmitHeaderPushesLines.1.1, h1, codes4_room.1, h5, h6, h7⟩,
    ⟨rfl, witness_PackAppendsCode.2.1, longest_buf, roomFor_unbounded rfl _, ⟨rfl, rfl⟩, ?_, ?_⟩,
    ⟨inv_packed1, a1, a2, by rw [a3, a4], ⟨?_, ?_⟩, roomFor_unbounded a10 _, ?_, a11, ?_⟩⟩
  · show (7#64).toNat + 255 < 2 ^ 64; simp
  · show (6#64).toNat + 32 < 2 ^ 64; simp
  · simp [a7, a8, a3]
  · simp [a5, a3]
  · simp [a7]
  · simp [a5]

/-! ### Witnesses: frames -/

theorem witness_TableCommandFrames :
    (∃ t, exec (.freqInc 0x61#8) counted4 = .next t) ∧ 0x62#8 ≠ 0x61#8 ∧
    (∃ t, exec .buildTree counted4 = .next t) ∧ (∃ t, exec .buildCodes tree4 = .next t) := by
  obtain ⟨x, h, -⟩ := exec_buildTree_ok inv_counted4 counted4_is.1 (by simp [counted4_is.2.1])
  refine ⟨?_, by decide, ⟨_, h⟩, witness_TotalBitsAndPadding.2⟩
  refine ⟨counted4.withEng (countSymbol counted4.draw 0x61#8 counted4.eng), ?_⟩
  simp only [exec, execFreqInc]
  rw [inPhase_ok counted4_is.1 (by simp), if_neg (by simp [counted4_is.2.2.1])]

theorem witness_PushingCommandFrames :
    (∃ t, exec .emitHeader codes4 = .next t) ∧ (∃ t, exec (.pack 0x61#8) longest = .next t) ∧
    (∃ t, exec .finish (withPolicy .pending packed1) = .next t) := by
  refine ⟨?_, ⟨_, (exec_pack_ok rfl witness_PackAppendsCode.2.1 longest_buf
    (roomFor_unbounded rfl _)).1⟩, ?_⟩
  · have hb : BuiltFrom codes4.eng ∧ CodedFrom codes4.eng := inv_tables inv_codes4 codes4_is.1
    obtain ⟨t, x, ht, -⟩ := built_tree hb.1 inv_codes4.counted
    obtain ⟨text, htext⟩ : ∃ text, treeText codes4.eng = .ok text :=
      ⟨_, treeText_built hb.1 inv_codes4.counted ht⟩
    refine ⟨pushAll (text ++ headerTail codes4.eng.padding) (.header text.length) codes4, ?_⟩
    simp only [exec, execEmitHeader]
    rw [inPhase_ok codes4_is.1 (by simp), htext]
  · obtain ⟨-, h1, -, h3, h4, -⟩ := packed1_is .pending
    exact ⟨_, exec_finish_push h1 h3⟩

/-! ### Witnesses: registers -/

/-- The boundary entries of the windows (R28): the last symbol, the last word of a code, the last
node. -/
theorem witness_RegisterWindows : (0x0100 + (0xFF#8).toNat = 0x01FF) ∧
    (0x0800 + 8 * (0xFF#8).toNat + 7 = 0x0FFF) ∧ (0x1000 + 2 * 510 + 1 = 0x13FD) := by decide

/-- Each clause at both ends of its range. -/
theorem witness_UnmappedAddressesReadZero :
    (0x0014 ≤ (0x0014#16).toNat ∧ (0x0014#16).toNat < 0x0100) ∧
    (0x0014 ≤ (0x00FF#16).toNat ∧ (0x00FF#16).toNat < 0x0100) ∧
    (0x0300 ≤ (0x0300#16).toNat ∧ (0x0300#16).toNat < 0x0800) ∧
    (0x0300 ≤ (0x07FF#16).toNat ∧ (0x07FF#16).toNat < 0x0800) ∧
    0x13FE ≤ (0x13FE#16).toNat ∧ 0x13FE ≤ (0xFFFF#16).toNat := by decide

/-- V-R4 and V-R13: what the ends read at reset. -/
theorem test_registers_reset :
    ([0x0002, 0x0014, 0x00FF, 0x01FF, 0x0300, 0x07FF, 0x0FFF, 0x13FD, 0x13FE, 0xFFFF].all fun a =>
      regRead Build.default Engine.reset (BitVec.ofNat 16 a) == 0#32) = true := by decide +kernel

/-- Reset with the schedule and the port as given, and BUSY = 0 seen or not. -/
def asked (events : List Event) (port : List Word) (seen : Bool) : State :=
  { State.reset with host := { HostSide.reset with events := events, port := port, sawIdle := seen } }

/-- STATUS; another register with BUSY = 0 seen; and not seen. -/
theorem witness_ReadsReturnAndChangeNothing :
    (∃ t, step (asked [.read 0x0002#16] [] false) = .next t) ∧
    ((asked [.read 0x0005#16] [] true).host.sawIdle = true ∧
      (asked [.read 0x0005#16] [] true).eng.inflight = none ∧
      ∃ t, step (asked [.read 0x0005#16] [] true) = .next t) ∧
    (0x0005#16 ≠ 0x0002#16 ∧ (asked [.read 0x0005#16] [] false).host.sawIdle = false ∧
      ∃ t, step (asked [.read 0x0005#16] [] false) = .next t) :=
  ⟨⟨_, rfl⟩, ⟨rfl, rfl, _, rfl⟩, by decide, rfl, _, rfl⟩

/-! ### Witnesses: the step, the ports, reset, the invariant -/

/-- A legal and an illegal word at the port, with the engine's turn at the head of the schedule and with
the schedule empty; the illegal one also in ERROR. -/
theorem witness_StepRunsDecodedInstruction :
    (∀ w ∈ [0x02000061#32, 0x07000001#32], ∀ events, events = [] ∨ events = [.engine] →
      ((asked events [w] true).host.events.head? = some .engine ∨
        (asked events [w] true).host.events = []) ∧
      (asked events [w] true).host.inReset = false ∧
      (asked events [w] true).eng.inflight = none ∧ (asked events [w] true).host.port = [w] ∧
      (asked events [w] true).eng.phase ≠ .error) ∧
    decode 0x02000061#32 = .cmd (.freqInc 0x61#8) ∧
    decode 0x07000001#32 = .illegal .operandNotZero ∧
    ((failedWith [] [0x07000001#32]).host.events = [] ∧
      (failedWith [] [0x07000001#32]).host.inReset = false ∧
      (failedWith [] [0x07000001#32]).eng.inflight = none ∧
      (failedWith [] [0x07000001#32]).host.port = [0x07000001#32] ∧
      (failedWith [] [0x07000001#32]).eng.phase = .error) ∧
    decodeTableWord 32 0x02000061 = some (.freqInc 0x61#8) := by
  refine ⟨?_, by decide, by decide, ⟨rfl, rfl, rfl, rfl, rfl⟩, by decide⟩
  rintro w - events (rfl | rfl)
  · exact ⟨.inr rfl, rfl, rfl, rfl, by simp [asked]⟩
  · exact ⟨.inl rfl, rfl, rfl, rfl, by simp [asked]⟩

/-- A host move, an accepted word, and a byte taken. -/
theorem witness_steps :
    (∃ t, step (asked [.offer 0x01000000#32] [] true) = .next t) ∧
    (∃ t, step (asked [] [0x01000000#32] true) = .next t) ∧
    (∃ t, step (asked [.take] [] true) = .next t) := ⟨⟨_, rfl⟩, ⟨_, rfl⟩, ⟨_, rfl⟩⟩

theorem witness_PortKeepsOrder : (∃ t, step (asked [] [0x01000000#32] true) = .next t) ∧
    (asked [.offer 0x01000000#32] [] true).host.events = [.offer 0x01000000#32] :=
  ⟨witness_steps.2.1, rfl⟩

/-- Two bytes in OUT and the host's take next. -/
def offering : State :=
  { asked [.take] [] true with eng := { Engine.reset with out := [0x41#8, 0x42#8] } }

/-- A take with OUT holding bytes, and one with OUT empty. -/
theorem witness_OutKeepsOrder : (∃ t, step (asked [.take] [] true) = .next t) ∧
    (offering.host.events = [.take] ∧ offering.eng.out = [0x41#8, 0x42#8]) ∧
    ((asked [.take] [] true).host.events = [.take] ∧ (asked [.take] [] true).eng.out = []) :=
  ⟨witness_steps.2.2, ⟨rfl, rfl⟩, rfl, rfl⟩

theorem witness_BuildNeverChanges : ∃ t, step (asked [.offer 0x01000000#32] [] true) = .next t :=
  witness_steps.1

theorem witness_EngineIdles : State.reset.host.events = [] ∧ State.reset.host.port = [] ∧
    State.reset.eng.inflight = none := ⟨rfl, rfl, rfl⟩

/-- `rst_n` is low and a word waits at the port. -/
def held (ev : Event) : State :=
  { State.reset with host := { HostSide.reset with
      inReset := true, events := [ev], port := [0x01000000#32] } }

theorem witness_ResetGivesResetValues :
    (∃ t, step (waiting [.resetLow]) = .next t) ∧
    ((held .engine).host.inReset = true ∧ (held .engine).host.events = [.engine]) ∧
    ((held .resetHigh).host.inReset = true ∧ (held .resetHigh).host.events = [.resetHigh] ∧
      ∃ t, step (held .resetHigh) = .next t) :=
  ⟨⟨_, rfl⟩, ⟨rfl, rfl⟩, rfl, rfl, _, rfl⟩

theorem witness_StepKeepsInvariant : Inv (asked [] [0x01000000#32] true) ∧
    ∃ t, step (asked [] [0x01000000#32] true) = .next t :=
  ⟨inv_of_resetEngine rfl, witness_steps.2.1⟩

/-- Between two commands in phases TREE, CODES and COUNT. -/
theorem witness_InvariantGivesBetween : Inv packed1 ∧ packed1.eng.inflight = none ∧
    packed1.eng.phase = .pack ∧ Inv State.reset ∧ State.reset.eng.inflight = none ∧
    Inv failed ∧ failed.eng.inflight = none ∧ failed.eng.err = true :=
  ⟨inv_packed1, test_z.2.2.2.2.1.2.1, test_z.2.2.2.2.1.1, inv_of_resetEngine rfl, rfl, inv_failed,
    rfl, rfl⟩

theorem witness_StepNeverStops : Inv codes4 ∧ Inv failed := ⟨inv_codes4, inv_failed⟩

end Sys2Proof.Tests
end

/-! The build never changes (R7), and a command that waits on a full OUT goes on at the engine's
turn (R24, R198). -/

namespace Sys2Proof.Machine

/-! ### The build -/

@[simp] theorem takeByte_build (s : State) : (takeByte s).build = s.build := by
  unfold takeByte; split <;> rfl

@[simp] theorem resetHigh_build (s : State) : (resetHigh s).build = s.build := by
  unfold resetHigh; split <;> rfl

theorem engineTurn_build {s t : State} (h : engineTurn s = .next t) : t.build = s.build := by
  rcases engineTurn_cases h with ⟨rfl, -⟩ | ⟨f, -, -, rfl⟩ | ⟨w, rest, -, -, hw⟩
  · rfl
  · exact pushAll_build ..
  · obtain ⟨-, hbuild, -⟩ := execWord_keeps hw
    exact hbuild

theorem move_build {ev : Event} {s t : State} (h : move ev s = .next t) : t.build = s.build := by
  cases ev with
  | engine => exact engineTurn_build h
  | offer w => obtain rfl : offerWord w s = t := by simpa [move] using h
               rfl
  | read a => obtain rfl : readRegister a s = t := by simpa [move] using h
              rfl
  | take => obtain rfl : takeByte s = t := by simpa [move] using h
            exact takeByte_build s
  | resetLow => obtain rfl : resetLow s = t := by simpa [move] using h
                rfl
  | resetHigh => obtain rfl : resetHigh s = t := by simpa [move] using h
                 exact resetHigh_build s

/-- Settles O57: each move of a step, the engine's or the host's, keeps the build. -/
theorem buildNeverChanges : Obligations.BuildNeverChanges := by
  intro s t h
  rcases step_split h with ⟨-, hturn⟩ | ⟨ev, -, rest, -, hmove⟩
  · simpa using engineTurn_build hturn
  · simpa using move_build hmove

/-! ### The engine's turn with a command in flight -/

/-- `s` as the engine finds it at its turn: with the step's own draw, and the turn gone from the
schedule (log entries 3 and 5). -/
def State.atTurn (s : State) : State :=
  { s with host := { s.host with events := s.host.events.tail }, draw := s.draw + 1 }

@[simp] theorem atTurn_build (s : State) : s.atTurn.build = s.build := rfl
@[simp] theorem atTurn_eng (s : State) : s.atTurn.eng = s.eng := rfl
@[simp] theorem atTurn_draw (s : State) : s.atTurn.draw = s.draw + 1 := rfl
@[simp] theorem atTurn_host (s : State) :
    s.atTurn.host = { s.host with events := s.host.events.tail } := rfl

/-- With an empty schedule, or the engine's turn at its head, the step is the engine's turn. -/
theorem step_eq_engineTurn {s : State}
    (h : s.host.events.head? = some .engine ∨ s.host.events = []) :
    step s = engineTurn s.atTurn := by
  obtain ⟨b, e, ⟨events, port, taken, reads, sawIdle, inReset⟩, draw⟩ := s
  match events, h with
  | [], _ => rfl
  | ev :: rest, h =>
    obtain rfl : ev = .engine := by simpa using h
    rfl

theorem engineTurn_inflight {s : State} {f : InFlight} (hr : s.host.inReset = false)
    (hf : s.eng.inflight = some f) : engineTurn s = .next (resume f s) := by
  simp [engineTurn, hr, hf]

/-! ### The next byte -/

/-- OUT has at least one entry (R6), so a drained OUT has room. -/
theorem hasRoom_of_drained {s : State} (h : s.eng.out = []) : hasRoom s = true := by
  unfold hasRoom
  split
  · rfl
  · simp [h, OutDepth.entries]

/-- Where OUT has room, the first byte goes out. -/
theorem pushAll_cons_grows {b : Byte} {bs : List Byte} {c : Closing} {s : State}
    (h : hasRoom s = true) : s.eng.out ++ [b] <+: (pushAll (b :: bs) c s).eng.out := by
  rw [pushAll, if_pos h]
  exact pushAll_grows bs c (outPush b s)

/-! ### The closing writes -/

/-- EMIT_HEADER's closing writes are exact where they fit (R141). -/
theorem closeCommand_header {draw n : Nat} {e : Engine} (hn : n < 2 ^ 11)
    (ho : e.outCount.toNat + n + 3 < 2 ^ 64) :
    (closeCommand draw (.header n) e).hdrLen.toNat = n ∧
      (closeCommand draw (.header n) e).outCount.toNat = e.outCount.toNat + n + 3 ∧
      (closeCommand draw (.header n) e).phase = .pack :=
  ⟨narrow_toNat hn, narrow_toNat ho, rfl⟩

/-- PACK's closing writes are exact where they fit, and `reset()` leaves the partial byte alone in BUF
(R152, R153). -/
theorem closeCommand_pack {draw filled len : Nat} {e : Engine} (hf : filled ≤ 32)
    (hp : e.packedBits.toNat + len < 2 ^ 64) (ho : e.outCount.toNat + filled < 2 ^ 64) :
    (closeCommand draw (.pack filled len) e).lastFilled.toNat = filled ∧
      (closeCommand draw (.pack filled len) e).packedBits.toNat = e.packedBits.toNat + len ∧
      (closeCommand draw (.pack filled len) e).outCount.toNat = e.outCount.toNat + filled ∧
      (closeCommand draw (.pack filled len) e).buf[0] = e.buf[filled]?.getD 0#8 ∧
      TailClear (closeCommand draw (.pack filled len) e).buf ∧
      (closeCommand draw (.pack filled len) e).phase = e.phase :=
  ⟨ofNat_toNat_lt (by omega), narrow_toNat hp, narrow_toNat ho, resetBuf_zero _ _,
    resetBuf_tail _ _, rfl⟩

/-- FINISH's closing writes are exact where they fit (R158). -/
theorem closeCommand_finish {draw n : Nat} {e : Engine} (ho : e.outCount.toNat + n < 2 ^ 64) :
    (closeCommand draw (.finish n) e).outCount.toNat = e.outCount.toNat + n ∧
      (closeCommand draw (.finish n) e).phase = .done :=
  ⟨narrow_toNat ho, rfl⟩

/-! ### The wait -/

/-- Settles O33: the turn resumes the waiting command, so it ends as `pushAll_room` says where its bytes
fit, and pushes at least the first where OUT has an entry free. -/
theorem waitingCommandGoesOn : Obligations.WaitingCommandGoesOn := by
  intro s f hev hr hf
  have hstep : step s = .next (pushAll f.rest f.closing s.atTurn) := by
    rw [step_eq_engineTurn hev, engineTurn_inflight (by simpa using hr) (by simpa using hf), resume]
  refine ⟨hstep, fun t ht => ?keeps, fun hroom => ?ends, fun b bs hb hfree => ?next⟩
  case keeps =>
    obtain rfl : pushAll f.rest f.closing s.atTurn = t := by simpa [hstep] using ht
    exact ⟨by simp, pushAll_grows f.rest f.closing s.atTurn⟩
  case ends =>
    have hclosed := pushAll_room (c := f.closing) (s := s.atTurn) hroom
    refine ⟨_, hclosed ▸ hstep, by simp, by simp, rfl, fun n hc hn ho => ?header,
      fun filled len hc hle hp ho => ?pack, fun n hc ho => ?finish⟩
    case header => rw [hc]; exact closeCommand_header hn ho
    case pack => rw [hc]; exact closeCommand_pack hle hp ho
    case finish => rw [hc]; exact closeCommand_finish ho
  case next =>
    have hone : hasRoom s.atTurn = true := by
      rcases hfree with hdrained | hroom
      · exact hasRoom_of_drained hdrained
      · exact hasRoom_of_roomFor (n := 0) hroom
    refine ⟨_, hstep, ?_⟩
    rw [hb]
    exact pushAll_cons_grows hone

end Sys2Proof.Machine

/-! The invariant at reset, over a step, and between two commands (R57, R200). -/

namespace Sys2Proof.Machine

/-! ### The invariant over a step -/

/-- Settles O54: the engine at reset has its reset values. -/
theorem resetMeetsInvariant : Obligations.ResetMeetsInvariant := inv_of_resetEngine reset_eng

/-- Settles O55: a new draw keeps the invariant, and then so does every move of the schedule, command
by command (`inv_exec`) and host action by host action (`inv_move`). -/
theorem stepKeepsInvariant : Obligations.StepKeepsInvariant := by
  intro s t hinv hstep
  exact inv_nextMove (inv_nextDraw hinv) hstep

/-! ### The items of R57 -/

/-- The phases that follow BUILD_TREE have its tree. -/
theorem inv_built {s : State} (h : Inv s)
    (hp : s.eng.phase = .tree ∨ s.eng.phase = .codes ∨ s.eng.phase = .pack ∨ s.eng.phase = .done) :
    BuiltFrom s.eng := by
  rcases hp with hp | hp
  · exact inv_tables h hp
  · obtain ⟨hb, -⟩ := inv_coded h hp
    exact hb

/-- Item 2 of R57 in the forge: the entries below `k` are valid, and leaves are the first of them, one
per symbol of `ps` in order. -/
theorem Grove.entries {freq : Vector (BitVec 32) 256} {ps : List Byte} {f : Forge}
    {ts : List HTree} (g : Grove freq ps f ts) {i : Nat} (hi : i < 511) :
    (f.nodes[i].valid = true ↔ i < f.k) ∧
      (i < f.k → (f.nodes[i].internal = false ↔ i < ps.length)) ∧
      (i < ps.length → ps[i]? = some f.nodes[i].sym) := by
  have hplanted := g.planted
  by_cases hleaf : i < ps.length
  · rw [g.leafs i hleaf hi]
    simp [leafNode, hleaf]
    omega
  · by_cases hused : i < f.k
    · obtain ⟨hvalid, hinternal, -⟩ := g.inner i hi (by omega) hused
      simp [hvalid, hinternal, hleaf, hused]
    · rw [g.fresh i hi (by omega)]
      simp [Node.empty, hleaf, hused]

/-- Item 2 of R57 of a built tree. -/
theorem built_items {e : Engine} (hb : BuiltFrom e) (hc : Counted e) :
    e.nnodes.toNat = 2 * e.nsym.toNat - 1 ∧
    (∀ (i : Nat) (h : i < 511), (e.nodes[i].valid = true ↔ i < e.nnodes.toNat)) ∧
    (∀ (i : Nat) (h : i < 511), i < e.nnodes.toNat →
      (e.nodes[i].internal = false ↔ i < e.nsym.toNat)) ∧
    (∀ (i : Nat) (h : i < 511), i < e.nsym.toNat →
      (presentSymbols e.freq)[i]? = some e.nodes[i].sym) ∧
    (∃ n, nodeAt e.nodes e.root = some n ∧ n.weight = e.totalCount) := by
  obtain ⟨draw, x, t, g, -, hnodes, hroot, hk, hnn, hrep, hw, -, -, hlen⟩ := grove_of_built hb hc
  have hentries := fun (i : Nat) (h : i < 511) => g.entries h
  rw [hk, ← hnn, hlen, ← hnodes] at hentries
  refine ⟨hnn, fun i h => have ⟨hvalid, _, _⟩ := hentries i h; hvalid,
    fun i h => have ⟨_, hinner, _⟩ := hentries i h; hinner,
    fun i h => have ⟨_, _, hsym⟩ := hentries i h; hsym,
    e.nodes[x], by rw [hroot, nodeAt_ofNat], ?_⟩
  have hroot_weight : weightOf e.nodes x = t.weight :=
    rep_weight hrep (by rw [hw]; exact e.totalCount.isLt)
  exact BitVec.eq_of_toNat_eq (hroot_weight.trans hw)

/-- In a coded engine exactly the present symbols have a code (R57 item 3, R135). -/
theorem coded_iff_present {e : Engine} (hb : BuiltFrom e) (hc : Counted e) (hk : CodedFrom e)
    (s : Byte) : e.codeLenOf s ≠ 0#8 ↔ e.freqOf s ≠ 0#32 := by
  obtain ⟨t, x, ht, -, -, hperm, -⟩ := built_tree hb hc
  have hcoded := codedFrom_coded hb hc hk ht
  rw [← leaf_iff_present hperm]
  constructor
  · intro hlen
    by_contra habsent
    exact hlen (hcoded.absent s habsent).1
  · intro hleaf hzero
    obtain ⟨p, hp, rfl⟩ := table_has hleaf
    have hlen := (hcoded.mem p hp).1
    have hpos := (table_length hp).1
    simp [hzero] at hlen
    omega

/-- An error's code is not 0 (R181). -/
theorem errCode_toBits_ne_zero {c : ErrCode} (h : c ≠ .none) : c.toBits ≠ 0#8 := by
  cases c <;> simp_all [ErrCode.toBits]

theorem err_iff (e : Engine) : e.err = true ↔ e.phase = .error := by simp [Engine.err]

/-- Settles O56: items 2 and 3 come from the tree and the codes that the phase's clause of `Inv` names,
the other items are clauses of `Inv`. -/
theorem invariantGivesBetween : Obligations.InvariantGivesBetween := by
  intro s hinv hidle
  exact
    { counts := ⟨hinv.counted.total, hinv.counted.nsym⟩
      tree := fun hp => built_items (inv_built hinv hp) hinv.counted
      codes := fun hp => by
        obtain ⟨hb, hk⟩ := inv_coded hinv hp
        obtain ⟨htotal, -, hpadding⟩ := totals_of_coded hinv.counted hk
        exact ⟨coded_iff_present hb hinv.counted hk, htotal, by omega⟩
      buffer := hinv.idleBuf hidle
      errors := ⟨err_iff _, fun he =>
        errCode_toBits_ne_zero (hinv.errorRecorded.mp ((err_iff _).mp he))⟩ }

end Sys2Proof.Machine

/-! The register map (R27 to R51) and the read port (R27, R210). -/

namespace Sys2Proof.Machine

/-! ### Fields side by side -/

/-- A bit above the low part of two words side by side. -/
theorem getLsbD_append_high {n m i : Nat} {x : BitVec n} {y : BitVec m} (h : m ≤ i) :
    (x ++ y).getLsbD i = x.getLsbD (i - m) := by
  rw [BitVec.getLsbD_append, if_neg (by omega)]

/-- The lowest bit where a flag stands lowest. -/
theorem getLsbD_append_ofBool {n : Nat} {x : BitVec n} {b : Bool} :
    (x ++ BitVec.ofBool b).getLsbD 0 = b := by
  rw [BitVec.getLsbD_append, if_pos (by decide)]
  cases b <;> rfl

/-- A 64-bit value is its high word and its low word (R64). -/
theorem wordOf_append (v : BitVec 64) : wordOf v 1 ++ wordOf v 0 = v :=
  (BitVec.extractLsb'_append_extractLsb'_eq_extractLsb' (x := v) (start₁ := 0) (len₁ := 32) rfl).trans
    BitVec.extractLsb'_eq_self

theorem lowBits_toNat {w : Nat} (v : BitVec w) (h : w ≤ 32) : (lowBits v).toNat = v.toNat := by
  rw [lowBits, BitVec.toNat_setWidth]
  exact Nat.mod_eq_of_lt (lt_of_lt_of_le v.isLt (Nat.pow_le_pow_right (by omega) h))

theorem wordOf_toNat {w : Nat} (v : BitVec w) (k : Nat) :
    (wordOf v k).toNat = v.toNat / 2 ^ (32 * k) % 2 ^ 32 := by
  rw [wordOf, BitVec.extractLsb'_toNat, Nat.shiftRight_eq_div_pow]

/-- The fields of NODE_INFO (R51). -/
theorem nodeInfo_fields (n : Node) :
    (nodeInfo n).extractLsb' 0 9 = n.left ∧ (nodeInfo n).extractLsb' 9 9 = n.right ∧
      (nodeInfo n).extractLsb' 18 8 = n.sym ∧ (nodeInfo n).extractLsb' 26 4 = 0#4 ∧
      (nodeInfo n).getLsbD 30 = n.internal ∧ (nodeInfo n).getLsbD 31 = n.valid := by
  unfold nodeInfo
  refine ⟨BitVec.extractLsb'_append_eq_right, ?right, ?sym, ?zeros, ?internal, ?valid⟩
  case right =>
    exact (BitVec.extractLsb'_append_eq_of_le (by decide)).trans BitVec.extractLsb'_append_eq_right
  case sym =>
    iterate 2 refine (BitVec.extractLsb'_append_eq_of_le (by decide)).trans ?_
    exact BitVec.extractLsb'_append_eq_right
  case zeros =>
    iterate 3 refine (BitVec.extractLsb'_append_eq_of_le (by decide)).trans ?_
    exact BitVec.extractLsb'_append_eq_right
  case internal =>
    iterate 4 refine (getLsbD_append_high (by decide)).trans ?_
    exact getLsbD_append_ofBool
  case valid =>
    iterate 5 refine (getLsbD_append_high (by decide)).trans ?_
    simp

/-- The fields of STATUS (R32). -/
theorem statusWord_fields (e : Engine) :
    (statusWord e).extractLsb' 0 3 = e.phase.toBits ∧ (statusWord e).getLsbD 3 = e.busy ∧
      (statusWord e).getLsbD 4 = e.err ∧ (statusWord e).getLsbD 5 = e.single ∧
      (statusWord e).getLsbD 6 = e.pending ∧ (statusWord e).getLsbD 7 = e.outAvail ∧
      (statusWord e).extractLsb' 8 24 = 0#24 := by
  unfold statusWord
  refine ⟨BitVec.extractLsb'_append_eq_right, ?busy, ?err, ?single, ?pending, ?outAvail, ?zeros⟩
  case busy => exact (getLsbD_append_high (by decide)).trans getLsbD_append_ofBool
  case err =>
    iterate 2 refine (getLsbD_append_high (by decide)).trans ?_
    exact getLsbD_append_ofBool
  case single =>
    iterate 3 refine (getLsbD_append_high (by decide)).trans ?_
    exact getLsbD_append_ofBool
  case pending =>
    iterate 4 refine (getLsbD_append_high (by decide)).trans ?_
    exact getLsbD_append_ofBool
  case outAvail =>
    iterate 5 refine (getLsbD_append_high (by decide)).trans ?_
    exact getLsbD_append_ofBool
  case zeros =>
    iterate 6 refine (BitVec.extractLsb'_append_eq_of_le (by decide)).trans ?_
    rfl

/-! ### The status flags -/

theorem busy_iff (e : Engine) : e.busy = true ↔ e.inflight ≠ none := by
  simp [Engine.busy, Option.isSome_iff_ne_none]

theorem pending_iff (e : Engine) : e.pending = true ↔ e.subIndex ≠ 0#3 := by simp [Engine.pending]

theorem outAvail_iff (e : Engine) : e.outAvail = true ↔ e.out ≠ [] := by
  simp [Engine.outAvail]

/-! ### The address map -/

theorem namedRegister_unassigned (b : Build) (e : Engine) {n : Nat} (h : 0x14 ≤ n) :
    namedRegister b e n = 0#32 := by
  obtain ⟨k, rfl⟩ : ∃ k, n = k + 0x14 := ⟨n - 0x14, by omega⟩
  rfl

/-- The FREQ window (R47). -/
theorem regRead_freq (b : Build) (e : Engine) (s : Byte) :
    regRead b e (BitVec.ofNat 16 (0x0100 + s.toNat)) = e.freqOf s := by
  have hs := s.isLt
  simp only [regRead, ofNat_toNat_lt (show 0x0100 + s.toNat < 2 ^ 16 by omega)]
  rw [if_neg (by omega), if_pos (by omega), Nat.add_sub_cancel_left, BitVec.ofNat_toNat,
    BitVec.setWidth_eq]

/-- The CODE_LEN window (R48). -/
theorem regRead_codeLen (b : Build) (e : Engine) (s : Byte) :
    regRead b e (BitVec.ofNat 16 (0x0200 + s.toNat)) = lowBits (e.codeLenOf s) := by
  have hs := s.isLt
  simp only [regRead, ofNat_toNat_lt (show 0x0200 + s.toNat < 2 ^ 16 by omega)]
  rw [if_neg (by omega), if_neg (by omega), if_pos (by omega), Nat.add_sub_cancel_left,
    BitVec.ofNat_toNat, BitVec.setWidth_eq]

/-- The CODE window (R49). -/
theorem regRead_code (b : Build) (e : Engine) (s : Byte) {k : Nat} (hk : k < 8) :
    regRead b e (BitVec.ofNat 16 (0x0800 + 8 * s.toNat + k)) = wordOf (e.codeOf s) k := by
  have hs := s.isLt
  simp only [regRead, ofNat_toNat_lt (show 0x0800 + 8 * s.toNat + k < 2 ^ 16 by omega)]
  have hsym : (0x0800 + 8 * s.toNat + k - 0x0800) / 8 = s.toNat := by omega
  have hword : (0x0800 + 8 * s.toNat + k - 0x0800) % 8 = k := by omega
  rw [if_neg (by omega), if_neg (by omega), if_neg (by omega), if_neg (by omega),
    if_pos (by omega), hsym, hword, BitVec.ofNat_toNat, BitVec.setWidth_eq]

/-- The NODE window (R51). -/
theorem regRead_node (b : Build) (e : Engine) {k : Nat} (hk : k < 1022) :
    regRead b e (BitVec.ofNat 16 (0x1000 + k)) = nodeWord e k := by
  simp only [regRead, ofNat_toNat_lt (show 0x1000 + k < 2 ^ 16 by omega)]
  rw [if_neg (by omega), if_neg (by omega), if_neg (by omega), if_neg (by omega),
    if_neg (by omega), if_pos (by omega), Nat.add_sub_cancel_left]

theorem nodeWord_even (e : Engine) {i : Nat} (h : i < 511) :
    nodeWord e (2 * i) = e.nodes[i].weight := by
  have hindex : 2 * i / 2 = i := by omega
  simp [nodeWord, hindex, Vector.getElem?_eq_getElem h]

theorem nodeWord_odd (e : Engine) {i : Nat} (h : i < 511) :
    nodeWord e (2 * i + 1) = nodeInfo e.nodes[i] := by
  have hindex : (2 * i + 1) / 2 = i := by omega
  simp [nodeWord, hindex, Vector.getElem?_eq_getElem h]

/-- Settles O43: the address of each window leads to its entry, and the fields of NODE_INFO stand side
by side. -/
theorem registerWindows : Obligations.RegisterWindows := by
  intro b e
  refine ⟨regRead_freq b e, regRead_codeLen b e, fun s k hk => ?_, fun i hi => ⟨?_, ?_⟩,
    nodeInfo_fields⟩
  · rw [regRead_code b e s hk, wordOf_toNat]
  · rw [regRead_node b e (by omega), nodeWord_even e hi]
  · rw [Nat.add_assoc, regRead_node b e (by omega), nodeWord_odd e hi]

/-- Settles O46: the fields of the STATUS word, each with what its flag says. -/
theorem statusFields : Obligations.StatusFields := by
  intro b e
  show (statusWord e).extractLsb' 0 3 = _ ∧ ((statusWord e).getLsbD 3 = true ↔ _) ∧
    ((statusWord e).getLsbD 4 = true ↔ _) ∧ (statusWord e).getLsbD 5 = _ ∧
    ((statusWord e).getLsbD 6 = true ↔ _) ∧ ((statusWord e).getLsbD 7 = true ↔ _) ∧
    (statusWord e).extractLsb' 8 24 = _
  obtain ⟨hphase, hbusy, herr, hsingle, hpending, hout, hzero⟩ := statusWord_fields e
  rw [hphase, hbusy, herr, hpending, hout]
  exact ⟨rfl, busy_iff e, err_iff e, hsingle, pending_iff e, outAvail_iff e, hzero⟩

/-- Settles O44: each address leads to its register, which fits the low bits of the word. -/
theorem namedRegisters : Obligations.NamedRegisters := by
  intro b e
  refine ⟨?error, rfl, lowBits_toNat e.nsym (by decide), rfl, lowBits_toNat e.nnodes (by decide),
    lowBits_toNat e.root (by decide), wordOf_append e.totalBits, lowBits_toNat e.padding (by decide),
    lowBits_toNat e.hdrLen (by decide), lowBits_toNat e.subIndex (by decide),
    lowBits_toNat e.buf[0] (by decide), lowBits_toNat e.lastFilled (by decide),
    wordOf_append e.packedBits, wordOf_append e.outCount⟩
  case error =>
    show lowBits e.errCode.toBits = _
    cases e.errCode <;> rfl

/-- Settles O45: the first range falls through the named registers, the other two are the gaps of the
map. -/
theorem unmappedAddressesReadZero : Obligations.UnmappedAddressesReadZero := by
  intro b e a ha
  simp only [regRead]
  rcases ha with ⟨hlo, hhi⟩ | ⟨hlo, hhi⟩ | hlo
  · rw [if_pos hhi, namedRegister_unassigned b e hlo]
  · rw [if_neg (by omega), if_neg (by omega), if_neg (by omega), if_pos hhi]
  · rw [if_neg (by omega), if_neg (by omega), if_neg (by omega), if_neg (by omega),
      if_neg (by omega), if_neg (by omega)]

/-- Settles O47: ID and PARAM are made of the build's constants alone. -/
theorem idAndParam : Obligations.IdAndParam := by
  intro b e
  refine ⟨rfl, ?_⟩
  show paramWord b = _
  unfold paramWord
  cases b.flushPolicy <;> decide

end Sys2Proof.Machine

/-! The step and the ports: the accepted word, the command port, the register read and the output port
(R24, R27, R50, R212). -/

namespace Sys2Proof.Machine

/-! ### The step -/

/-- The step takes the move at the head of the schedule. -/
theorem step_eq_move {s : State} {ev : Event} {rest : List Event} (h : s.host.events = ev :: rest) :
    step s = move ev s.atTurn := by
  obtain ⟨b, e, ⟨events, port, taken, reads, sawIdle, inReset⟩, draw⟩ := s
  obtain rfl : events = ev :: rest := h
  rfl

/-- On the engine's turn, with the engine ready, the step executes the word at the head of the port
(R24). -/
theorem step_eq_execWord {s : State} {w : Word} {rest : List Word}
    (hev : s.host.events.head? = some .engine ∨ s.host.events = []) (hr : s.host.inReset = false)
    (hi : s.eng.inflight = none) (hp : s.host.port = w :: rest) :
    step s = execWord w (acceptWord rest s.atTurn) := by
  rw [step_eq_engineTurn hev]
  simp [engineTurn, hr, hi, hp]

theorem execWord_cmd {w : Word} {i : Instr} (h : decode w = .cmd i) (s : State) :
    execWord w s = exec i s := by simp [execWord, h]

theorem execWord_illegal {w : Word} {why : Illegal} (h : decode w = .illegal why) (s : State) :
    execWord w s = illegalWord w s := by simp [execWord, h]

theorem illegalWord_raises {w : Word} {s : State} (h : s.eng.phase ≠ .error) :
    illegalWord w s = .next (raiseError .illegalCommand w s) := if_neg h

theorem illegalWord_ignored {w : Word} {s : State} (h : s.eng.phase = .error) :
    illegalWord w s = .next s := if_pos h

theorem decodeTableWord_eq_some {nbits w : Nat} {i : Instr} :
    decodeTableWord nbits w = some i ↔ decode (tableWord nbits w) = .cmd i := by
  unfold decodeTableWord
  cases decode (tableWord nbits w) <;> simp

/-- A row of 32 bits is the whole word (R80). -/
theorem tableWord_toNat (w : Word) : tableWord 32 w.toNat = w := by
  rw [tableWord, Nat.mod_eq_of_lt w.isLt, BitVec.ofNat_toNat, BitVec.setWidth_eq]

/-- Settles O49: the step executes the word at the head of the port, which `withFetchWord` places there,
and `decode` says whether that is an instruction or an illegal word. -/
theorem stepRunsDecodedInstruction : Obligations.StepRunsDecodedInstruction := by
  refine ⟨fun s s' w rest hev hr hi hp hs' => ?port, fun s nbits w i hw => ?placed, fun w i => ?row⟩
  case port =>
    obtain rfl : s' = acceptWord rest s.atTurn := hs'
    rw [step_eq_execWord hev hr hi hp]
    refine ⟨rfl, fun i hd => execWord_cmd hd _, fun why hd hne => ?_, fun why hd he => ?_⟩
    · exact (execWord_illegal hd _).trans (illegalWord_raises hne)
    · exact (execWord_illegal hd _).trans (illegalWord_ignored he)
  case placed =>
    have hstep : step (s.withFetchWord nbits w) =
        execWord (tableWord nbits w) (acceptWord s.host.port (s.withFetchWord nbits w).atTurn) :=
      step_eq_execWord (.inl rfl) rfl rfl rfl
    rw [hstep, execWord_cmd (decodeTableWord_eq_some.mp hw)]
    rfl
  case row => rw [decodeTableWord_eq_some, tableWord_toNat]

/-! ### The register read -/

theorem portRead_status (s : State) : portRead s statusAddr = statusWord s.eng := by simp [portRead]

/-- With BUSY = 0 seen and no command in flight, any read is exact (R27). -/
theorem portRead_idle {s : State} (hseen : s.host.sawIdle = true) (hi : s.eng.inflight = none)
    (a : Addr) : portRead s a = regRead s.build s.eng a := by
  by_cases ha : a = statusAddr
  · rw [ha, portRead_status]
    rfl
  · simp [portRead, ha, hseen, Engine.busy, hi]

/-- Before BUSY = 0 is seen, a read but STATUS's is the step's free value (R210). -/
theorem portRead_unseen {s : State} {a : Addr} (ha : a ≠ statusAddr) (h : s.host.sawIdle = false) :
    portRead s a = Config.freeRead s.draw := by
  simp [portRead, ha, h]

/-- Settles O48: the move records `portRead`'s value on the host's side and leaves the engine. -/
theorem readsReturnAndChangeNothing : Obligations.ReadsReturnAndChangeNothing := by
  intro s t a rest hev hstep
  obtain rfl : readRegister a s.atTurn = t := by simpa [step_eq_move hev, move] using hstep
  refine ⟨rfl, rfl, rfl, rfl, rfl, portRead s.atTurn a, rfl, fun ha => ?_, fun hseen hi => ?_,
    fun ha hunseen => portRead_unseen ha hunseen, ?_⟩
  · rw [ha]
    exact portRead_status s.atTurn
  · exact portRead_idle (s := s.atTurn) hseen hi a
  · simp [readRegister, statusAddr, Engine.busy]

/-! ### The command port -/

/-- What an engine's turn does to the host's side: nothing, or it takes the head word, when it is ready
for one (R24). -/
theorem engineTurn_host {s t : State} (h : engineTurn s = .next t) :
    t.draw = s.draw ∧ (t.host = s.host ∨ ∃ w rest, s.host.port = w :: rest ∧ cmdReady s = true ∧
      t.host = { s.host with port := rest, sawIdle := false }) := by
  rcases engineTurn_cases h with ⟨rfl, -⟩ | ⟨f, -, -, rfl⟩ | ⟨w, rest, hready, hport, hw⟩
  · exact ⟨rfl, .inl rfl⟩
  · exact ⟨pushAll_draw .., .inl (pushAll_host ..)⟩
  · obtain ⟨hhost, -, hdraw⟩ := execWord_keeps hw
    exact ⟨hdraw, .inr ⟨w, rest, hport, hready, hhost⟩⟩

/-- What a take does to the host's side. -/
theorem takeByte_host (s : State) :
    (takeByte s).draw = s.draw ∧ (takeByte s).host.events = s.host.events ∧
      (takeByte s).host.port = s.host.port := by
  unfold takeByte
  split <;> exact ⟨rfl, rfl, rfl⟩

/-- What the release of `rst_n` does to the host's side. -/
theorem resetHigh_host (s : State) :
    (resetHigh s).draw = s.draw ∧ (resetHigh s).host = { s.host with inReset := false } := by
  unfold resetHigh
  split <;> exact ⟨rfl, rfl⟩

/-- What a move of the host does to the port: an offer adds its word at the tail (R212). -/
theorem move_port {ev : Event} {s t : State} (hev : ev ≠ .engine) (h : move ev s = .next t) :
    t.draw = s.draw ∧ t.host.events = s.host.events ∧
      (t.host.port = s.host.port ∨ ∃ w, ev = .offer w ∧ t.host.port = s.host.port ++ [w]) := by
  cases ev with
  | engine => exact absurd rfl hev
  | offer w => obtain rfl : offerWord w s = t := by simpa [move] using h
               exact ⟨rfl, rfl, .inr ⟨w, rfl, rfl⟩⟩
  | read a => obtain rfl : readRegister a s = t := by simpa [move] using h
              exact ⟨rfl, rfl, .inl rfl⟩
  | take => obtain rfl : takeByte s = t := by simpa [move] using h
            obtain ⟨hdraw, hevents, hport⟩ := takeByte_host s
            exact ⟨hdraw, hevents, .inl hport⟩
  | resetLow => obtain rfl : resetLow s = t := by simpa [move] using h
                exact ⟨rfl, rfl, .inl rfl⟩
  | resetHigh => obtain rfl : resetHigh s = t := by simpa [move] using h
                 obtain ⟨hdraw, hhost⟩ := resetHigh_host s
                 exact ⟨hdraw, by rw [hhost], .inl (by rw [hhost])⟩

theorem cmdReady_iff (s : State) :
    cmdReady s = true ↔ s.host.inReset = false ∧ s.eng.inflight = none := by
  simp [cmdReady, Engine.busy]

/-- Settles O50: the engine's turn takes the head word or leaves the port (`engineTurn_host`), a host's
move adds its word at the tail or leaves the port (`move_port`). -/
theorem portKeepsOrder : Obligations.PortKeepsOrder := by
  refine ⟨fun s t hstep => ?step, fun s w rest hev => ?offer, cmdReady_iff⟩
  case step =>
    rcases step_split hstep with ⟨-, hturn⟩ | ⟨ev, hne, rest, hev, hmove⟩
    · obtain ⟨hdraw, hhost | ⟨w, rest, hport, hready, hhost⟩⟩ := engineTurn_host hturn
      · rw [hhost]
        exact ⟨.inl rfl, rfl, hdraw⟩
      · rw [hhost]
        exact ⟨.inr (.inr ⟨w, hport, hready, rfl⟩), rfl, hdraw⟩
    · obtain ⟨hdraw, hevents, hport⟩ := move_port hne hmove
      refine ⟨?_, by rw [hevents, hev]; rfl, hdraw⟩
      rcases hport with hport | ⟨w, rfl, hport⟩
      · exact .inl hport
      · exact .inr (.inl ⟨w, by rw [hev]; rfl, hport⟩)
  case offer =>
    rw [step_eq_move hev]
    simp [move, offerWord, State.withHost, State.atTurn, hev]

/-! ### The output port -/

/-- The phase check lets OUT grow where the command's own part does. -/
theorem inPhase_out {need : Phase} {i : Instr} {s t : State}
    {body : Host.Outcome State Fault Refusal} (h : inPhase need i s body = .next t)
    (hbody : body = .next t → s.eng.out <+: t.eng.out) : s.eng.out <+: t.eng.out := by
  rcases inPhase_next h with ⟨-, rfl⟩ | ⟨-, -, rfl⟩ | ⟨-, -, hb⟩
  · exact List.prefix_rfl
  · exact List.prefix_rfl
  · exact hbody hb

/-- Pushing from a state with `out` in OUT keeps `out` in front. -/
theorem pushAll_keeps_front {out bytes : List Byte} {c : Closing} {s : State} (h : s.eng.out = out) :
    out <+: (pushAll bytes c s).eng.out := h ▸ pushAll_grows bytes c s

/-- Every command but CLEAR only appends to OUT; CLEAR gives the reset values (R50, R173). -/
theorem exec_out {i : Instr} {s t : State} (h : exec i s = .next t) :
    s.eng.out <+: t.eng.out ∨ t.eng = Engine.reset := by
  cases i with
  | nop =>
    obtain rfl : s = t := by simpa [exec, execNop] using h
    exact .inl List.prefix_rfl
  | clear =>
    obtain rfl : clearEngine s = t := by simpa [exec, execClear] using h
    exact .inr rfl
  | freqInc sym =>
    refine .inl (inPhase_out h fun hb => ?_)
    split at hb <;> cases hb <;> exact List.prefix_rfl
  | buildTree =>
    refine .inl (inPhase_out h fun hb => ?_)
    split at hb
    · cases hb
      exact List.prefix_rfl
    · simp only at hb
      split at hb <;> cases hb
      exact List.prefix_rfl
  | buildCodes =>
    refine .inl (inPhase_out h fun hb => ?_)
    split at hb <;> cases hb
    exact List.prefix_rfl
  | emitHeader =>
    refine .inl (inPhase_out h fun hb => ?_)
    split at hb <;> cases hb
    exact pushAll_grows ..
  | pack sym =>
    refine .inl (inPhase_out h fun hb => ?_)
    simp only at hb
    split at hb <;> cases hb
    · exact List.prefix_rfl
    · exact pushAll_keeps_front rfl
  | finish =>
    refine .inl (inPhase_out h fun hb => ?_)
    split at hb
    · cases hb
      exact List.prefix_rfl
    · split at hb <;> cases hb <;> exact pushAll_grows ..

theorem illegalWord_out {w : Word} {s t : State} (h : illegalWord w s = .next t) :
    s.eng.out <+: t.eng.out := by
  unfold illegalWord at h
  split at h <;> cases h <;> exact List.prefix_rfl

theorem execWord_out {w : Word} {s t : State} (h : execWord w s = .next t) :
    s.eng.out <+: t.eng.out ∨ t.eng = Engine.reset := by
  cases hd : decode w with
  | cmd i => exact exec_out (execWord_cmd hd s ▸ h)
  | illegal why => exact .inl (illegalWord_out (execWord_illegal hd s ▸ h))

/-- The bytes taken and those in OUT only grow at the end, or the engine takes its reset values and the
bytes taken stay. -/
def OutGrows (s t : State) : Prop :=
  s.host.taken ++ s.eng.out <+: t.host.taken ++ t.eng.out ∨
    (t.eng = Engine.reset ∧ t.host.taken = s.host.taken)

/-- With the bytes taken unchanged, OUT's own growth is enough. -/
theorem outGrows_of_taken {s t : State} (ht : t.host.taken = s.host.taken)
    (h : s.eng.out <+: t.eng.out ∨ t.eng = Engine.reset) : OutGrows s t := by
  rcases h with h | h
  · exact .inl (ht ▸ (List.prefix_append_right_inj _).mpr h)
  · exact .inr ⟨h, ht⟩

theorem engineTurn_outGrows {s t : State} (h : engineTurn s = .next t) : OutGrows s t := by
  rcases engineTurn_cases h with ⟨rfl, -⟩ | ⟨f, -, -, rfl⟩ | ⟨w, rest, -, -, hw⟩
  · exact .inl List.prefix_rfl
  · exact outGrows_of_taken (by simp [resume]) (.inl (pushAll_grows ..))
  · obtain ⟨hhost, -, -⟩ := execWord_keeps hw
    exact outGrows_of_taken (by rw [hhost]; rfl) (execWord_out hw :)

theorem takeByte_nil {s : State} (h : s.eng.out = []) : takeByte s = s := by
  simp [takeByte, h]

theorem takeByte_cons {s : State} {b : Byte} {rest : List Byte} (h : s.eng.out = b :: rest) :
    takeByte s = { s with
      eng := { s.eng with out := rest }
      host := { s.host with taken := s.host.taken ++ [b] } } := by
  simp [takeByte, h, State.withEng, State.withHost]

/-- A take moves the head of OUT to the end of the bytes taken. -/
theorem takeByte_outGrows (s : State) : OutGrows s (takeByte s) := by
  cases hout : s.eng.out with
  | nil => exact .inl (by rw [takeByte_nil hout])
  | cons b rest => exact .inl (by rw [takeByte_cons hout, hout]; simp)

theorem move_outGrows {ev : Event} {s t : State} (h : move ev s = .next t) : OutGrows s t := by
  cases ev with
  | engine => exact engineTurn_outGrows h
  | offer w => obtain rfl : offerWord w s = t := by simpa [move] using h
               exact .inl List.prefix_rfl
  | read a => obtain rfl : readRegister a s = t := by simpa [move] using h
              exact .inl List.prefix_rfl
  | take => obtain rfl : takeByte s = t := by simpa [move] using h
            exact takeByte_outGrows s
  | resetLow => obtain rfl : resetLow s = t := by simpa [move] using h
                exact .inr ⟨rfl, rfl⟩
  | resetHigh => obtain rfl : resetHigh s = t := by simpa [move] using h
                 unfold resetHigh
                 split
                 · exact .inr ⟨rfl, rfl⟩
                 · exact .inl List.prefix_rfl

/-- Settles O51: every move lets the bytes taken and those in OUT grow at the end or resets the engine,
and a take is `takeByte_cons` or `takeByte_nil`. -/
theorem outKeepsOrder : Obligations.OutKeepsOrder := by
  refine ⟨fun s t hstep => ?grows, fun s b out rest hev hout => ?take, fun s rest hev hout => ?none,
    fun s => outAvail_iff s.eng⟩
  case grows =>
    rcases step_split hstep with ⟨-, hturn⟩ | ⟨ev, -, rest, -, hmove⟩
    · exact (engineTurn_outGrows hturn :)
    · exact (move_outGrows hmove :)
  case take =>
    rw [step_eq_move hev, move, takeByte_cons (s := s.atTurn) hout]
    simp [State.atTurn, hev]
  case none =>
    rw [step_eq_move hev, move, takeByte_nil (s := s.atTurn) hout]
    simp [State.atTurn, hev]

end Sys2Proof.Machine

/-! EMIT_HEADER, PACK and FINISH push their own bytes and wait where OUT is full (R141, R152, R158,
R198). -/

namespace Sys2Proof.Machine

/-- Without room for all the bytes, OUT is filled to its depth and the command waits with the rest
(R198). -/
theorem pushAll_full {bytes : List Byte} {c : Closing} {s : State} {d : OutDepth}
    (hd : s.build.outDepth = some d) (hfits : s.eng.out.length ≤ d.entries)
    (hroom : ¬ RoomFor s bytes.length) :
    pushAll bytes c s = { s with eng := { s.eng with
      out := s.eng.out ++ bytes.take (d.entries - s.eng.out.length)
      inflight := some { rest := bytes.drop (d.entries - s.eng.out.length), closing := c } } } ∧
    (pushAll bytes c s).eng.out.length = d.entries := by
  rcases pushAll_cases bytes c s with hall | ⟨done, rest, d', rfl, -, hd', hle, hfull, hwait⟩
  · have hlen := pushAll_outFits (bytes := bytes) (c := c) hd hfits
    rw [hall] at hlen
    exact absurd (roomFor_some hd (by simpa using hlen)) hroom
  · obtain rfl : d' = d := Option.some.inj (hd'.symm.trans hd)
    have hfilled : (s.eng.out ++ done).length = d'.entries := by
      rcases hfull with rfl | hfull
      · exact le_antisymm (by simpa using hfits) hle
      · exact hfull
    have hdone : done.length = d'.entries - s.eng.out.length := by
      rw [List.length_append] at hfilled
      omega
    rw [hwait, ← hdone, List.take_left, List.drop_left]
    exact ⟨rfl, hfilled⟩

/-- The bytes of EMIT_HEADER in CODES: line 2 by the grammar, or the one-element list (R141, R142). -/
theorem treeText_codes {s : State} (hinv : Inv s) (hp : s.eng.phase = .codes) :
    ∃ text, treeText s.eng = .ok text ∧
      (s.eng.single = false → SerText s.eng.nodes s.eng.root text) ∧
      (s.eng.single = true → ∃ x, s.eng.freqOf x ≠ 0#32 ∧ text = [0x28#8, x, 0x29#8]) := by
  obtain ⟨hb, -⟩ := inv_coded hinv (.inl hp)
  obtain ⟨t, x, ht, hroot, hrep, hperm, -, hsingle⟩ := built_tree hb hinv.counted
  refine ⟨_, treeText_built hb hinv.counted ht, fun hs => ?_, fun hs => ?_⟩
  · cases t with
    | leaf y c => simp [hs, HTree.leaves] at hsingle
    | node l r => exact hroot ▸ text_serText hrep
  · obtain ⟨y, c, rfl⟩ := leaf_of_one (hsingle.mp hs)
    exact ⟨y, (leaf_iff_present hperm y).mp (by simp [HTree.leaves]), rfl⟩

/-- Which policy flushes what (R7, R158). -/
theorem flushes_iff (p : FlushPolicy) (e : Engine) :
    (p = .pending → (flushes p e = true ↔ e.subIndex ≠ 0#3)) ∧
      (p = .nonzero → (flushes p e = true ↔ e.buf[0] ≠ 0#8)) := by
  cases p <;> simp [flushes]

/-- Settles O32: `pushAll_room` and `pushAll_full` say what pushing does, and each command is a push of
its own bytes with its own closing writes. -/
theorem pushWaitsOnFullOut : Obligations.PushWaitsOnFullOut := by
  refine ⟨fun bytes c s => ⟨fun hroom => ?room, fun d hd hfits hroom => ?full⟩,
    fun s hinv hp => ?emitHeader,
    fun sym s len bits filled hp hlen hne hcode hbits hfilled hbuf => ?pack,
    fun s hp he => ?finish⟩
  case room =>
    rw [pushAll_room hroom]
    exact ⟨rfl, by simp [Engine.busy], by simp⟩
  case full =>
    obtain ⟨hpush, hlen⟩ := pushAll_full (c := c) hd hfits hroom
    exact ⟨hpush, by rw [hpush]; rfl, hlen⟩
  case emitHeader =>
    obtain ⟨text, htext, hnode, hleaf⟩ := treeText_codes hinv hp
    exact ⟨text, hnode, hleaf, exec_emitHeader_push hp htext⟩
  case pack =>
    subst hlen hbits hfilled
    have hcoded : s.eng.codeLenOf sym ≠ 0#8 := fun h => hne (by rw [h]; rfl)
    have hlen := (s.eng.codeLenOf sym).isLt
    have hsub := s.eng.subIndex.isLt
    obtain ⟨htail, hfree⟩ := hbuf
    obtain ⟨hpush, -, hcount⟩ := exec_pack_push hp hcoded ⟨htail, hfree⟩
    obtain ⟨-, hclear, -⟩ := packBits_shape (code := (s.eng.codeOf sym).toNat) hsub
      (Nat.le_of_lt_succ hlen) htail hfree
    refine ⟨_, hpush, hcount, packBits_bits hsub (Nat.le_of_lt_succ hlen) hcode htail hfree, ?_⟩
    have hpending : (s.eng.subIndex.toNat + (s.eng.codeLenOf sym).toNat) % 8 < 2 ^ 3 :=
      Nat.mod_lt _ (by decide)
    rw [FreeBitsClear, ofNat_toNat_lt hpending]
    exact hclear
  case finish =>
    obtain ⟨hpending, hnonzero⟩ := flushes_iff s.build.flushPolicy s.eng
    exact ⟨flushes s.build.flushPolicy s.eng, hpending, hnonzero, exec_finish_push hp he⟩

end Sys2Proof.Machine

/-! The command words (R80 to R85, R91): a word decodes to a command exactly when its three fields are
that command's. -/

namespace Sys2Proof

/-! ### A command's fields -/

/-- A word with the fields of a command is that command's word (R80). -/
theorem eq_encode_of_fields {w : Word} {i : Instr} (hrsv : CommandWord.rsv w = 0#16)
    (hop : CommandWord.op w = opcode i) (hsym : CommandWord.sym w = operand i) : w = encode i := by
  calc w = CommandWord.op w ++ (CommandWord.rsv w ++ CommandWord.sym w) := word_fields w
    _ = encode i := by rw [hop, hrsv, hsym, encode]

theorem decode_encode (i : Instr) : decode (encode i) = .cmd i := by
  cases i <;> simp [decode, rsv_encode, op_encode, sym_encode, opcode, operand, decodeBare]

theorem decodeBare_eq_cmd {i j : Instr} {sym : Byte} (h : decodeBare j sym = .cmd i) :
    i = j ∧ sym = 0#8 := by
  unfold decodeBare at h
  split at h
  · next hsym => exact ⟨by simpa using h.symm, hsym⟩
  · simp at h

/-- What `decode` has checked of a word that it takes for a command (R84). -/
theorem fields_of_decode {w : Word} {i : Instr} (h : decode w = .cmd i) :
    CommandWord.rsv w = 0#16 ∧ CommandWord.op w = opcode i ∧ CommandWord.sym w = operand i := by
  unfold decode at h
  split at h
  · simp at h
  · next hrsv =>
    refine ⟨by simpa using hrsv, ?_⟩
    have op_eq {n : Nat} (hn : n < 2 ^ 8) (hop : (CommandWord.op w).toNat = n) :
        CommandWord.op w = BitVec.ofNat 8 n :=
      BitVec.eq_of_toNat_eq (hop.trans (Machine.ofNat_toNat_lt hn).symm)
    split at h
    -- FREQ_INC and PACK take the field `sym` as it is; the other opcodes check it.
    case h_3 hop =>
      obtain rfl : .freqInc (CommandWord.sym w) = i := by simpa using h
      exact ⟨op_eq (by decide) hop, rfl⟩
    case h_7 hop =>
      obtain rfl : .pack (CommandWord.sym w) = i := by simpa using h
      exact ⟨op_eq (by decide) hop, rfl⟩
    case h_9 => simp at h
    all_goals
      next hop =>
      obtain ⟨rfl, hsym⟩ := decodeBare_eq_cmd h
      exact ⟨op_eq (by decide) hop, hsym⟩

/-- Settles O1: a decoded word has its command's fields, so it is that command's word, which decodes
back. -/
theorem decodeAndEncodeAgree : Obligations.DecodeAndEncodeAgree := by
  intro w i
  constructor
  · intro h
    obtain ⟨hrsv, hop, hsym⟩ := fields_of_decode h
    exact eq_encode_of_fields hrsv hop hsym
  · rintro rfl
    exact decode_encode i

/-- Each opcode below 8 is a command's, and its command can have the operand 0 (R83). -/
theorem exists_opcode {o : BitVec 8} (h : o.toNat < 8) : ∃ i, o = opcode i ∧ operand i = 0#8 := by
  have hmap : ∀ o : BitVec 8, o.toNat < 8 → ∃ i ∈ [Instr.nop, .clear, .freqInc 0#8, .buildTree,
      .buildCodes, .emitHeader, .pack 0#8, .finish], o = opcode i ∧ operand i = 0#8 := by decide
  obtain ⟨i, -, hi⟩ := hmap o h
  exact ⟨i, hi⟩

/-- The opcodes and operands of the commands: an opcode below 8, and a symbol only on FREQ_INC and PACK
(R81, R83). -/
theorem exists_opcode_operand_iff (o : BitVec 8) (y : Byte) :
    (∃ i, o = opcode i ∧ y = operand i) ↔
      o.toNat < 8 ∧ (y = 0#8 ∨ o = 0x02#8 ∨ o = 0x06#8) := by
  constructor
  · rintro ⟨i, rfl, rfl⟩
    cases i <;> simp [opcode, operand]
  · rintro ⟨hlt, rfl | rfl | rfl⟩
    · obtain ⟨i, hop, hsym⟩ := exists_opcode hlt
      exact ⟨i, hop, hsym.symm⟩
    · exact ⟨.freqInc y, rfl, rfl⟩
    · exact ⟨.pack y, rfl, rfl⟩

/-- A word is legal exactly when its three fields pass the checks of R85. -/
theorem exists_cmd_iff (w : Word) :
    (∃ i, decode w = .cmd i) ↔ CommandWord.rsv w = 0#16 ∧ (CommandWord.op w).toNat < 8 ∧
      (CommandWord.sym w = 0#8 ∨ CommandWord.op w = 0x02#8 ∨ CommandWord.op w = 0x06#8) := by
  rw [← exists_opcode_operand_iff]
  constructor
  · rintro ⟨i, hi⟩
    obtain ⟨hrsv, hop, hsym⟩ := fields_of_decode hi
    exact ⟨hrsv, i, hop, hsym⟩
  · rintro ⟨hrsv, i, hop, hsym⟩
    exact ⟨i, (decodeAndEncodeAgree w i).mpr (eq_encode_of_fields hrsv hop hsym)⟩

/-- `decode` answers one of the two (R84). -/
theorem exists_illegal_iff (w : Word) :
    (∃ why, decode w = .illegal why) ↔ ¬ ∃ i, decode w = .cmd i := by
  cases decode w <;> simp

theorem ne_cmd_of_illegal {w : Word} {why : Illegal} (h : decode w = .illegal why) (i : Instr) :
    decode w ≠ .cmd i := by simp [h]

/-- Settles O2: an illegal word fails one of the three checks of `exists_cmd_iff`, and executing it is
`illegalWord`. -/
theorem illegalWordsRaise : Obligations.IllegalWordsRaise := by
  refine fun w => ⟨?kinds, fun ⟨why, hw⟩ s => ⟨fun hne => ?raises, fun he => ?ignored⟩⟩
  case kinds =>
    rw [exists_illegal_iff, exists_cmd_iff, CommandWord.op, CommandWord.rsv, CommandWord.sym]
    by_cases hrsv : w.extractLsb' 8 16 = 0#16 <;> simp [hrsv, imp_iff_not_or]
  case raises => exact (Machine.execWord_illegal hw s).trans (Machine.illegalWord_raises hne)
  case ignored => exact (Machine.execWord_illegal hw s).trans (Machine.illegalWord_ignored he)

/-- Settles O3, on the twelve words. -/
theorem encodingExamples : Obligations.EncodingExamples := by
  refine ⟨by decide, by decide, by decide, by decide, by decide, by decide, by decide, by decide,
    by decide, ?_⟩
  simp only [List.forall_mem_cons]
  have hopcode : decode 0x08000000#32 = .illegal .unknownOpcode := by decide
  have hreserved : decode 0x02000161#32 = .illegal .reservedField := by decide
  have hoperand : decode 0x07000001#32 = .illegal .operandNotZero := by decide
  exact ⟨ne_cmd_of_illegal hopcode, ne_cmd_of_illegal hreserved, ne_cmd_of_illegal hoperand,
    by simp⟩

/-- Settles O4: bit `k` of the word is bit `k - 8` of the field `rsv`, which is 0 in a command. -/
theorem reservedBitsAreIllegal : Obligations.ReservedBitsAreIllegal := by
  rintro w ⟨k, hlow, hhigh, hbit⟩ i hi
  obtain ⟨hrsv, -, -⟩ := fields_of_decode hi
  have hfield : (CommandWord.rsv w).getLsbD (k - 8) = true := by
    rw [CommandWord.rsv, BitVec.getLsbD_extractLsb', Nat.add_sub_cancel' hlow, hbit]
    simp
    omega
  simp [hrsv] at hfield

/-- The field `sym` as a number (R81). -/
theorem sym_toNat (w : Word) : (CommandWord.sym w).toNat = w.toNat % 256 := by
  simp [CommandWord.sym]

/-- Settles O5: the low byte is the field `sym`, which `decode` found to be the command's operand. -/
theorem operandIsLowByte : Obligations.OperandIsLowByte := by
  intro w i hi
  obtain ⟨-, -, hsym⟩ := fields_of_decode hi
  rw [← sym_toNat, hsym]
  refine ⟨fun sym hsym => ?carried, fun hbare => ?bare⟩
  case carried => rcases hsym with rfl | rfl <;> rfl
  case bare =>
    cases i with
    | freqInc sym => exact absurd rfl (hbare sym).1
    | pack sym => exact absurd rfl (hbare sym).2
    | nop | clear | buildTree | buildCodes | emitHeader | finish => rfl

end Sys2Proof

/-! The phases in which a command is legal (R88), the step that never stops (R57, R216), and the text
forms (R89, R90). -/

namespace Sys2Proof.Machine

/-! ### The table of R88, row by row -/

@[simp] theorem legalIn_nop (p : Phase) : legalIn .nop p = decide (p ≠ .error) := by
  cases p <;> rfl
@[simp] theorem legalIn_clear (p : Phase) : legalIn .clear p = true := by
  cases p <;> rfl
@[simp] theorem legalIn_freqInc (sym : Byte) (p : Phase) :
    legalIn (.freqInc sym) p = decide (p = .count) := by
  cases p <;> rfl
@[simp] theorem legalIn_buildTree (p : Phase) : legalIn .buildTree p = decide (p = .count) := by
  cases p <;> rfl
@[simp] theorem legalIn_buildCodes (p : Phase) : legalIn .buildCodes p = decide (p = .tree) := by
  cases p <;> rfl
@[simp] theorem legalIn_emitHeader (p : Phase) : legalIn .emitHeader p = decide (p = .codes) := by
  cases p <;> rfl
@[simp] theorem legalIn_pack (sym : Byte) (p : Phase) :
    legalIn (.pack sym) p = decide (p = .pack) := by
  cases p <;> rfl
@[simp] theorem legalIn_finish (p : Phase) : legalIn .finish p = decide (p = .pack) := by
  cases p <;> rfl

/-! ### A command in ERROR, in a phase that does not allow it, and in one that does -/

/-- In ERROR every command but CLEAR is ignored (R187). -/
theorem exec_error {i : Instr} {s : State} (h : s.eng.phase = .error) (hi : i ≠ .clear) :
    exec i s = .next s := by
  cases i with
  | nop => rfl
  | clear => exact absurd rfl hi
  | freqInc _ | buildTree | buildCodes | emitHeader | pack _ | finish => exact inPhase_error h

/-- Outside ERROR, in a phase that does not allow it, a command is a SEQUENCE_ERROR (R88, R184). -/
theorem exec_sequence {i : Instr} {s : State} (h : s.eng.phase ≠ .error)
    (hl : legalIn i s.eng.phase = false) :
    exec i s = .next (raiseError .sequenceError (encode i) s) := by
  cases i with
  | nop => simp [h] at hl
  | clear => simp at hl
  | freqInc _ | buildTree | buildCodes | emitHeader | pack _ | finish =>
    exact inPhase_sequence h (by simpa using hl)

/-- The command raises an error of its own list, other than SEQUENCE_ERROR (R182). -/
def RaisesOwn (i : Instr) (s t : State) : Prop :=
  ∃ c ∈ errorsOf i, c ≠ .sequenceError ∧ t = raiseError c (encode i) s

/-- The command is executed without an error: it keeps ERR_CODE, or starts a fresh run (R172). -/
def NoError (s t : State) : Prop :=
  t.eng.phase ≠ .error ∧ (t.eng.errCode = s.eng.errCode ∨ t.eng = Engine.reset)

theorem noError_pushAll {bytes : List Byte} {c : Closing} {s u : State} (h : s.eng.phase ≠ .error)
    (hp : u.eng.phase = s.eng.phase) (he : u.eng.errCode = s.eng.errCode) :
    NoError s (pushAll bytes c u) :=
  ⟨pushAll_phase_ne bytes c (hp ▸ h), .inl ((pushAll_errCode bytes c u).trans he)⟩

/-- Everything a command can do in a phase that allows it: an error of its own, or its effect. -/
theorem exec_legal_cases {i : Instr} {s t : State} (h : s.eng.phase ≠ .error)
    (hl : legalIn i s.eng.phase = true) (ht : exec i s = .next t) :
    RaisesOwn i s t ∨ NoError s t := by
  cases i with
  | nop =>
    obtain rfl : s = t := by simpa [exec, execNop] using ht
    exact .inr ⟨h, .inl rfl⟩
  | clear =>
    obtain rfl : clearEngine s = t := by simpa [exec, execClear] using ht
    exact .inr ⟨by simp, .inr rfl⟩
  | freqInc sym =>
    rw [exec, execFreqInc, inPhase_ok (by simpa using hl) (by simp)] at ht
    split at ht <;> cases ht
    · exact .inl ⟨.countOverflow, by simp [errorsOf], by simp, rfl⟩
    · exact .inr ⟨h, .inl rfl⟩
  | buildTree =>
    rw [exec, execBuildTree, inPhase_ok (by simpa using hl) (by simp)] at ht
    split at ht
    · cases ht
      exact .inl ⟨.emptyInput, by simp [errorsOf], by simp, rfl⟩
    · simp only at ht
      split at ht <;> cases ht
      exact .inr ⟨by simp [plantTree], .inl rfl⟩
  | buildCodes =>
    rw [exec, execBuildCodes, inPhase_ok (by simpa using hl) (by simp)] at ht
    split at ht <;> cases ht
    exact .inr ⟨by simp [writeCodes], .inl rfl⟩
  | emitHeader =>
    rw [exec, execEmitHeader, inPhase_ok (by simpa using hl) (by simp)] at ht
    split at ht <;> cases ht
    exact .inr (noError_pushAll h rfl rfl)
  | pack sym =>
    rw [exec, execPack, inPhase_ok (by simpa using hl) (by simp)] at ht
    simp only at ht
    split at ht <;> cases ht
    · exact .inl ⟨.noCode, by simp [errorsOf], by simp, rfl⟩
    · exact .inr (noError_pushAll h rfl rfl)
  | finish =>
    rw [exec, execFinish, inPhase_ok (by simpa using hl) (by simp)] at ht
    split at ht
    · cases ht
      exact .inl ⟨.lengthMismatch, by simp [errorsOf], by simp, rfl⟩
    · split at ht <;> cases ht <;> exact .inr (noError_pushAll h rfl rfl)

theorem NoError.errCode_ne {s t : State} {c : ErrCode} (h : NoError s t) (hs : s.eng.errCode ≠ c)
    (hc : c ≠ .none) : t.eng.errCode ≠ c := by
  obtain ⟨-, hkept | hreset⟩ := h
  · rwa [hkept]
  · rw [hreset]
    exact hc.symm

/-- Settles O6: each row of R88 is the phase check of its command, and a command that passes it raises
only errors of its own. -/
theorem phaseLegalityTable : Obligations.PhaseLegalityTable := by
  refine fun i s => ⟨exec_error, exec_sequence, fun hne herr hl t ht => ?legal,
    fun w why hw hne => ?illegal⟩
  case legal =>
    rcases exec_legal_cases hne hl ht with ⟨c, -, hc, rfl⟩ | hdone
    · exact hc
    · exact hdone.errCode_ne herr (by simp)
  case illegal => exact ⟨_, (execWord_illegal hw s).trans (illegalWord_raises hne), rfl⟩

/-! ### No step stops -/

/-- In a phase that allows it, a command of an engine that meets the invariant has a next state: its
queue is not empty (R120), and its tree is a tree (R118). -/
theorem exec_legal_answers {i : Instr} {s : State} (h : Inv s)
    (hl : legalIn i s.eng.phase = true) : ∃ t, exec i s = .next t := by
  cases i with
  | nop | clear => exact ⟨_, rfl⟩
  | freqInc sym =>
    rw [exec, execFreqInc, inPhase_ok (by simpa using hl) (by simp)]
    split <;> exact ⟨_, rfl⟩
  | buildTree =>
    have hp : s.eng.phase = .count := by simpa using hl
    by_cases hn : s.eng.nsym = 0#9
    · exact ⟨_, (inPhase_ok hp (by simp)).trans (if_pos hn)⟩
    · obtain ⟨x, hx, -⟩ := exec_buildTree_ok h hp hn
      exact ⟨_, hx⟩
  | buildCodes =>
    obtain ⟨-, tab, -, htab, -⟩ := exec_buildCodes_ok h (by simpa using hl)
    exact ⟨_, htab⟩
  | emitHeader =>
    have hp : s.eng.phase = .codes := by simpa using hl
    obtain ⟨text, htext, -⟩ := treeText_codes h hp
    exact ⟨_, exec_emitHeader_push hp htext⟩
  | pack sym =>
    rw [exec, execPack, inPhase_ok (by simpa using hl) (by simp)]
    simp only
    split <;> exact ⟨_, rfl⟩
  | finish =>
    rw [exec, execFinish, inPhase_ok (by simpa using hl) (by simp)]
    split
    · exact ⟨_, rfl⟩
    · split <;> exact ⟨_, rfl⟩

/-- In any phase: outside those that allow it a command is ignored or a SEQUENCE_ERROR (R88). -/
theorem exec_answers {s : State} (h : Inv s) (i : Instr) : ∃ t, exec i s = .next t := by
  cases hl : legalIn i s.eng.phase with
  | true => exact exec_legal_answers h hl
  | false =>
    by_cases he : s.eng.phase = .error
    · exact ⟨s, exec_error he (by rintro rfl; simp at hl)⟩
    · exact ⟨_, exec_sequence he hl⟩

theorem execWord_answers {s : State} (h : Inv s) (w : Word) : ∃ t, execWord w s = .next t := by
  cases hd : decode w with
  | cmd i => exact execWord_cmd hd s ▸ exec_answers h i
  | illegal why =>
    rw [execWord_illegal hd, illegalWord]
    split <;> exact ⟨_, rfl⟩

theorem engineTurn_answers {s : State} (h : Inv s) : ∃ t, engineTurn s = .next t := by
  unfold engineTurn
  split
  · exact ⟨_, rfl⟩
  · split
    · exact ⟨_, rfl⟩
    · split
      · exact ⟨_, rfl⟩
      · next w rest _ =>
        have hinv : Inv (acceptWord rest s) := inv_withHost h (fun _ => rfl) h.resetHolds
        exact execWord_answers hinv w

theorem move_answers {s : State} (h : Inv s) (ev : Event) : ∃ t, move ev s = .next t := by
  cases ev with
  | engine => exact engineTurn_answers h
  | offer _ | read _ | take | resetLow | resetHigh => exact ⟨_, rfl⟩

/-- Settles O58: the state at the step's own turn meets the invariant too, and no move stops there. -/
theorem stepNeverStops : Obligations.StepNeverStops := by
  intro s h
  have hturn : Inv s.atTurn := inv_withHost (inv_nextDraw h) h.busyUnseen h.resetHolds
  cases hev : s.host.events with
  | nil => exact step_eq_engineTurn (.inr hev) ▸ engineTurn_answers hturn
  | cons ev rest => exact step_eq_move hev ▸ move_answers hturn ev

/-! ### The assembler and the pseudo-commands -/

/-- A command line gives its command's word (R89). -/
theorem assemble_cmd {line : List Char} {rest : List (List Char)} {i : Instr} {ws : List Word}
    (h : parseLine line = .ok (some i)) (hrest : assemble rest = .ok ws) :
    assemble (line :: rest) = .ok (encode i :: ws) := by
  simp [assemble, h, hrest]

/-- A comment line gives nothing (R89). -/
theorem assemble_comment {line : List Char} {rest : List (List Char)}
    (h : parseLine line = .ok none) : assemble (line :: rest) = assemble rest := by
  simp [assemble, h]

/-- Settles O59, line by line. -/
theorem assemblerExamples : Obligations.AssemblerExamples := by
  have hquoted : parseLine "FREQ_INC 'a'".toList = .ok (some (.freqInc 0x61#8)) := by decide
  have hhex : parseLine "PACK 0xFF".toList = .ok (some (.pack 0xFF#8)) := by decide
  have hdecimal : parseLine "FREQ_INC 97 ; one".toList = .ok (some (.freqInc 0x61#8)) := by decide
  have hcomment : parseLine "; none".toList = .ok none := by decide
  have hbare : parseLine "FINISH".toList = .ok (some .finish) := by decide
  refine ⟨assemble_cmd hquoted (assemble_cmd hhex rfl), assemble_cmd hdecimal ?_⟩
  exact (assemble_comment hcomment).trans (assemble_cmd hbare rfl)

/-- Settles O60: the expansions are their definitions, and the length counts `str` twice. -/
theorem compressExpands : Obligations.CompressExpands := by
  intro str
  have hexpand : compress str = .clear :: (str.map .freqInc ++
      .buildTree :: .buildCodes :: .emitHeader :: (str.map .pack ++ [.finish])) := by
    simp [compress, countString, packString]
  refine ⟨rfl, rfl, hexpand, ?_⟩
  rw [hexpand]
  simp
  omega

end Sys2Proof.Machine

/-! FREQ_INC as one equation for each outcome (R100, R102), the refusal of an empty input (R103), and
what FREQ_INC, BUILD_TREE and BUILD_CODES leave unchanged. -/

namespace Sys2Proof.Machine

/-! ### FREQ_INC -/

/-- In COUNT, below the largest count, FREQ_INC makes its writes (R100). -/
theorem exec_freqInc_counts {sym : Byte} {s : State} (hp : s.eng.phase = .count)
    (ht : s.eng.totalCount.toNat ≠ 2 ^ 32 - 1) :
    exec (.freqInc sym) s = .next (s.withEng (countSymbol s.draw sym s.eng)) := by
  rw [exec, execFreqInc, inPhase_ok hp (by simp), if_neg ht]

/-- In COUNT, at the largest count, FREQ_INC raises COUNT_OVERFLOW (R102). -/
theorem exec_freqInc_overflow {sym : Byte} {s : State} (hp : s.eng.phase = .count)
    (ht : s.eng.totalCount.toNat = 2 ^ 32 - 1) :
    exec (.freqInc sym) s = .next (raiseError .countOverflow (encode (.freqInc sym)) s) := by
  rw [exec, execFreqInc, inPhase_ok hp (by simp), if_pos ht]

theorem countSymbol_freqOf_of_ne {draw : Nat} {sym x : Byte} {e : Engine} (h : x ≠ sym) :
    (countSymbol draw sym e).freqOf x = e.freqOf x :=
  (symAt_setSym ..).trans (if_neg h)

/-- Settles O14: one lemma per outcome, and `counted_countSymbol` says what the writes do to the
counts. -/
theorem freqIncCounts : Obligations.FreqIncCounts := by
  refine fun sym s => ⟨fun hp hc ht => ?counts, exec_freqInc_overflow,
    fun hn he => exec_sequence he (by simpa using hn)⟩
  case counts =>
    have hne := ht.ne
    obtain ⟨hcounted, hfreq, htotal, hnsym⟩ := counted_countSymbol hc s.draw sym hne
    exact ⟨_, exec_freqInc_counts hp hne, hfreq, htotal, hnsym, hp, rfl, hcounted⟩

/-! ### BUILD_TREE with nothing counted -/

/-- In COUNT with nothing counted, BUILD_TREE raises EMPTY_INPUT (R103, R115). -/
theorem exec_buildTree_empty {s : State} (hp : s.eng.phase = .count) (hn : s.eng.nsym = 0#9) :
    exec .buildTree s = .next (raiseError .emptyInput (encode .buildTree) s) := by
  rw [exec, execBuildTree, inPhase_ok hp (by simp), if_pos hn]

/-- Settles O19: the recorded word is BUILD_TREE's encoding. -/
theorem emptyInputIsRefused : Obligations.EmptyInputIsRefused := by
  intro s hp hn
  have hword : encode .buildTree = 0x03000000#32 := by decide
  rw [exec_buildTree_empty hp hn, hword]
  rfl

/-! ### Frames -/

/-- The command is ignored, or its only writes are those of an error's entry (R185, R187). -/
def Unexecuted (i : Instr) (s t : State) : Prop :=
  t = s ∨ ∃ c, t = raiseError c (encode i) s

/-- A command that answers is not executed, or its body answers. -/
theorem inPhase_unexecuted_or {need : Phase} {i : Instr} {s t : State}
    {body : Host.Outcome State Fault Refusal} (h : inPhase need i s body = .next t) :
    Unexecuted i s t ∨ body = .next t := by
  rcases inPhase_next h with ⟨-, hs⟩ | ⟨-, -, hraise⟩ | ⟨-, -, hbody⟩
  · exact .inl (.inl hs)
  · exact .inl (.inr ⟨_, hraise⟩)
  · exact .inr hbody

theorem exec_freqInc_writes {sym : Byte} {s t : State} (h : exec (.freqInc sym) s = .next t) :
    Unexecuted (.freqInc sym) s t ∨ t = s.withEng (countSymbol s.draw sym s.eng) := by
  refine (inPhase_unexecuted_or h).elim .inl fun hbody => ?_
  split at hbody <;> cases hbody
  · exact .inl (.inr ⟨_, rfl⟩)
  · exact .inr rfl

theorem exec_buildTree_writes {s t : State} (h : exec .buildTree s = .next t) :
    Unexecuted .buildTree s t ∨ ∃ f x, t = s.withEng (plantTree f x s.eng) := by
  refine (inPhase_unexecuted_or h).elim .inl fun hbody => ?_
  split at hbody
  · cases hbody
    exact .inl (.inr ⟨_, rfl⟩)
  · simp only at hbody
    split at hbody <;> cases hbody
    exact .inr ⟨_, _, rfl⟩

theorem exec_buildCodes_writes {s t : State} (h : exec .buildCodes s = .next t) :
    Unexecuted .buildCodes s t ∨ ∃ table, t = s.withEng (writeCodes table s.eng) := by
  refine (inPhase_unexecuted_or h).elim .inl fun hbody => ?_
  split at hbody <;> cases hbody
  exact .inr ⟨_, rfl⟩

/-- Settles O41: a command writes the error registers and PHASE alone, or makes its own writes. -/
theorem tableCommandFrames : Obligations.TableCommandFrames := by
  refine ⟨fun sym s t h => ?freqInc, fun s t h => ?buildTree, fun s t h => ?buildCodes⟩
  case freqInc =>
    rcases exec_freqInc_writes h with (rfl | ⟨c, rfl⟩) | rfl
    · exact ⟨rfl, fun _ _ => rfl⟩
    · exact ⟨rfl, fun _ _ => rfl⟩
    · exact ⟨rfl, fun _ => countSymbol_freqOf_of_ne⟩
  case buildTree =>
    rcases exec_buildTree_writes h with (rfl | ⟨c, rfl⟩) | ⟨f, x, rfl⟩ <;> rfl
  case buildCodes =>
    rcases exec_buildCodes_writes h with (rfl | ⟨c, rfl⟩) | ⟨table, rfl⟩ <;> rfl

end Sys2Proof.Machine

/-! The queue, the merge loop and the tree that BUILD_TREE leaves (R110 to R120). -/

namespace Sys2Proof.Machine

/-! ### The queue -/

/-- Settles O15, by induction over the queue: the insert stops at the first strictly heavier entry,
or at the end. -/
theorem queueInsertPlaces : Obligations.QueueInsertPlaces := by
  intro nodes x q
  induction q with
  | nil => exact ⟨0, by simp [qInsert]⟩
  | cons y ys ih =>
    by_cases hlt : weightOf nodes x < weightOf nodes y
    · exact ⟨0, by simp [qInsert, hlt]⟩
    · obtain ⟨j, hj, heq, hbefore, hat⟩ := ih
      exact ⟨j + 1, by simpa using hj, by simp [qInsert, hlt, heq],
        by simpa using ⟨Nat.le_of_not_lt hlt, hbefore⟩, by simpa using hat⟩

/-- The queue's order (R110): non-decreasing weight. -/
def Ordered (nodes : Vector Node 511) (q : List NodeIx) : Prop :=
  q.Pairwise fun a b => weightOf nodes a ≤ weightOf nodes b

/-- The head of an ordered queue is a least entry (R110, R113). -/
theorem Ordered.head_le {nodes : Vector Node 511} {y z : NodeIx} {rest : List NodeIx}
    (h : Ordered nodes (y :: rest)) (hz : z ∈ y :: rest) : weightOf nodes y ≤ weightOf nodes z := by
  obtain ⟨hhead, -⟩ := List.pairwise_cons.mp h
  rcases List.mem_cons.mp hz with rfl | hz
  · exact le_rfl
  · exact hhead z hz

/-- The insert keeps the order (R110, R111): the entries before the split weigh at most the node, and
as the entry at the split is heavier, so are all entries after it. -/
theorem ordered_qInsert {nodes : Vector Node 511} (x : NodeIx) {q : List NodeIx}
    (h : Ordered nodes q) : Ordered nodes (qInsert nodes x q) := by
  obtain ⟨j, -, heq, hbefore, hat⟩ := queueInsertPlaces nodes x q
  have hsplit : Ordered nodes (q.take j ++ q.drop j) := by rwa [List.take_append_drop]
  obtain ⟨htake, hdrop, hcross⟩ := List.pairwise_append.mp hsplit
  have hafter : ∀ y ∈ q.drop j, weightOf nodes x ≤ weightOf nodes y := by
    rw [← List.head?_drop] at hat
    cases htail : q.drop j with
    | nil => simp
    | cons z zs =>
      rw [htail] at hat hdrop
      exact fun y hy => (hat z rfl).le.trans (Ordered.head_le hdrop hy)
  rw [heq, List.append_assoc]
  refine List.pairwise_append.mpr
    ⟨htake, List.pairwise_cons.mpr ⟨hafter, hdrop⟩, fun a ha b hb => ?_⟩
  rcases List.mem_cons.mp hb with rfl | hb
  · exact hbefore a ha
  · exact hcross a ha b hb

/-- Settles O16: the insert keeps the order, so the head it leaves is least among the node and the
old entries, which are what the queue holds now. -/
theorem queueStaysOrdered : Obligations.QueueStaysOrdered := by
  intro nodes x q h
  have hordered : Ordered nodes (qInsert nodes x q) := ordered_qInsert x h
  refine ⟨hordered, fun y rest hy => ?_⟩
  have hperm := qInsert_perm nodes x q
  cases hq : qInsert nodes x q with
  | nil => exact absurd hq (qInsert_ne_nil nodes x q)
  | cons z zs =>
    rw [hq] at hy hordered hperm
    obtain ⟨rfl, rfl⟩ : z = y ∧ zs = rest := by simpa [qRemoveMin] using hy
    have hleast : ∀ v ∈ x :: q, weightOf nodes z ≤ weightOf nodes v :=
      fun v hv => hordered.head_le (hperm.mem_iff.mpr hv)
    exact ⟨rfl, hleast x (by simp), fun v hv => hleast v (by simp [hv])⟩

/-! ### The merge loop -/

/-- With a free entry, `add` writes it and inserts its index (R115). -/
theorem Forge.add_of_lt {f : Forge} (n : Node) (hk : f.k < 511) :
    f.add n = { nodes := f.nodes.set f.k n, q := qInsert (f.nodes.set f.k n) ⟨f.k, hk⟩ f.q,
                k := f.k + 1 } := by
  simp [Forge.add, hk]

/-- With two entries in the queue, a pass merges them (R115). -/
theorem mergeLoop_cons_cons {draw passes : Nat} {f : Forge} {a b : NodeIx} {rest : List NodeIx}
    (hq : f.q = a :: b :: rest) :
    mergeLoop draw (passes + 1) f =
      mergeLoop draw passes ({ f with q := rest }.add (mergedNode draw f.nodes a b)) := by
  simp [mergeLoop, hq, qRemoveMin]

/-- Settles O17: the pass writes `mergedNode` at entry `k`, and its sum fits. -/
theorem mergeTakesFirstAsLeft : Obligations.MergeTakesFirstAsLeft := by
  intro draw passes f a b rest hk hq hsum
  refine ⟨f.nodes.set f.k (mergedNode draw f.nodes a b), ?pass,
    fun i h hne => Vector.getElem_set_ne hk h hne.symm, ?node⟩
  case pass => rw [mergeLoop_cons_cons hq, Forge.add_of_lt (f := { f with q := rest }) _ hk]
  case node =>
    rw [Vector.getElem_set_self]
    exact ⟨rfl, rfl, rfl, ofNat9_toNat a, ofNat9_toNat b, narrow_toNat hsum⟩

/-- Settles O18: one tree is left of the forest that the loop merges (`forgeTree_one`). -/
theorem mergeLoopLeavesOne : Obligations.MergeLoopLeavesOne := by
  intro draw freq hne hsum
  obtain ⟨t, x, -, hq, -, hk, -⟩ := forgeTree_one draw hsum hne
  have hpos : 0 < (presentSymbols freq).length := List.length_pos_iff.mpr hne
  exact ⟨by rw [hq]; rfl, by omega⟩

/-! ### The built tree -/

/-- The first entries are the leaves, in ascending symbol order (R114, R118). -/
theorem built_leaf {e : Engine} (hb : BuiltFrom e) (hc : Counted e) {i : Nat} (h : i < 511)
    (hi : i < e.nsym.toNat) :
    ∃ s, (presentSymbols e.freq)[i]? = some s ∧ e.nodes[i] = leafNode s (e.freqOf s) := by
  rw [hc.nsym] at hi
  obtain ⟨draw, x, t, g, -, hnodes, -⟩ := grove_of_built hb hc
  simp only [hnodes]
  exact ⟨(presentSymbols e.freq)[i], List.getElem?_eq_getElem hi, g.leafs i hi h⟩

/-- The entries after the leaves are the merges: internal, over earlier nodes, with the sum of their
weights, which is at most TOTAL_COUNT (R118, R119). -/
theorem built_inner {e : Engine} (hb : BuiltFrom e) (hc : Counted e) {i : Nat} (h : i < 511)
    (hleaf : e.nsym.toNat ≤ i) (hused : i < 2 * e.nsym.toNat - 1) :
    e.nodes[i].internal = true ∧ ∃ a b : NodeIx,
      e.nodes[i].left = BitVec.ofNat 9 a.val ∧ e.nodes[i].right = BitVec.ofNat 9 b.val ∧
      a.val < i ∧ b.val < i ∧
      e.nodes[i].weight.toNat = weightOf e.nodes a + weightOf e.nodes b ∧
      e.nodes[i].weight.toNat ≤ e.totalCount.toNat := by
  obtain ⟨draw, x, t, g, -, hnodes, -, hk, -, -, hweight, -, -, hlen⟩ := grove_of_built hb hc
  obtain ⟨-, hinternal, a, b, hleft, hright, ha, hb', hsum, hbound⟩ :=
    g.inner i h (by omega) (by omega)
  have htotal : totalWeight [t] = e.totalCount.toNat := by simpa [totalWeight] using hweight
  simp only [hnodes]
  exact ⟨hinternal, a, b, hleft, hright, ha, hb', hsum, by omega⟩

/-- The entries after the tree are empty (R26, R118). -/
theorem built_fresh {e : Engine} (hb : BuiltFrom e) (hc : Counted e) {i : Nat} (h : i < 511)
    (hi : 2 * e.nsym.toNat - 1 ≤ i) : e.nodes[i] = Node.empty := by
  obtain ⟨draw, x, t, g, -, hnodes, -, hk, -⟩ := grove_of_built hb hc
  simp only [hnodes]
  exact g.fresh i h (hk ▸ hi)

theorem linksAt_of_lt {nodes : Vector Node 511} {i : Nat} (h : i < 511) :
    linksAt nodes i =
      if nodes[i].internal then [nodes[i].left.toNat, nodes[i].right.toNat] else [] := by
  rw [linksAt, Vector.getElem?_eq_getElem h]

/-- A child stands below its parent (R118). -/
theorem built_link_lt {e : Engine} (hb : BuiltFrom e) (hc : Counted e) {i j : Nat}
    (hi : i < 2 * e.nsym.toNat - 1) (hj : j ∈ linksAt e.nodes i) : j < i := by
  have h : i < 511 := by have := presentSymbols_length_le e.freq; have := hc.nsym; omega
  rw [linksAt_of_lt h] at hj
  by_cases hleaf : i < e.nsym.toNat
  · obtain ⟨s, -, hnode⟩ := built_leaf hb hc h hleaf
    simp [hnode, leafNode] at hj
  · obtain ⟨hinternal, a, b, hleft, hright, ha, hb', -⟩ := built_inner hb hc h (by omega) hi
    rw [if_pos hinternal, hleft, hright, ofNat9_toNat, ofNat9_toNat] at hj
    rcases List.mem_pair.mp hj with rfl | rfl
    · exact ha
    · exact hb'

/-- ROOT and the child links of the tree are its entries, each once (R118). -/
theorem built_links {e : Engine} (hb : BuiltFrom e) (hc : Counted e) :
    (e.root.toNat :: childLinks e.nodes (2 * e.nsym.toNat - 1)).Perm
      (List.range (2 * e.nsym.toNat - 1)) := by
  obtain ⟨draw, x, t, g, hq, hnodes, hroot, hk, -⟩ := grove_of_built hb hc
  rw [hroot, ofNat9_toNat, hnodes, ← hk]
  simpa [hq] using g.links

/-- ROOT is the last entry: no entry is above it, so none has it as a child (R118). -/
theorem built_root {e : Engine} (hb : BuiltFrom e) (hc : Counted e) :
    e.root.toNat = 2 * e.nsym.toNat - 2 := by
  have hpos : 1 ≤ e.nsym.toNat := by
    obtain ⟨_, _, _, -, -, -, -, -, -, -, -, hpos, -⟩ := grove_of_built hb hc
    exact hpos
  have hlast : 2 * e.nsym.toNat - 2 ∈ e.root.toNat :: childLinks e.nodes (2 * e.nsym.toNat - 1) :=
    (built_links hb hc).mem_iff.mpr (List.mem_range.mpr (by omega))
  rcases List.mem_cons.mp hlast with hroot | hchild
  · exact hroot.symm
  · obtain ⟨i, hi, hlink⟩ := List.mem_flatMap.mp hchild
    rw [List.mem_range] at hi
    have := built_link_lt hb hc hi hlink
    omega

/-! ### BUILD_TREE -/

/-- In COUNT with something counted, BUILD_TREE builds the tree of FREQ and completes in TREE; FREQ,
the counts and the error registers keep their values (R115, R118). -/
theorem exec_buildTree_built {s : State} (hinv : Inv s) (hp : s.eng.phase = .count)
    (hn : s.eng.nsym ≠ 0#9) :
    ∃ t, exec .buildTree s = .next t ∧ BuiltFrom t.eng ∧ Counted t.eng ∧ t.eng.phase = .tree ∧
      t.eng.freq = s.eng.freq ∧ t.eng.nsym = s.eng.nsym ∧ t.eng.totalCount = s.eng.totalCount ∧
      t.eng.errCode = s.eng.errCode ∧ t.eng.single = (s.eng.nsym == 1#9) := by
  obtain ⟨x, hexec, hb⟩ := exec_buildTree_ok hinv hp hn
  exact ⟨_, hexec, hb, ⟨hinv.counted.total, hinv.counted.nsym⟩, rfl, rfl, rfl, rfl, rfl, rfl⟩

/-- Settles O20: the items of R118, each by its lemma about the built tree. -/
theorem buildTreeGuarantees : Obligations.BuildTreeGuarantees := by
  intro s hinv hp hn
  obtain ⟨t, hexec, hb, hc, hphase, hfreq, hnsym, htotal, -⟩ := exec_buildTree_built hinv hp hn
  obtain ⟨hnnodes, hvalid, -, -, hweight⟩ := built_items hb hc
  simp only [Engine.freqOf, ← hfreq, ← hnsym, ← htotal]
  refine ⟨t, hexec, hphase, hnnodes, ?root, fun i h hi => ?leaf, fun i h hleaf hused => ?inner,
    fun i h => hnnodes ▸ hvalid i h, fun j hj => count_of_perm (built_links hb hc) j hj, hweight⟩
  case root =>
    rw [built_root hb hc]
    split
    · next hone => simp [hone]
    · rfl
  case leaf =>
    obtain ⟨sym, hsym, hnode⟩ := built_leaf hb hc h hi
    rw [hnode]
    exact ⟨rfl, hsym, rfl⟩
  case inner =>
    obtain ⟨hinternal, a, b, hleft, hright, ha, hb', hsum, -⟩ := built_inner hb hc h hleaf hused
    refine ⟨hinternal, t.eng.nodes[a], t.eng.nodes[b], ?_⟩
    rw [hleft, hright, nodeAt_ofNat, nodeAt_ofNat, ofNat9_toNat, ofNat9_toNat]
    exact ⟨rfl, rfl, ha, hb', hsum⟩

/-- Settles O21: the tree of one symbol is one leaf, which is ROOT and so weighs TOTAL_COUNT. -/
theorem singleSymbolTree : Obligations.SingleSymbolTree := by
  intro s hinv hp hone
  obtain ⟨t, hexec, hb, hc, -, hfreq, hnsym, htotal, herr, hsingle⟩ :=
    exec_buildTree_built hinv hp (by simp [hone])
  have hn : t.eng.nsym.toNat = 1 := by simp [hnsym, hone]
  obtain ⟨hnnodes, -, -, -, n, hat, hweight⟩ := built_items hb hc
  have hroot : t.eng.root = 0#9 := BitVec.eq_of_toNat_eq (by simp [built_root hb hc, hn])
  obtain ⟨sym, -, hnode⟩ := built_leaf hb hc (i := 0) (by omega) (by omega)
  obtain rfl : t.eng.nodes[0] = n := by simpa [hroot, nodeAt] using hat
  refine ⟨t, hexec, hroot, BitVec.eq_of_toNat_eq (by simp [hnnodes, hn]), by simp [hsingle, hone],
    herr.trans (inv_noError hinv (by simp [hp])), by rw [hnode]; rfl, by rw [hnode]; rfl, ?count,
    fun i h hi => built_fresh hb hc h (by omega)⟩
  case count =>
    rw [hnode] at hweight ⊢
    rw [Engine.freqOf, ← hfreq, ← htotal]
    exact hweight

/-! ### Weights -/

/-- A symbol's count is at most the sum of FREQ. -/
theorem symAt_le_countSum (freq : Vector (BitVec 32) 256) (s : Byte) :
    (symAt freq s).toNat ≤ countSum freq :=
  List.le_sum_of_mem (List.mem_map_of_mem (mem_symbols s))

/-- Settles O22: the store is empty, or each of its entries is a leaf, a merge or empty. -/
theorem weightsNeverOverflow : Obligations.WeightsNeverOverflow := by
  intro s hinv i h
  rcases inv_nodes hinv with hempty | hb
  · simp [hempty, emptyNodes, Node.empty]
  · have hc := hinv.counted
    by_cases hleaf : i < s.eng.nsym.toNat
    · obtain ⟨sym, -, hnode⟩ := built_leaf hb hc h hleaf
      rw [hnode, hc.total]
      exact symAt_le_countSum s.eng.freq sym
    · by_cases hused : i < 2 * s.eng.nsym.toNat - 1
      · obtain ⟨-, _, _, -, -, -, -, -, hbound⟩ := built_inner hb hc h (by omega) hused
        exact hbound
      · simp [built_fresh hb hc h (by omega), Node.empty]

end Sys2Proof.Machine

/-! The code table: what BUILD_CODES assigns, and its guarantees in the phases that have it (R130 to
R137). -/

namespace Sys2Proof.Machine

/-! ### The codes of a coded engine -/

theorem codeString_length (e : Engine) (s : Byte) :
    (codeString e s).length = (e.codeLenOf s).toNat := codeBits_length _ _

/-- A present symbol's code is its row of the tree's table. -/
theorem Coded.present {e : Engine} {t : HTree} (c : Coded e t)
    (hperm : t.leaves.Perm (presentSymbols e.freq)) {s : Byte} (hs : e.freqOf s ≠ 0#32) :
    (s, codeString e s) ∈ t.table ∧ (e.codeOf s).toNat = bitsVal (codeString e s) := by
  obtain ⟨p, hp, rfl⟩ := table_has ((leaf_iff_present hperm s).mpr hs)
  obtain ⟨-, hval⟩ := c.mem p hp
  rw [codeString_eq c hp]
  exact ⟨hp, hval⟩

section
variable {e : Engine} (hb : BuiltFrom e) (hc : Counted e) (hk : CodedFrom e)
include hb hc hk

/-- A coded engine's tables hold the codes of its tree, which has the present symbols as its leaves. -/
theorem coded_tree :
    ∃ t, tBuild e.freq = [t] ∧ Coded e t ∧ t.leaves.Perm (presentSymbols e.freq) ∧
      t.leaves.length = e.nsym.toNat := by
  obtain ⟨t, x, ht, -, -, hperm, hlen, -⟩ := built_tree hb hc
  exact ⟨t, ht, codedFrom_coded hb hc hk ht, hperm, hlen⟩

/-- An absent symbol has no code (R130, R135). -/
theorem coded_absent {s : Byte} (hs : e.freqOf s = 0#32) :
    e.codeLenOf s = 0#8 ∧ e.codeOf s = 0#255 := by
  obtain ⟨t, -, c, hperm, -⟩ := coded_tree hb hc hk
  exact c.absent s fun hleaf => (leaf_iff_present hperm s).mp hleaf hs

/-- With an internal root, a present symbol's code leads from ROOT to its leaf (R130). -/
theorem coded_path (hsingle : e.single = false) {s : Byte} (hs : e.freqOf s ≠ 0#32) :
    ∃ j n, PathTo e.nodes e.root (codeString e s) j ∧
      nodeAt e.nodes j = some n ∧ n.internal = false ∧ n.sym = s := by
  obtain ⟨t, x, ht, hroot, hrep, hperm, -, hone⟩ := built_tree hb hc
  obtain ⟨hrow, -⟩ := (codedFrom_coded hb hc hk ht).present hperm hs
  cases t with
  | leaf s' c => simp [hsingle, HTree.leaves] at hone
  | node l r =>
    obtain ⟨bits, j, n, hbits, hpath, hn⟩ := codes_pathTo hrep hrow
    obtain rfl : codeString e s = bits := hbits
    exact ⟨j, n, hroot ▸ hpath, hn⟩

/-- The one symbol of a single-node tree has the code "0" (R131). -/
theorem coded_single (hsingle : e.single = true) {s : Byte} (hs : e.freqOf s ≠ 0#32) :
    codeString e s = [false] ∧ e.codeLenOf s = 1#8 ∧ e.codeOf s = 0#255 := by
  obtain ⟨t, x, ht, -, -, hperm, -, hone⟩ := built_tree hb hc
  obtain ⟨hrow, hval⟩ := (codedFrom_coded hb hc hk ht).present hperm hs
  obtain ⟨s', c, rfl⟩ := leaf_of_one (hone.mp hsingle)
  obtain ⟨-, hcode⟩ : s = s' ∧ codeString e s = [false] := by simpa [HTree.table] using hrow
  have hlen := codeString_length e s
  rw [hcode] at hlen hval
  exact ⟨hcode, BitVec.eq_of_toNat_eq hlen.symm, BitVec.eq_of_toNat_eq hval⟩

/-- A present symbol's code has 1 to n - 1 bits, or 1 where n is 1 (R131, R134). -/
theorem coded_length {s : Byte} (hs : e.freqOf s ≠ 0#32) :
    1 ≤ (e.codeLenOf s).toNat ∧ (e.codeLenOf s).toNat ≤ max 1 (e.nsym.toNat - 1) := by
  obtain ⟨t, -, c, hperm, hlen⟩ := coded_tree hb hc hk
  obtain ⟨hrow, -⟩ := c.present hperm hs
  rw [← codeString_length, ← hlen]
  exact table_length hrow

/-- No code has a bit at or above its length (R135). -/
theorem coded_code_lt (s : Byte) : (e.codeOf s).toNat < 2 ^ (e.codeLenOf s).toNat := by
  by_cases hs : e.freqOf s = 0#32
  · obtain ⟨hlen, hcode⟩ := coded_absent hb hc hk hs
    simp [hlen, hcode]
  · obtain ⟨t, -, c, hperm, -⟩ := coded_tree hb hc hk
    obtain ⟨-, hval⟩ := c.present hperm hs
    rw [hval, ← codeString_length]
    exact bitsVal_lt _

/-- The codes of two present symbols: neither continues the other (R135). -/
theorem coded_apart {x y : Byte} (hx : e.freqOf x ≠ 0#32) (hy : e.freqOf y ≠ 0#32) (hxy : x ≠ y) :
    ¬ codeString e x <+: codeString e y := by
  obtain ⟨t, -, c, hperm, -⟩ := coded_tree hb hc hk
  obtain ⟨hrowx, -⟩ := c.present hperm hx
  obtain ⟨hrowy, -⟩ := c.present hperm hy
  exact table_apart (hperm.nodup_iff.mpr (presentSymbols_nodup _)) hrowx hrowy hxy

end

/-- In the table of a built tree, the code of a strictly heavier symbol is no longer: its leaf is no
deeper (R137). -/
theorem table_falls {freq : Vector (BitVec 32) 256} {t : HTree} (ht : tBuild freq = [t])
    {p q : Byte × List Bool} (hp : p ∈ t.table) (hq : q ∈ t.table)
    (hw : (symAt freq q.1).toNat < (symAt freq p.1).toNat) : p.2.length ≤ q.2.length := by
  cases t with
  | leaf s c =>
    obtain rfl : p = (s, [false]) := by simpa [HTree.table] using hp
    obtain rfl : q = (s, [false]) := by simpa [HTree.table] using hq
    exact le_rfl
  | node l r =>
    have hdepth : ∀ z ∈ (HTree.node l r).table, (z.1, z.2.length) ∈ (HTree.node l r).depths 0 :=
      fun z hz => codes_depths (.node l r) [] ▸ List.mem_map_of_mem hz
    exact leaves_depths ht (hdepth p hp) (hdepth q hq) hw

/-! ### BUILD_CODES -/

/-- In TREE, BUILD_CODES completes in CODES with the codes of the engine's tree; OUT, FREQ, the tree and
SINGLE keep their values (R130). -/
theorem exec_buildCodes_coded {s : State} (hinv : Inv s) (hp : s.eng.phase = .tree) :
    ∃ t, exec .buildCodes s = .next t ∧ BuiltFrom t.eng ∧ Counted t.eng ∧ CodedFrom t.eng ∧
      t.eng.phase = .codes ∧ t.eng.out = s.eng.out ∧ t.eng.freq = s.eng.freq ∧
      t.eng.nodes = s.eng.nodes ∧ t.eng.root = s.eng.root ∧ t.eng.single = s.eng.single := by
  obtain ⟨_, tab, -, hexec, hb, hk, hc⟩ := exec_buildCodes_ok hinv hp
  exact ⟨_, hexec, hb, hc, hk, rfl, rfl, rfl, rfl, rfl, rfl⟩

/-- Settles O23: the command leaves a coded engine, whose absent symbols have no code (`coded_absent`)
and whose codes are paths (`coded_path`). -/
theorem codesAreTreePaths : Obligations.CodesAreTreePaths := by
  intro s hinv hp
  obtain ⟨t, hexec, hb, hc, hk, hphase, hout, hfreq, hnodes, hroot, hsingle⟩ :=
    exec_buildCodes_coded hinv hp
  simp only [Engine.freqOf, ← hfreq, ← hnodes, ← hroot, ← hsingle]
  exact ⟨t, hexec, hphase, hout, fun x hx => coded_absent hb hc hk hx,
    fun h1 x hx => coded_path hb hc hk h1 hx⟩

/-- Settles O24: the table of a tree that is one leaf has the code "0" for its symbol. -/
theorem singleSymbolCode : Obligations.SingleSymbolCode := by
  intro s hinv hp hone
  obtain ⟨t, hexec, hb, hc, hk, -, -, hfreq, -, -, hsingle⟩ := exec_buildCodes_coded hinv hp
  simp only [Engine.freqOf, ← hfreq]
  exact ⟨t, hexec, fun x hx => coded_single hb hc hk (hsingle.trans hone) hx⟩

/-! ### The guarantees of the code table -/

/-- Settles O25: each item by its lemma about a coded engine. -/
theorem codeTableGuarantees : Obligations.CodeTableGuarantees := by
  intro s hinv hp
  obtain ⟨hb, hk⟩ := inv_coded hinv hp
  have hc := hinv.counted
  refine ⟨fun x => ?present, fun x hx => coded_absent hb hc hk hx, coded_code_lt hb hc hk,
    fun x y hx hy hxy => coded_apart hb hc hk hx hy hxy⟩
  case present =>
    rw [← coded_iff_present hb hc hk, Nat.one_le_iff_ne_zero, ne_eq, ne_eq, ← BitVec.toNat_inj]
    rfl

/-- Settles O26: the two cases of the bound of `coded_length`. -/
theorem codeLengthBound : Obligations.CodeLengthBound := by
  intro s hinv hp x hx
  obtain ⟨hb, hk⟩ := inv_coded hinv hp
  obtain ⟨hmin, hmax⟩ := coded_length hb hinv.counted hk hx
  refine ⟨fun hn => by omega, fun hn => BitVec.eq_of_toNat_eq ?one⟩
  case one =>
    have hn1 : s.eng.nsym.toNat = 1 := by simp [hn]
    simp only [BitVec.toNat_ofNat]
    omega

/-- Settles O27: the codes are as long as the leaves are deep, and the depths fall along the queue
(`table_falls`). The more frequent symbol is present, because its count is above another. -/
theorem frequentSymbolsHaveNoLongerCodes : Obligations.FrequentSymbolsHaveNoLongerCodes := by
  intro s hinv hp x y hy hlt
  obtain ⟨hb, hk⟩ := inv_coded hinv hp
  obtain ⟨t, ht, c, hperm, -⟩ := coded_tree hb hinv.counted hk
  have hx : s.eng.freqOf x ≠ 0#32 := by
    intro hzero
    simp [hzero] at hlt
  obtain ⟨hrowx, -⟩ := c.present hperm hx
  obtain ⟨hrowy, -⟩ := c.present hperm hy
  rw [← codeString_length, ← codeString_length]
  exact table_falls ht hrowx hrowy hlt

/-! ### TOTAL_BITS and PADDING -/

/-- The sum of R132 fits TOTAL_BITS, whatever the tables hold. -/
theorem writeCodes_totalBits (tab : CodeTable) (e : Engine) :
    (writeCodes tab e).totalBits.toNat = totalBitsOf e.freq tab.len := by
  have hbits := totalBitsOf_le e.freq tab.len
  have hcount := countSum_lt e.freq
  exact ofNat_toNat_lt (by omega)

theorem writeCodes_padding (tab : CodeTable) (e : Engine) :
    (writeCodes tab e).padding.toNat = (8 - (writeCodes tab e).totalBits.toNat % 8) % 8 := by
  rw [writeCodes_totalBits]
  exact ofNat_toNat_lt (Nat.mod_lt _ (by decide))

/-- An answer of BUILD_CODES in TREE is what its writes make of some table (R130). -/
theorem exec_buildCodes_next {s t : State} (hp : s.eng.phase = .tree)
    (h : exec .buildCodes s = .next t) : ∃ tab, t = s.withEng (writeCodes tab s.eng) := by
  rw [exec, execBuildCodes, inPhase_ok hp (by decide)] at h
  split at h <;> cases h
  exact ⟨_, rfl⟩

/-- Settles O28: no table makes the sum too large for TOTAL_BITS, and PADDING fills its last byte. -/
theorem totalBitsAndPadding : Obligations.TotalBitsAndPadding := by
  intro s t hp h
  obtain ⟨tab, rfl⟩ := exec_buildCodes_next hp h
  rw [withEng_eng]
  have hpad := writeCodes_padding tab s.eng
  refine ⟨writeCodes_totalBits tab s.eng, hpad, by omega, ?_⟩
  rw [← BitVec.toNat_inj, hpad]
  simp only [BitVec.toNat_ofNat]
  omega

/-- Settles O29: the invariant's bound, and TOTAL_COUNT is below 2^32. -/
theorem totalBitsBelowTwoPow40 : Obligations.TotalBitsBelowTwoPow40 := by
  intro s hinv
  have hbound := hinv.totalBound
  have hcount := s.eng.totalCount.isLt
  have h40 : s.eng.totalBits.toNat < 2 ^ 40 := by omega
  refine ⟨hbound, h40, BitVec.eq_of_toNat_eq ?high⟩
  case high =>
    show ((wordOf s.eng.totalBits 1).extractLsb' 8 24).toNat = 0
    rw [BitVec.extractLsb'_toNat, Nat.shiftRight_eq_div_pow, wordOf_toNat]
    omega

end Sys2Proof.Machine

/-! The lines of EMIT_HEADER and their length (R140 to R146), the count of the payload's bytes
(R160), and what EMIT_HEADER, PACK and FINISH leave unchanged. -/

namespace Sys2Proof.Machine

/-! ### The text of the tree -/

/-- Ser of an internal node stands in brackets (R140). -/
theorem text_brackets (l r : HTree) :
    (HTree.node l r).text.head? = some Config.charOpen ∧
      (HTree.node l r).text.getLast? = some Config.charClose :=
  ⟨rfl, List.getLast?_concat⟩

section
variable {e : Engine} (hb : BuiltFrom e) (hc : Counted e)
include hb hc

/-- The text of a one-leaf tree has 3 bytes (R142); that of a larger one stands in brackets and has
four bytes for each leaf but three (R145). -/
theorem treeText_shape :
    ∃ text, treeText e = .ok text ∧ (e.nsym = 1#9 → text.length = 3) ∧
      (2 ≤ e.nsym.toNat → text.length = 4 * e.nsym.toNat - 3 ∧
        text.head? = some Config.charOpen ∧ text.getLast? = some Config.charClose) := by
  obtain ⟨t, x, ht, -, -, -, hleaves, -⟩ := built_tree hb hc
  refine ⟨_, treeText_built hb hc ht, ?_⟩
  rw [← BitVec.toNat_inj, ← hleaves]
  cases t with
  | leaf s c => exact ⟨fun _ => rfl, fun htwo => absurd htwo (by simp [HTree.leaves])⟩
  | node l r =>
    have htwo : 2 ≤ (HTree.node l r).leaves.length := by
      rw [HTree.leaves, List.length_append]
      exact Nat.add_le_add (leaves_pos l) (leaves_pos r)
    refine ⟨fun hone => absurd (hone ▸ htwo) (by decide), fun _ => ⟨?_, text_brackets l r⟩⟩
    exact Nat.eq_sub_of_add_eq (text_length (.node l r))

/-- Both lines of the header have 6 bytes, or four for each leaf, and HDR_LEN can hold the text's
length (R145). -/
theorem treeText_length {text : List Byte} (h : treeText e = .ok text) :
    text.length + 3 = (if e.nsym = 1#9 then 6 else 4 * e.nsym.toNat) ∧
      3 ≤ text.length ∧ text.length ≤ 1021 := by
  obtain ⟨text', htext, hone, hmany⟩ := treeText_shape hb hc
  obtain rfl : text' = text := Except.ok.inj (htext.symm.trans h)
  obtain ⟨_, _, _, -, -, -, -, -, -, -, -, hpos, hle, -⟩ := grove_of_built hb hc
  by_cases hn : e.nsym = 1#9
  · simp [hn, hone hn]
  · have hne : e.nsym.toNat ≠ 1 := fun h1 => hn (BitVec.eq_of_toNat_eq h1)
    obtain ⟨hlength, -⟩ := hmany (by omega)
    rw [if_neg hn]
    omega

end

/-- Settles O31: the tree of the phase's tables has the text of `treeText_shape`. -/
theorem serializedLength : Obligations.SerializedLength := by
  intro s hinv hp
  obtain ⟨hb, -⟩ := inv_coded hinv hp
  obtain ⟨text, htext, hone, hmany⟩ := treeText_shape hb hinv.counted
  obtain ⟨-, hbounds⟩ := treeText_length hb hinv.counted htext
  exact ⟨text, htext, hmany, hone, hbounds⟩

/-! ### EMIT_HEADER -/

theorem headerTail_length (padding : BitVec 3) : (headerTail padding).length = 3 := rfl

/-- In CODES, with room for both lines, EMIT_HEADER pushes them and closes (R141). -/
theorem exec_emitHeader_ok {s : State} {text : List Byte} (hinv : Inv s)
    (hp : s.eng.phase = .codes) (ht : treeText s.eng = .ok text)
    (hroom : RoomFor s (if s.eng.nsym = 1#9 then 6 else 4 * s.eng.nsym.toNat)) :
    exec .emitHeader s = .next (s.withEng (closeCommand s.draw (.header text.length)
      { s.eng with out := s.eng.out ++ (text ++ headerTail s.eng.padding) })) := by
  obtain ⟨hb, -⟩ := inv_coded hinv (.inl hp)
  obtain ⟨hlength, -⟩ := treeText_length hb hinv.counted ht
  rw [exec_emitHeader_push hp ht, pushAll_room]
  rwa [List.length_append, headerTail_length, hlength]

/-- PADDING is one digit, '0' to '7' (R141, R146). -/
theorem paddingDigit_toNat (padding : BitVec 3) :
    (BitVec.ofNat 8 (Config.charZero + padding.toNat)).toNat = 0x30 + padding.toNat ∧
      0x30 + padding.toNat ≤ 0x37 := by
  have hlt := padding.isLt
  exact ⟨ofNat_toNat_lt (by rw [Config.charZero]; omega), by omega⟩

/-- Settles O30: with room for its lines the command pushes them and closes (`exec_emitHeader_ok`),
and its closing writes fit. -/
theorem emitHeaderPushesLines : Obligations.EmitHeaderPushesLines := by
  intro s hinv hp hroom hcount
  obtain ⟨hb, -⟩ := inv_coded hinv (.inl hp)
  obtain ⟨text, htext, hnode, hleaf⟩ := treeText_codes hinv hp
  obtain ⟨-, -, hmax⟩ := treeText_length hb hinv.counted htext
  obtain ⟨hvalue, hdigit⟩ := paddingDigit_toNat s.eng.padding
  obtain ⟨hhdrLen, houtCount, hphase⟩ := closeCommand_header (draw := s.draw)
    (e := { s.eng with out := s.eng.out ++ (text ++ headerTail s.eng.padding) })
    (show text.length < 2 ^ 11 by omega)
    (show s.eng.outCount.toNat + text.length + 3 < 2 ^ 64 by omega)
  exact ⟨_, text, _, exec_emitHeader_ok hinv hp htext hroom, hnode, hleaf, hvalue,
    hvalue.trans_le hdigit, (List.append_assoc ..).symm, hhdrLen, houtCount, hphase, rfl⟩

/-! ### The payload's bytes -/

/-- EMIT_HEADER starts the count: with nothing pushed or packed before it, the header's bytes are
the only ones (R145). -/
theorem payloadCount_header {draw n : Nat} {e : Engine} (hn : n ≤ 1021) (hout : e.outCount = 0#64)
    (hpacked : e.packedBits = 0#64) (hsub : e.subIndex = 0#3) :
    PayloadCount (closeCommand draw (.header n) e) := by
  have hzero : e.outCount.toNat = 0 := by rw [hout]; rfl
  obtain ⟨hhdrLen, houtCount, -⟩ := closeCommand_header (draw := draw) (e := e) (n := n)
    (by omega) (by omega)
  have hkept : (closeCommand draw (.header n) e).packedBits = 0#64 := hpacked
  constructor
  · rw [hhdrLen, houtCount, hkept, hzero]
    simp
  · rw [hkept]
    exact congrArg BitVec.toNat hsub

/-- PACK's closing writes carry the count on: of `sub` pending and `len` new bits, one byte is
pushed for each 8 and the rest stay pending (R157). -/
theorem payloadCount_pack {draw sub len : Nat} {e : Engine}
    (hpushed : e.outCount.toNat = e.hdrLen.toNat + 3 + e.packedBits.toNat / 8)
    (hsub : sub = e.packedBits.toNat % 8) (hpending : e.subIndex.toNat = (sub + len) % 8)
    (h32 : (sub + len) / 8 ≤ 32) (hpacked : e.packedBits.toNat + len < 2 ^ 64)
    (hout : e.outCount.toNat + 32 < 2 ^ 64) :
    PayloadCount (closeCommand draw (.pack ((sub + len) / 8) len) e) := by
  obtain ⟨-, hpacked', hout', -⟩ := closeCommand_pack (draw := draw) h32 hpacked (by omega)
  constructor
  · rw [hpacked', hout', hpushed]
    show _ = e.hdrLen.toNat + 3 + _
    omega
  · rw [hpacked']
    show e.subIndex.toNat = _
    omega

/-- The pending bits and the padding fill one byte, so the free bits of BUF[0] are the padding bits,
and they are 0 (R155, R160). -/
theorem paddingBits_clear {e : Engine} (hb : BufBetween e) (hsub : e.subIndex ≠ 0#3)
    (hpending : e.subIndex.toNat = e.totalBits.toNat % 8)
    (hpadding : e.padding.toNat = (8 - e.totalBits.toNat % 8) % 8) :
    e.buf[0].toNat % 2 ^ e.padding.toNat = 0 := by
  obtain ⟨-, hfree⟩ := hb
  have hne : e.subIndex.toNat ≠ 0 := fun h => hsub (BitVec.eq_of_toNat_eq h)
  have hfill : e.padding.toNat = 8 - e.subIndex.toNat := by omega
  rwa [FreeBitsClear, ← hfill] at hfree

/-- FINISH with all bits packed counts and appends the byte that the policy flushes (R158). -/
theorem exec_finish_counts {s : State} (hp : s.eng.phase = .pack)
    (he : s.eng.packedBits = s.eng.totalBits)
    (hroom : flushes s.build.flushPolicy s.eng = true → RoomFor s 1)
    (hout : s.eng.outCount.toNat + 1 < 2 ^ 64) :
    ∃ t, exec .finish s = .next t ∧
      t.eng.outCount.toNat =
        s.eng.outCount.toNat + (if flushes s.build.flushPolicy s.eng then 1 else 0) ∧
      t.eng.out = s.eng.out ++
        (if flushes s.build.flushPolicy s.eng then [s.eng.buf[0]] else []) :=
  ⟨_, exec_finish_ok hp he hroom, narrow_toNat (by split <;> omega), rfl⟩

/-- Settles O40: the header's bytes start the count, PACK carries it on, and FINISH pushes one more
byte exactly where the packed bits leave a partial one, which rounds the quotient up. -/
theorem payloadByteCount : Obligations.PayloadByteCount := by
  refine ⟨fun s hinv hp hroom hout hpacked hsub => ?header,
    fun sym s hp hcode hbuf hroom hcount hpacked hout => ?pack,
    fun s hinv hp hidle he hcount hroom hout hpolicy => ?finish⟩
  case header =>
    obtain ⟨hb, -⟩ := inv_coded hinv (.inl hp)
    obtain ⟨text, htext, -⟩ := treeText_codes hinv hp
    obtain ⟨-, -, hmax⟩ := treeText_length hb hinv.counted htext
    exact ⟨_, exec_emitHeader_ok hinv hp htext hroom, payloadCount_header hmax hout hpacked hsub⟩
  case pack =>
    have hlen := (s.eng.codeLenOf sym).isLt
    obtain ⟨hpushed, hpending⟩ := hcount
    obtain ⟨hexec, h32, -⟩ := exec_pack_ok hp hcode hbuf hroom
    exact ⟨_, hexec, payloadCount_pack hpushed hpending
      (ofNat_toNat_lt (Nat.mod_lt _ (by decide))) h32
      (show s.eng.packedBits.toNat + _ < _ by omega) hout⟩
  case finish =>
    obtain ⟨-, hk⟩ := inv_coded hinv (.inr (.inl hp))
    obtain ⟨-, -, hpadding⟩ := totals_of_coded hinv.counted hk
    obtain ⟨hpushed, hpending⟩ := hcount
    rw [he] at hpushed hpending
    obtain ⟨hflush, -⟩ := flushes_iff s.build.flushPolicy s.eng
    specialize hflush hpolicy
    have hpartial : s.eng.subIndex ≠ 0#3 ↔ s.eng.totalBits.toNat % 8 ≠ 0 :=
      hpending ▸ BitVec.toNat_inj.symm.not
    obtain ⟨t, hexec, hcount, hlast⟩ :=
      exec_finish_counts hp he (fun h => hroom (hflush.mp h)) hout
    refine ⟨t, hexec, ?_, fun hsub => ⟨s.eng.buf[0], ?_,
      paddingBits_clear (hinv.idleBuf hidle) hsub hpending hpadding⟩⟩
    · rw [hcount, hpushed]
      simp only [hflush, hpartial]
      split <;> omega
    · rw [hlast, if_pos (hflush.mpr hsub)]
      exact List.getLast?_concat

/-! ### Frames -/

/-- Whether or not the bytes fit, pushing writes OUT and then makes the closing writes or leaves the
command in flight (R198). -/
theorem pushAll_writes (bytes : List Byte) (c : Closing) (s : State) :
    ∃ out, s.eng.out <+: out ∧
      (pushAll bytes c s = s.withEng (closeCommand s.draw c { s.eng with out := out }) ∨
        ∃ f, pushAll bytes c s = s.withEng { s.eng with out := out, inflight := some f }) := by
  rcases pushAll_cases bytes c s with hall | ⟨done, rest, d, -, -, -, -, -, hwait⟩
  · exact ⟨_, List.prefix_append .., .inl hall⟩
  · exact ⟨_, List.prefix_append .., .inr ⟨_, hwait⟩⟩

theorem exec_emitHeader_writes {s t : State} (h : exec .emitHeader s = .next t) :
    Unexecuted .emitHeader s t ∨ ∃ bytes n, t = pushAll bytes (.header n) s := by
  refine (inPhase_unexecuted_or h).elim .inl fun hbody => ?_
  split at hbody <;> cases hbody
  exact .inr ⟨_, _, rfl⟩

theorem exec_pack_writes {sym : Byte} {s t : State} (h : exec (.pack sym) s = .next t) :
    Unexecuted (.pack sym) s t ∨ ∃ bytes filled len buf sub, t = pushAll bytes (.pack filled len)
      (s.withEng { s.eng with buf := buf, subIndex := sub }) := by
  refine (inPhase_unexecuted_or h).elim .inl fun hbody => ?_
  simp only at hbody
  split at hbody <;> cases hbody
  · exact .inl (.inr ⟨_, rfl⟩)
  · exact .inr ⟨_, _, _, _, _, rfl⟩

theorem exec_finish_writes {s t : State} (h : exec .finish s = .next t) :
    Unexecuted .finish s t ∨ ∃ bytes flushed, t = pushAll bytes (.finish flushed) s := by
  refine (inPhase_unexecuted_or h).elim .inl fun hbody => ?_
  split at hbody
  · cases hbody
    exact .inl (.inr ⟨_, rfl⟩)
  · split at hbody <;> cases hbody <;> exact .inr ⟨_, _, rfl⟩

/-- Settles O42: a command writes the error registers and PHASE alone, or pushes, and a push makes
the command's own closing writes or leaves it in flight. -/
theorem pushingCommandFrames : Obligations.PushingCommandFrames := by
  refine ⟨fun s t h => ?emitHeader, fun sym s t h => ?pack, fun s t h => ?finish⟩
  case emitHeader =>
    rcases exec_emitHeader_writes h with (rfl | ⟨c, rfl⟩) | ⟨bytes, n, rfl⟩
    · exact ⟨rfl, List.prefix_rfl⟩
    · exact ⟨rfl, List.prefix_rfl⟩
    · obtain ⟨out, hout, hpush | ⟨f, hpush⟩⟩ := pushAll_writes bytes (.header n) s <;>
        exact hpush ▸ ⟨rfl, hout⟩
  case pack =>
    rcases exec_pack_writes h with (rfl | ⟨c, rfl⟩) | ⟨bytes, filled, len, buf, sub, rfl⟩
    · exact ⟨rfl, List.prefix_rfl⟩
    · exact ⟨rfl, List.prefix_rfl⟩
    · obtain ⟨out, hout, hpush | ⟨f, hpush⟩⟩ := pushAll_writes bytes (.pack filled len)
        (s.withEng { s.eng with buf := buf, subIndex := sub }) <;>
        exact hpush ▸ ⟨rfl, hout⟩
  case finish =>
    rcases exec_finish_writes h with (rfl | ⟨c, rfl⟩) | ⟨bytes, flushed, rfl⟩
    · exact ⟨rfl, List.prefix_rfl⟩
    · exact ⟨rfl, List.prefix_rfl⟩
    · obtain ⟨out, hout, hpush | ⟨f, hpush⟩⟩ := pushAll_writes bytes (.finish flushed) s <;>
        exact hpush ▸ ⟨rfl, hout⟩

end Sys2Proof.Machine

/-! The bit packer: PACK's writes as a bit string, in closed form and inside BUF (R150 to R157), the
refusal of a symbol without a code (R151), and the outcomes of FINISH under both policies (R158,
R159). -/

namespace Sys2Proof.Machine

/-! ### Where PACK writes -/

/-- Steps 2 to 4 of PACK write nothing above the new partial byte, whatever BUF holds (R152, R156). -/
theorem packBits_keeps_above {sub len code : Nat} {buf : Vector Byte 34} (hsub : sub < 8)
    (hlen : len ≤ 255) :
    (packBits sub len code buf).2 = (sub + len) / 8 ∧
      ∀ i, (sub + len) / 8 < i → (packBits sub len code buf).1[i]? = buf[i]? := by
  unfold packBits
  by_cases hle : len ≤ 8 - sub
  · rw [if_pos hle]
    refine ⟨by dsimp only; split <;> omega, fun i hi => ?_⟩
    rw [orBuf_getElem? _ _ _ _ (by omega), if_neg (by omega)]
  · have hfilled : 1 + (len - (8 - sub)) / 8 = (sub + len) / 8 := by omega
    obtain ⟨buf', hchunks, habove, -⟩ := packChunks_spec code (len - (8 - sub)) (len - (8 - sub)) 1
      (orBuf buf 0 (code >>> (len - (8 - sub)))) (by omega) (by omega)
    rw [hfilled] at hchunks habove
    simp only [if_neg hle, hchunks, true_and]
    intro i hi
    rw [orBuf_getElem? _ _ _ _ (by omega), if_neg hi.ne', habove i hi.le,
      orBuf_getElem? _ _ _ _ (by omega), if_neg (by omega)]

/-- Settles O37: at most 7 pending bits and 255 code bits put the new partial byte at index 32 or
below, and `packBits_keeps_above` covers BUF[33]. -/
theorem packStaysInBuffer : Obligations.PackStaysInBuffer := by
  intro sub len code buf hsub hlen
  obtain ⟨hfilled, habove⟩ := packBits_keeps_above (code := code) (buf := buf) hsub hlen
  have h32 : (sub + len) / 8 ≤ 32 := by omega
  refine ⟨hfilled, hfilled.trans_le h32, ?_⟩
  simpa using habove 33 (by omega)

/-! ### PACK -/

/-- In PACK, a symbol without a code raises NO_CODE (R151). -/
theorem exec_pack_noCode {sym : Byte} {s : State} (hp : s.eng.phase = .pack)
    (hl : s.eng.codeLenOf sym = 0#8) :
    exec (.pack sym) s = .next (raiseError .noCode (encode (.pack sym)) s) := by
  rw [exec, execPack, inPhase_ok hp (by simp)]
  exact if_pos (congrArg BitVec.toNat hl)

/-- Settles O36: the error's entry is the only write. -/
theorem packWithoutCodeIsRefused : Obligations.PackWithoutCodeIsRefused :=
  fun _ _ => exec_pack_noCode

/-- After `reset()` BUF holds nothing but the pending bits where the partial byte's free bits are
clear (R153, R155). -/
theorem bufBetween_closePack {draw filled len : Nat} {e : Engine}
    (hfree : FreeBitsClear (e.buf[filled]?.getD 0#8) e.subIndex) :
    BufBetween (closeCommand draw (.pack filled len) e) :=
  ⟨resetBuf_tail e.buf filled, (resetBuf_zero e.buf filled).symm ▸ hfree⟩

/-- The pending bits that PACK leaves are the top bits of the partial byte (R153). -/
theorem pendingBits_closePack {draw filled len : Nat} {e : Engine} :
    pendingBits (closeCommand draw (.pack filled len) e) =
      (byteBits (e.buf[filled]?.getD 0#8)).take e.subIndex.toNat :=
  congrArg (fun b => (byteBits b).take e.subIndex.toNat) (resetBuf_zero e.buf filled)

/-- Settles O34: `packBits_bits` says what bits stand in BUF before the push; the push takes the whole
bytes of them and `reset()` keeps the rest. -/
theorem packAppendsCode : Obligations.PackAppendsCode := by
  intro sym s hp hcoded hcode hbuf hroom
  have hsub := s.eng.subIndex.isLt
  have hlen := Nat.le_of_lt_succ (s.eng.codeLenOf sym).isLt
  have hpending : (BitVec.ofNat 3 ((s.eng.subIndex.toNat + (s.eng.codeLenOf sym).toNat) % 8)).toNat =
      (s.eng.subIndex.toNat + (s.eng.codeLenOf sym).toNat) % 8 :=
    ofNat_toNat_lt (Nat.mod_lt _ (by decide))
  obtain ⟨hexec, -, -⟩ := exec_pack_ok hp hcoded hbuf hroom
  obtain ⟨htail, hfree⟩ := hbuf
  obtain ⟨-, hclear, -⟩ := packBits_shape (code := (s.eng.codeOf sym).toNat) hsub hlen htail hfree
  refine ⟨_, _, hexec, rfl, ?bits, bufBetween_closePack ?free, hp, rfl⟩
  case bits =>
    rw [withEng_eng, pendingBits_closePack, hpending]
    exact packBits_bits hsub hlen hcode htail hfree
  case free =>
    rw [FreeBitsClear, hpending]
    exact hclear

/-- Settles O35: the closing writes of `exec_pack_ok` fit their registers. -/
theorem packClosedForm : Obligations.PackClosedForm := by
  intro sym s hp hcoded hbuf hroom hpacked hout
  have hlen := (s.eng.codeLenOf sym).isLt
  obtain ⟨hexec, h32, hcount⟩ := exec_pack_ok hp hcoded hbuf hroom
  have hfilled := ofNat_toNat_lt (w := 6) (Nat.lt_of_le_of_lt h32 (by decide))
  refine ⟨_, hexec, hfilled, ?pushed, ofNat_toNat_lt (Nat.mod_lt _ (by decide)),
    narrow_toNat (by dsimp only; omega), (narrow_toNat (by dsimp only; omega)).trans ?outCount⟩
  case pushed =>
    rw [withEng_eng, closeCommand_out, List.length_append, hcount]
    exact congrArg _ hfilled.symm
  case outCount => exact congrArg _ hfilled.symm

/-! ### FINISH -/

theorem encode_finish : encode .finish = 0x07000000#32 := by decide

/-- In PACK with bits missing or too many, FINISH raises LENGTH_MISMATCH (R158). -/
theorem exec_finish_mismatch {s : State} (hp : s.eng.phase = .pack)
    (hne : s.eng.packedBits ≠ s.eng.totalBits) :
    exec .finish s = .next (raiseError .lengthMismatch (encode .finish) s) := by
  rw [exec, execFinish, inPhase_ok hp (by simp), if_pos hne]

/-- The byte is flushed where FLUSH_POLICY is PENDING and bits are pending, or NONZERO and BUF[0] is
not 0 (R7, R158). -/
theorem flushes_eq_true {p : FlushPolicy} {e : Engine} :
    flushes p e = true ↔ (p = .pending ∧ e.subIndex ≠ 0#3) ∨ (p = .nonzero ∧ e.buf[0] ≠ 0#8) := by
  cases p <;> simp [flushes]

/-- Settles O38: the phase check, `exec_finish_mismatch` and `exec_finish_ok` are the three outcomes. -/
theorem finishCloses : Obligations.FinishCloses := by
  intro s
  refine ⟨fun hp herr => ?sequence, fun hp hne => ?mismatch, fun hp he hroom => ?closes⟩
  case sequence =>
    rw [exec_sequence herr (by simpa using hp), encode_finish]
    rfl
  case mismatch =>
    rw [exec_finish_mismatch hp hne, encode_finish]
    rfl
  case closes =>
    obtain ⟨hpending, hnonzero⟩ := flushes_iff s.build.flushPolicy s.eng
    have hflush := fun h => hroom (flushes_eq_true.mp h)
    refine ⟨_, flushes s.build.flushPolicy s.eng, exec_finish_ok hp he fun h => (hflush h).1,
      hpending, hnonzero, rfl, narrow_toNat ?fits, rfl, rfl, rfl, rfl, rfl⟩
    case fits =>
      split
      · next h => exact (hflush h).2
      · exact s.eng.outCount.isLt

/-- Settles O39: PADDING fills up the packed bits' last byte, so it is not 0 where bits are pending;
of that byte FINISH under NONZERO sees only that it is 0. -/
theorem nonzeroPolicyLosesZeroByte : Obligations.NonzeroPolicyLosesZeroByte := by
  intro s hinv hp he hsub hpending hzero hroom
  have hroom' : flushes s.build.flushPolicy s.eng = true → RoomFor s 1 := fun h =>
    (flushes_eq_true.mp h).elim (fun ⟨hpolicy, _⟩ => hroom hpolicy) fun ⟨_, hne⟩ => absurd hzero hne
  refine ⟨?padding, _, exec_finish_ok hp he hroom', rfl, fun hpolicy => ?nonzero,
    fun hpolicy => ?pending⟩
  case padding =>
    obtain ⟨-, hcoded⟩ := inv_coded hinv (.inr (.inl hp))
    obtain ⟨-, -, hpadding⟩ := totals_of_coded hinv.counted hcoded
    rw [he] at hsub
    rw [ne_eq, ← BitVec.toNat_inj, BitVec.toNat_ofNat] at hpending ⊢
    omega
  case nonzero => simp [flushes, hpolicy, hzero]
  case pending => simp [flushes, hpolicy, hpending, hzero]

end Sys2Proof.Machine

/-! The control command NOP (R170, R171). -/

namespace Sys2Proof.Machine

/-- Settles O12: NOP's arm of `exec` has no phase check and no write. -/
theorem nopChangesNothing : Obligations.NopChangesNothing := by
  intro s
  rw [exec, execNop]

end Sys2Proof.Machine

/-! Exceptions: error entry, the order of the checks, what an error leaves as it was, the phase
ERROR and its two exits (R182 to R188), and the engine that idles (R197). -/

namespace Sys2Proof.Machine

/-! ### The phase ERROR -/

/-- CLEAR's word (R83, R172). -/
theorem encode_clear : encode .clear = 0x01000000#32 := by decide

theorem execWord_clear (s : State) : execWord 0x01000000#32 s = .next (clearEngine s) :=
  execWord_cmd ((decodeAndEncodeAgree _ _).mpr encode_clear.symm) s

/-- In ERROR a word other than CLEAR's is an illegal word or another command, and both are ignored
(R187). -/
theorem execWord_error {w : Word} {s : State} (he : s.eng.phase = .error) (hw : w ≠ 0x01000000#32) :
    execWord w s = .next s := by
  cases hd : decode w with
  | illegal why => exact (execWord_illegal hd s).trans (illegalWord_ignored he)
  | cmd i =>
    have hi : i ≠ .clear := by
      rintro rfl
      exact hw (((decodeAndEncodeAgree _ _).mp hd).trans encode_clear)
    exact (execWord_cmd hd s).trans (exec_error he hi)

/-- Settles O10: `execWord_error` is the statement. -/
theorem errorPhaseIgnoresWords : Obligations.ErrorPhaseIgnoresWords := fun _ _ => execWord_error

/-- A command that waits is in CODES or PACK, so none waits in ERROR (R198). -/
theorem inflight_of_error {s : State} (h : Inv s) (he : s.eng.phase = .error) :
    s.eng.inflight = none := by
  cases hf : s.eng.inflight with
  | none => rfl
  | some f =>
    have hwaits := h.waits f hf
    unfold WaitsWell at hwaits
    cases hc : f.closing <;> simp [hc, he] at hwaits

/-- While `rst_n` is low the phase is COUNT, so it is high in ERROR (R200). -/
theorem inReset_of_error {s : State} (h : Inv s) (he : s.eng.phase = .error) :
    s.host.inReset = false := by
  cases hr : s.host.inReset with
  | false => rfl
  | true => simp [h.resetHolds hr] at he

/-! ### The exits from ERROR -/

/-- An engine's turn that leaves ERROR takes CLEAR's word (R172, R188). -/
theorem engineTurn_leaves_error {s t : State} (h : engineTurn s = .next t)
    (hi : s.eng.inflight = none) (he : s.eng.phase = .error) (ht : t.eng.phase ≠ .error) :
    t.eng = Engine.reset ∧ cmdReady s = true ∧ s.host.port.head? = some 0x01000000#32 := by
  rcases engineTurn_cases h with ⟨rfl, -⟩ | ⟨f, hf, -⟩ | ⟨w, rest, hready, hport, hw⟩
  · exact absurd he ht
  · simp [hi] at hf
  · by_cases hclear : w = 0x01000000#32
    · subst hclear
      rw [execWord_clear] at hw
      cases hw
      exact ⟨rfl, hready, by rw [hport]; rfl⟩
    · rw [execWord_error (s := acceptWord rest s) he hclear] at hw
      cases hw
      exact absurd he ht

@[simp] theorem takeByte_phase (s : State) : (takeByte s).eng.phase = s.eng.phase := by
  unfold takeByte; split <;> rfl

/-- A move of the host that leaves ERROR is `rst_n` going low (R188, R200). -/
theorem move_leaves_error {ev : Event} {s t : State} (h : move ev s = .next t)
    (hev : ev ≠ .engine) (hr : s.host.inReset = false) (he : s.eng.phase = .error)
    (ht : t.eng.phase ≠ .error) : ev = .resetLow ∧ t.eng = Engine.reset := by
  cases ev with
  | engine => exact absurd rfl hev
  | resetLow => obtain rfl : resetLow s = t := by simpa [move] using h
                exact ⟨rfl, rfl⟩
  | offer w => obtain rfl : offerWord w s = t := by simpa [move] using h
               exact absurd he ht
  | read a => obtain rfl : readRegister a s = t := by simpa [move] using h
              exact absurd he ht
  | take => obtain rfl : takeByte s = t := by simpa [move] using h
            exact absurd ((takeByte_phase s).trans he) ht
  | resetHigh => obtain rfl : resetHigh s = t := by simpa [move] using h
                 exact absurd (by simp [resetHigh, hr, he]) ht

/-- Settles O11: in ERROR no command waits and `rst_n` is high, so a step that leaves it is the
engine taking CLEAR (`engineTurn_leaves_error`) or `rst_n` going low (`move_leaves_error`). -/
theorem onlyClearOrResetLeavesError : Obligations.OnlyClearOrResetLeavesError := by
  intro s t hinv he hstep ht
  have hidle := inflight_of_error hinv he
  have hrunning := inReset_of_error hinv he
  rcases step_split hstep with ⟨hev, hturn⟩ | ⟨ev, hne, rest, hev, hmove⟩
  · obtain ⟨hreset, hready, hport⟩ := engineTurn_leaves_error hturn hidle he ht
    exact ⟨hreset, by simp [hreset], .inr ⟨hev, hready, hport⟩⟩
  · obtain ⟨rfl, hreset⟩ := move_leaves_error hmove hne hrunning he ht
    exact ⟨hreset, by simp [hreset], .inl (by simp [hev])⟩

/-! ### The error that a word raises -/

/-- Settles O7: in ERROR `execWord_error`, then the decoder, the phase check (`exec_sequence`), and
the command's own check (`exec_legal_cases`). -/
theorem errorPriority : Obligations.ErrorPriority := by
  refine fun w s => ⟨execWord_error, fun hne why hw => ?illegal, fun hne i hi hl => ?sequence,
    fun hne i hi hl t ht herr => ?own⟩
  case illegal => exact (execWord_illegal hw s).trans (illegalWord_raises hne)
  case sequence =>
    rw [execWord_cmd hi, exec_sequence hne hl, (decodeAndEncodeAgree w i).mp hi]
  case own =>
    rw [execWord_cmd hi] at ht
    rcases exec_legal_cases hne hl ht with ⟨c, hc, hown, rfl⟩ | ⟨hno, -⟩
    · exact ⟨c, hc, hown, by rw [(decodeAndEncodeAgree w i).mp hi]⟩
    · exact absurd herr hno

/-- A command that some phase outside ERROR does not allow has SEQUENCE_ERROR in its row of R182. -/
theorem sequenceError_mem_errorsOf {i : Instr} {p : Phase} (hp : p ≠ .error)
    (hl : legalIn i p = false) : .sequenceError ∈ errorsOf i := by
  cases i with
  | nop => simp [hp] at hl
  | clear => simp at hl
  | freqInc _ | buildTree | buildCodes | emitHeader | pack _ | finish => simp [errorsOf]

/-- Settles O9: a command outside its phases is a SEQUENCE_ERROR and nothing else, and one inside
them ends in ERROR only by an error of its own, which is its only effect. -/
theorem errorsArePrecise : Obligations.ErrorsArePrecise := by
  intro i s t hne ht herr
  cases hl : legalIn i s.eng.phase with
  | false =>
    rw [exec_sequence hne hl] at ht
    cases ht
    exact ⟨.sequenceError, sequenceError_mem_errorsOf hne hl, rfl⟩
  | true =>
    rcases exec_legal_cases hne hl ht with ⟨c, hc, -, rfl⟩ | ⟨hno, -⟩
    · exact ⟨c, hc, rfl⟩
    · exact absurd herr hno

/-- Settles O8: the three writes of `raiseError`. -/
theorem errorEntryWrites : Obligations.ErrorEntryWrites := by
  intro c w s
  rw [raiseError, State.withEng]

/-! ### The idle engine -/

/-- With no word at the port and no command in flight the engine's turn changes nothing, in reset or
out of it (R197). -/
theorem engineTurn_idle {s : State} (hp : s.host.port = []) (hi : s.eng.inflight = none) :
    engineTurn s = .next s := by
  cases hr : s.host.inReset <;> simp [engineTurn, hr, hp, hi]

/-- With an empty schedule the step's turn differs in its draw alone (log entries 3 and 5). -/
theorem atTurn_of_events_nil {s : State} (h : s.host.events = []) :
    s.atTurn = { s with draw := s.draw + 1 } := by
  obtain ⟨b, e, ⟨events, port, taken, reads, sawIdle, inReset⟩, draw⟩ := s
  obtain rfl : events = [] := h
  rfl

/-- Settles O52: the step is the engine's turn, which idles. -/
theorem engineIdles : Obligations.EngineIdles := by
  intro s hev hp hi
  rw [step_eq_engineTurn (.inr hev), engineTurn_idle (s := s.atTurn) hp hi,
    atTurn_of_events_nil hev]

end Sys2Proof.Machine

/-! Reset and CLEAR: the reset values, the edges of `rst_n` and the engine held in reset (R172, R200 to
R202). -/

namespace Sys2Proof.Machine

/-! ### CLEAR -/

/-- CLEAR has no phase check (R172). -/
theorem exec_clear (s : State) : exec .clear s = .next (clearEngine s) := rfl

/-- Settles O13: CLEAR answers `clearEngine`, which writes the engine's reset values and no other part
of the state. -/
theorem clearStartsFreshRun : Obligations.ClearStartsFreshRun := fun s =>
  ⟨clearEngine s, exec_clear s, clearEngine_eng s, reset_phase, reset_errCode, rfl, reset_out,
    clearEngine_build s, clearEngine_host s, clearEngine_draw s⟩

/-! ### The reset values of the tables -/

theorem reset_freqOf (x : Byte) : Engine.reset.freqOf x = 0#32 := symAt_replicate 0#32 x

theorem reset_codeLenOf (x : Byte) : Engine.reset.codeLenOf x = 0#8 := symAt_replicate 0#8 x

theorem reset_codeOf (x : Byte) : Engine.reset.codeOf x = 0#255 := symAt_replicate 0#255 x

theorem reset_nodes {i : Nat} (h : i < 511) : Engine.reset.nodes[i] = Node.empty :=
  Vector.getElem_replicate h

theorem reset_buf {i : Nat} (h : i < 34) : Engine.reset.buf[i] = 0#8 :=
  Vector.getElem_replicate h

/-! ### The edges of `rst_n` -/

@[simp] theorem resetLow_eng (s : State) : (resetLow s).eng = Engine.reset := rfl

@[simp] theorem resetLow_inReset (s : State) : (resetLow s).host.inReset = true := rfl

/-- The release ends a reset, so it leaves the reset values where `rst_n` was low (R200, R201). -/
theorem resetHigh_eng {s : State} (h : s.host.inReset = true) :
    (resetHigh s).eng = Engine.reset := by simp [resetHigh, h]

@[simp] theorem resetHigh_inReset (s : State) : (resetHigh s).host.inReset = false := rfl

/-- While `rst_n` is low the engine neither executes nor accepts a word (R200). -/
theorem engineTurn_inReset {s : State} (h : s.host.inReset = true) : engineTurn s = .next s := by
  simp [engineTurn, h]

/-- With a move at the head of the schedule, `atTurn` takes that move from it (log entry 3). -/
theorem atTurn_of_events_cons {s : State} {ev : Event} {rest : List Event}
    (h : s.host.events = ev :: rest) :
    s.atTurn = { s with host := { s.host with events := rest }, draw := s.draw + 1 } := by
  rw [State.atTurn, h, List.tail_cons]

/-- Settles O53: the reset values field by field, then the step as its move: `rst_n` low, the engine's
turn held, `rst_n` released. ID and PARAM read no field of the engine (`idAndParam`). -/
theorem resetGivesResetValues : Obligations.ResetGivesResetValues := by
  refine ⟨?values, fun s t rest hev hstep => ?low, fun s rest hr hev => ?held,
    fun s t rest hr hev hstep => ?release, fun b e => ?constants⟩
  case values =>
    exact ⟨reset_phase, reset_inflight, rfl, rfl, rfl, rfl, rfl, rfl, rfl, rfl, rfl, rfl, rfl, rfl,
      rfl, rfl, rfl, reset_out, fun x => ⟨reset_freqOf x, reset_codeLenOf x, reset_codeOf x⟩,
      fun _ => reset_nodes, fun _ => reset_buf⟩
  case low =>
    rw [step_eq_move hev, move] at hstep
    cases hstep
    exact ⟨resetLow_eng _, resetLow_inReset _⟩
  case held =>
    rw [step_eq_move hev, move, engineTurn_inReset (s := s.atTurn) hr, atTurn_of_events_cons hev]
  case release =>
    rw [step_eq_move hev, move] at hstep
    cases hstep
    exact ⟨resetHigh_eng (s := s.atTurn) hr, resetHigh_inReset _⟩
  case constants =>
    obtain ⟨hid, hparam⟩ := idAndParam b e
    obtain ⟨hid', hparam'⟩ := idAndParam b State.reset.eng
    exact ⟨hid.trans hid'.symm, hparam.trans hparam'.symm⟩

end Sys2Proof.Machine
